-- ==== Sys2Proof/Word.lean ====
section
/-! DEFINITION. Bytes, and the fixed-size byte arrays the data path moves as wholes (00_scope.md R10, R12).
A lane is 16 bytes, which the AES round reads as four columns of four bytes and the lane shuffles as four words of
four bytes: column c and word c are the same bytes `L[4c .. 4c+4)` (R12, R120). -/

namespace Sys2Proof

/-- A byte, 0..255 (R10). -/
abbrev Byte := BitVec 8

/-- The 64-bit quantities `MIX`, `DIFF`, `NONCE`, the mixer's lanes and keys (R11, R28). -/
abbrev Word64 := BitVec 64

/-- Four consecutive bytes of a lane: a word of R12, a column of R120. Moved whole, never read as a number. -/
structure Quad where
  b0 : Byte
  b1 : Byte
  b2 : Byte
  b3 : Byte
deriving DecidableEq, Repr

/-- A 16-byte lane: words, or columns, 0 to 3 (R12, R120). -/
structure Lane where
  w0 : Quad
  w1 : Quad
  w2 : Quad
  w3 : Quad
deriving DecidableEq, Repr

/-- A 32-byte array as its two lanes. -/
structure Block32 where
  l0 : Lane
  l1 : Lane
deriving DecidableEq, Repr

/-- A 64-byte array as its four lanes. -/
structure Block64 where
  l0 : Lane
  l1 : Lane
  l2 : Lane
  l3 : Lane
deriving DecidableEq, Repr

end Sys2Proof
end

