-- ==== Sys2Proof/Machine/Bytes.lean ====
section
/-! DEFINITION. The byte-array notation of 00_scope.md: concatenation order, zeros, exclusive-or (R10), the
integer-to-bytes conversions (R11), lanes and words (R12). -/

namespace Sys2Proof

/-- `zeros(n)` of R10. -/
def zeros (n : Nat) : List Byte := List.replicate n 0#8

/-- `bs` followed by zero bytes up to length `n`. -/
def padTo (n : Nat) (bs : List Byte) : List Byte := bs ++ zeros (n - bs.length)

/-- The number whose bytes are `bs`, byte 0 least significant (`LE64`, `LE32` of R11). -/
def leNat : List Byte → Nat
  | [] => 0
  | b :: bs => b.toNat + 256 * leNat bs

/-- The number whose bytes are `bs`, byte 0 most significant (`BE256` of R11). -/
def beNat (bs : List Byte) : Nat := bs.foldl (fun acc b => 256 * acc + b.toNat) 0

/-- The `n` bytes of `v`, least significant first. -/
def leBytes : Nat → Nat → List Byte
  | 0, _ => []
  | n + 1, v => BitVec.ofNat 8 v :: leBytes n (v / 256)

/-- `LE64` of R11. -/
def le64 (bs : List Byte) : Word64 := BitVec.ofNat 64 (leNat bs)

/-- `LE32` of R11. -/
def le32 (bs : List Byte) : BitVec 32 := BitVec.ofNat 32 (leNat bs)

/-- `le64_bytes` of R11. -/
def le64Bytes (v : Word64) : List Byte := leBytes 8 v.toNat

/-- `le32_bytes` of R11. -/
def le32Bytes (v : BitVec 32) : List Byte := leBytes 4 v.toNat

/-! Quads, lanes and blocks as byte arrays. A missing byte reads as zero, so taking a block from a shorter array pads
it with zeros on the right. -/

/-- The first four bytes of `bs`. -/
def Quad.ofBytes (bs : List Byte) : Quad := ⟨bs.getD 0 0, bs.getD 1 0, bs.getD 2 0, bs.getD 3 0⟩

/-- The first sixteen bytes of `bs`: word k is `bs[4k .. 4k+4)` (R12). -/
def Lane.ofBytes (bs : List Byte) : Lane :=
  ⟨Quad.ofBytes bs, Quad.ofBytes (bs.drop 4), Quad.ofBytes (bs.drop 8), Quad.ofBytes (bs.drop 12)⟩

/-- Lane l is `bs[16l .. 16l+16)` (R12). -/
def Block32.ofBytes (bs : List Byte) : Block32 := ⟨Lane.ofBytes bs, Lane.ofBytes (bs.drop 16)⟩

/-- Lane l is `bs[16l .. 16l+16)` (R12). -/
def Block64.ofBytes (bs : List Byte) : Block64 :=
  ⟨Lane.ofBytes bs, Lane.ofBytes (bs.drop 16), Lane.ofBytes (bs.drop 32), Lane.ofBytes (bs.drop 48)⟩

/-- The bytes of a quad in index order. -/
def Quad.bytes (q : Quad) : List Byte := [q.b0, q.b1, q.b2, q.b3]

/-- The bytes of a lane in index order. -/
def Lane.bytes (l : Lane) : List Byte := l.w0.bytes ++ l.w1.bytes ++ l.w2.bytes ++ l.w3.bytes

/-- The bytes of a 32-byte block in index order. -/
def Block32.bytes (b : Block32) : List Byte := b.l0.bytes ++ b.l1.bytes

/-- The bytes of a 64-byte block in index order. -/
def Block64.bytes (b : Block64) : List Byte := b.l0.bytes ++ b.l1.bytes ++ b.l2.bytes ++ b.l3.bytes

/-- The quad of four equal bytes. -/
def Quad.fill (v : Byte) : Quad := ⟨v, v, v, v⟩

/-- The lane of sixteen equal bytes. -/
def Lane.fill (v : Byte) : Lane := ⟨Quad.fill v, Quad.fill v, Quad.fill v, Quad.fill v⟩

/-- The 32-byte block of equal bytes. -/
def Block32.fill (v : Byte) : Block32 := ⟨Lane.fill v, Lane.fill v⟩

/-- The 64-byte block of equal bytes. -/
def Block64.fill (v : Byte) : Block64 := ⟨Lane.fill v, Lane.fill v, Lane.fill v, Lane.fill v⟩

/-- `^` byte by byte (R10). -/
def Quad.xor (p q : Quad) : Quad := ⟨p.b0 ^^^ q.b0, p.b1 ^^^ q.b1, p.b2 ^^^ q.b2, p.b3 ^^^ q.b3⟩

/-- `^` byte by byte (R10). -/
def Lane.xor (a b : Lane) : Lane := ⟨a.w0.xor b.w0, a.w1.xor b.w1, a.w2.xor b.w2, a.w3.xor b.w3⟩

/-- `^` byte by byte (R10). -/
def Block32.xor (x y : Block32) : Block32 := ⟨x.l0.xor y.l0, x.l1.xor y.l1⟩

/-- `^` byte by byte (R10). -/
def Block64.xor (x y : Block64) : Block64 := ⟨x.l0.xor y.l0, x.l1.xor y.l1, x.l2.xor y.l2, x.l3.xor y.l3⟩

end Sys2Proof
end

