-- ==== Sys2Proof/Config.lean ====
section
/-! DEFINITION. What is fixed for one CORE instance (00_scope.md R8) and the values the spec leaves open.
An `opaque` constant has no body: no proof can learn its value. -/

namespace Sys2Proof

/-- The parameters of R8 that a model takes as arguments. State carries one such record and no step changes it, so a
statement about every state is a statement about every parameter value (log 4). -/
structure Config where
  /-- The round-constant table `RC` of 40 entries of 16 bytes (R27). -/
  rc        : List Lane
  /-- The mixer key of the even lanes (R28). -/
  kEven     : Word64
  /-- The mixer key of the odd lanes (R28). -/
  kOdd      : Word64
  /-- `MSG_MAX` - 64, where `MSG_MAX` is the capacity in bytes of the message buffer (R8, R29): the type holds exactly
  the range 64..49152 of R9. -/
  msgRoom   : Fin 49089
  /-- `KEYBUF_LEN`: 8832 on this hardware (R8); less on a mis-configured instance (R192, U15; log 6). -/
  keyBufLen : Nat
deriving DecidableEq, Repr

/-- `MSG_MAX`, 64..49152 (R8, R9). -/
def Config.msgMax (c : Config) : Nat := c.msgRoom.val + 64

/-- `K_EVEN` of the instance that `State.reset` describes: OPEN (R28; log 4). -/
opaque Config.chipKeyEven : Word64

/-- `K_ODD` of the instance that `State.reset` describes: OPEN (R28; log 4). -/
opaque Config.chipKeyOdd : Word64

/-- How far `MSG_MAX` of the instance that `State.reset` describes lies above 64: OPEN (log 4). -/
opaque Config.chipMsgRoom : Fin 49089

/-- FREE VALUE (93_implementation_defined.md U1, the treatment `any value`; log 3): what a byte of a data buffer that
has not been written since reset reads as, at the read numbered by the first argument, at the host address given by
the second. -/
opaque Config.unwrittenByte : Nat → Nat → Byte

end Sys2Proof
end

