-- ==== Sys2Proof/Syntax.lean ====
section
/-! DEFINITION. The commands of the CORE: one constructor per row of the opcode map (30_encoding.md R93). -/

namespace Sys2Proof

/-- A command, the CORE's analogue of an instruction (R16). The only operands are the lane index of AESRND and the
key-window index of the two keyed Haraka commands (R92); every other operand buffer is implicit (R45). -/
inductive Instr where
  /-- 0x00, computes nothing (R240). -/
  | nop
  /-- 0x01, one AES round on lane `l` of `P` (R129). -/
  | aesrnd (l : Fin 4)
  /-- 0x02, unkeyed Haraka-256 (R151). -/
  | h256
  /-- 0x03, Haraka-256 keyed from the window at 16-byte index `w` of `KB` (R152). -/
  | h256k (w : Nat)
  /-- 0x04, unkeyed Haraka-512 (R153). -/
  | h512
  /-- 0x05, Haraka-512 keyed from the window at 16-byte index `w` of `KB` (R154). -/
  | h512k (w : Nat)
  /-- 0x06, the sponge absorber (R174). -/
  | sponge
  /-- 0x07, the carry-less mixer (R185). -/
  | clmix
  /-- 0x08, the key-stream generator (R194). -/
  | keygen
  /-- 0x09, the finalizer (R207). -/
  | final
  /-- 0x0A, the composed hash (R208). -/
  | hash
  /-- 0x0B, the target codec (R222). -/
  | target
  /-- 0x0C, the verification predicate (R223). -/
  | verify
  /-- 0x0D, the nonce search (R224 to R228). -/
  | search
  /-- 0x0E, ends a running search (R241). -/
  | abort
deriving DecidableEq, Repr

end Sys2Proof
end

