-- ==== Sys2Proof/WellFormed.lean ====
section
/-! DEFINITION. Which commands have an encoding (30_encoding.md R90, R92) and which configurations are well formed
(00_scope.md R8, R9). -/

namespace Sys2Proof

/-- The window index of a keyed Haraka command is a 16-bit field (R90, R92). The lane index of AESRND is bounded by
its type. A window too large for the key buffer is legal as an encoding (R94). -/
def Instr.wellFormed : Instr → Bool
  | .h256k w => decide (w < 65536)
  | .h512k w => decide (w < 65536)
  | .nop | .aesrnd _ | .h256 | .h512 | .sponge | .clmix | .keygen | .final | .hash | .target | .verify | .search
  | .abort => true

/-- A well-formed configuration (R9), `KEYBUF_LEN` at the value R8 fixes. That `SBOX` is the table of R122 holds of
every configuration, since the model has no other; that an entry of `RC` has 16 bytes, and that `MSG_MAX` is in
64..49152, hold by type. -/
def Config.wellFormed (c : Config) : Bool := decide (c.keyBufLen = 8832) && decide (c.rc.length = 40)

/-- A configuration the model gives a machine for: a well-formed one, or one whose only fault is a key buffer that is
too small, which the spec lets a model keep and answer with KEYBUF_TOO_SMALL (R192, U15; log 6). -/
def Config.admitted (c : Config) : Bool := decide (c.keyBufLen ≤ 8832) && decide (c.rc.length = 40)

end Sys2Proof
end

