-- ==== Sys2Proof/Decode.lean ====
section
/-! DEFINITION. The command word: decoding, encoding and the opcode map as the spec prints it (30_encoding.md
R90 to R94). -/

namespace Sys2Proof

/-- Why a word spells no command (R94), or why bytes are no word. Every one is ILLEGAL_CMD to the machine. -/
inductive DecodeError where
  /-- Not exactly four bytes (R90: one length). -/
  | notFourBytes
  /-- A bit of the field `Z`, bits 15:10, is set. -/
  | reservedZ
  /-- `OP` in 0x0F..0xFF. -/
  | unassignedOp
  /-- `LANE` is not zero in a command other than AESRND. -/
  | strayLane
  /-- `W` is not zero in a command other than H256K and H512K. -/
  | strayWindow
deriving DecidableEq, Repr

/-- `OP`, bits 7:0 (R90). -/
def opField (w : BitVec 32) : BitVec 8 := w.extractLsb' 0 8

/-- `LANE`, bits 9:8 (R90). -/
def laneField (w : BitVec 32) : BitVec 2 := w.extractLsb' 8 2

/-- `Z`, bits 15:10 (R90). -/
def zField (w : BitVec 32) : BitVec 6 := w.extractLsb' 10 6

/-- `W`, bits 31:16 (R90). -/
def windowField (w : BitVec 32) : BitVec 16 := w.extractLsb' 16 16

/-- A command without operands: `LANE` and `W` must be 0 (R92). -/
def plainCommand (i : Instr) (w : BitVec 32) : Except DecodeError Instr :=
  if laneField w ≠ 0#2 then .error .strayLane
  else if windowField w ≠ 0#16 then .error .strayWindow
  else .ok i

/-- AESRND: `LANE` is the operand, `W` must be 0 (R92). -/
def laneCommand (w : BitVec 32) : Except DecodeError Instr :=
  if windowField w ≠ 0#16 then .error .strayWindow else .ok (.aesrnd (laneField w).toFin)

/-- H256K and H512K: `W` is the operand, `LANE` must be 0 (R92). -/
def windowCommand (i : Nat → Instr) (w : BitVec 32) : Except DecodeError Instr :=
  if laneField w ≠ 0#2 then .error .strayLane else .ok (i (windowField w).toNat)

/-- The decoder of R92 and R93, total on all words. -/
def decodeWord (w : BitVec 32) : Except DecodeError Instr :=
  if zField w ≠ 0#6 then .error .reservedZ
  else match (opField w).toNat with
    | 0x00 => plainCommand .nop w
    | 0x01 => laneCommand w
    | 0x02 => plainCommand .h256 w
    | 0x03 => windowCommand .h256k w
    | 0x04 => plainCommand .h512 w
    | 0x05 => windowCommand .h512k w
    | 0x06 => plainCommand .sponge w
    | 0x07 => plainCommand .clmix w
    | 0x08 => plainCommand .keygen w
    | 0x09 => plainCommand .final w
    | 0x0A => plainCommand .hash w
    | 0x0B => plainCommand .target w
    | 0x0C => plainCommand .verify w
    | 0x0D => plainCommand .search w
    | 0x0E => plainCommand .abort w
    | _ => .error .unassignedOp

/-- The decoder on the bytes of a bus write: four little-endian bytes (R90, 20_memory.md R64). -/
def decode (bs : List Byte) : Except DecodeError Instr :=
  if bs.length = 4 then decodeWord (le32 bs) else .error .notFourBytes

/-- The instruction read from a word numbered as the opcode table numbers it: bit 0 the least significant bit of the
word, bits at and above `nbits` zero. -/
def decodeTableWord (nbits w : Nat) : Option Instr :=
  (decode (le32Bytes (BitVec.ofNat 32 (w % 2 ^ nbits)))).toOption

/-! The encoder, from the same table. -/

/-- The `OP` of a command (R93). -/
def Instr.opcode : Instr → Nat
  | .nop => 0x00
  | .aesrnd _ => 0x01
  | .h256 => 0x02
  | .h256k _ => 0x03
  | .h512 => 0x04
  | .h512k _ => 0x05
  | .sponge => 0x06
  | .clmix => 0x07
  | .keygen => 0x08
  | .final => 0x09
  | .hash => 0x0A
  | .target => 0x0B
  | .verify => 0x0C
  | .search => 0x0D
  | .abort => 0x0E

/-- The `LANE` field of a command: its operand for AESRND, else 0 (R90). -/
def Instr.laneBits : Instr → Nat
  | .aesrnd l => l.val
  | .nop | .h256 | .h256k _ | .h512 | .h512k _ | .sponge | .clmix | .keygen | .final | .hash | .target | .verify
  | .search | .abort => 0

/-- The `W` field of a command: its operand for H256K and H512K, else 0 (R90). -/
def Instr.windowBits : Instr → Nat
  | .h256k w => w
  | .h512k w => w
  | .nop | .aesrnd _ | .h256 | .h512 | .sponge | .clmix | .keygen | .final | .hash | .target | .verify | .search
  | .abort => 0

/-- The word of a well-formed command (R90, R93, R95: `OP + 256 * l + 65536 * w`). -/
def encode (i : Instr) : BitVec 32 := BitVec.ofNat 32 (i.opcode + 256 * i.laneBits + 65536 * i.windowBits)

/-- The bytes of a command on the bus (R90). -/
def encodeBytes (i : Instr) : List Byte := le32Bytes (encode i)

/-- The word of ABORT, the one word the host may write while a command runs (R91, R241). -/
def abortWord : BitVec 32 := 0x0000000E#32

/-! The opcode map as printed. -/

/-- The mask of a command's row in R93. -/
def Instr.mask : Instr → BitVec 32
  | .aesrnd _ => 0xFFFFFCFF#32
  | .h256k _ => 0x0000FFFF#32
  | .h512k _ => 0x0000FFFF#32
  | .nop | .h256 | .h512 | .sponge | .clmix | .keygen | .final | .hash | .target | .verify | .search | .abort =>
    0xFFFFFFFF#32

/-- The match of a command's row in R93. -/
def Instr.matchBits : Instr → BitVec 32
  | .nop => 0x00000000#32
  | .aesrnd _ => 0x00000001#32
  | .h256 => 0x00000002#32
  | .h256k _ => 0x00000003#32
  | .h512 => 0x00000004#32
  | .h512k _ => 0x00000005#32
  | .sponge => 0x00000006#32
  | .clmix => 0x00000007#32
  | .keygen => 0x00000008#32
  | .final => 0x00000009#32
  | .hash => 0x0000000A#32
  | .target => 0x0000000B#32
  | .verify => 0x0000000C#32
  | .search => 0x0000000D#32
  | .abort => 0x0000000E#32

/-- `w & mask = match` for the row of `i` (R93). -/
def Instr.rowMatches (i : Instr) (w : BitVec 32) : Bool := decide (w &&& i.mask = i.matchBits)

end Sys2Proof
end

