-- ==== Sys2Proof/Machine/State.lean ====
section
/-! DEFINITION. The state of one CORE instance (10_state.md R20 to R44), plain data, and its value after reset. -/

namespace Sys2Proof.Machine

/-- The data buffers, as cells (host address, byte) with addresses strictly rising (20_memory.md R63). An address that
is not listed has not been written since reset (R44); reading it gives a free value (log 3). -/
abbrev Memory := List Host.Cell

/-- The fields of `STATUS` (R37). Bits 7:6 and 31:16 read as 0 and are never written, so they have no field
(log 17). -/
structure Status where
  /-- Bit 0: from the issue of a command until its completion, abort or fault. -/
  busy    : Bool
  /-- Bit 1: from the completion or abort of a command until the next issue or fault. -/
  done    : Bool
  /-- Bit 2: a fault has been taken since reset. -/
  fault   : Bool
  /-- Bit 3: the verdict of the last VERIFY or SEARCH. -/
  result  : Bool
  /-- Bit 4: the last command was a SEARCH ended by ABORT. -/
  aborted : Bool
  /-- Bit 5: the last command was a SEARCH that tested nonce 2^64 - 1 without a match. -/
  exh     : Bool
  /-- Bits 15:8: the code of the first fault since reset, 0 if none. -/
  fcode   : BitVec 8
deriving DecidableEq, Repr

/-- A move of the host (00_scope.md R13, 20_memory.md R61, R62, 70_reset_and_hazards.md R290). -/
inductive HostMove where
  /-- `HostRead(addr, n)`. -/
  | read (addr : BitVec 16) (n : Nat)
  /-- `HostWrite(addr, len(v), v)`. -/
  | write (addr : BitVec 16) (v : List Byte)
  /-- The reset input is asserted. -/
  | reset
deriving DecidableEq, Repr

/-- Who moves next (00_scope.md R19; log 1). -/
inductive Turn where
  /-- The host makes a move. -/
  | host (m : HostMove)
  /-- The sequencer takes its step, if it has one. -/
  | sequencer
  /-- The script statement WAIT: the host reads `STATUS` until `DONE` or `FAULT` is 1 (30_encoding.md R95; log 20). -/
  | wait
deriving DecidableEq, Repr

/-- The state of one CORE instance. -/
structure State where
  /-- `MIX`, `DIFF`, `NONCE`, `RK`, `P`, `Y`, `S`, `DIGEST`, `TARGET`, `KB`, `MSG` (R21 to R25, R29, R31 to R35). -/
  mem     : Memory
  /-- `MSGLEN` (R30). -/
  msgLen  : BitVec 32
  /-- `STATUS` (R37). -/
  status  : Status
  /-- `PENDING`, the decoded command between its issue and its completion (R39). -/
  pending : Option Instr
  /-- `RC`, `K_EVEN`, `K_ODD`, `MSG_MAX`, `KEYBUF_LEN`: fixed, no step changes them (R20, R27, R28, R8). -/
  cfg     : Config
  /-- The model's own: the moves still to be made, the next one first (log 1). -/
  turns   : List Turn
  /-- The model's own: the bytes the last HostRead returned (log 2). -/
  bus     : List Byte
  /-- The model's own: the number of the next read, to which the free values are applied (log 3). -/
  fresh   : Nat
deriving DecidableEq, Repr

/-- Why the model's machine stops with a fault. The six faults of the CORE (60_exceptions.md R252) are not here: they
are states the machine goes on from, `FAULT` = 1. -/
inductive Fault where
  /-- Raised by `step`: it is the sequencer's turn, `BUSY` = 1 and `PENDING` is none. By R39 and R91 no run reaches such
  a state and the spec gives it no step. Safe: the model stops (log 10). -/
  | strayBusy
deriving DecidableEq, Repr

/-- Why the model gives no behaviour. -/
inductive Refusal where
  /-- Raised by `exec` alone, for a command without a meaning yet; none is left. Safe. -/
  | notModelled (mnemonic : String)
  /-- Raised by `step`: the configuration is not one the model gives a machine for (00_scope.md R9,
  93_implementation_defined.md U15; log 6). Safe. -/
  | illFormedConfig
deriving DecidableEq, Repr

/-- All fields of `STATUS` 0 (R43, R290). -/
def Status.cleared : Status := ⟨false, false, false, false, false, false, 0#8⟩

/-- The configuration of the instance that `State.reset` describes: the default table of R27 (log 5), OPEN keys, an
OPEN `MSG_MAX` in the range of R9 (log 4), `KEYBUF_LEN` of R8. -/
def Config.ofChip : Config :=
  { rc := defaultRc
    kEven := Config.chipKeyEven
    kOdd := Config.chipKeyOdd
    msgRoom := Config.chipMsgRoom
    keyBufLen := 8832 }

/-- The machine right after reset (R43, R290, R291): `STATUS` 0, `PENDING` none, `MSGLEN` 0, every data buffer
unwritten; no move placed. -/
def State.reset : State :=
  { mem := []
    msgLen := 0#32
    status := Status.cleared
    pending := none
    cfg := Config.ofChip
    turns := []
    bus := []
    fresh := 0 }

end Sys2Proof.Machine
end

