-- ==== Sys2Proof/Machine/Ops.lean ====
section
/-! DEFINITION. The shared operations: cells of memory, the host address map (20_memory.md R63), reads and writes of
data buffers, taking a fault (60_exceptions.md R259) and the one way out of it, reset (70_reset_and_hazards.md R290). -/

namespace Sys2Proof.Machine

/-! Memory. -/

/-- The byte listed at an address; `none` where nothing has been written since reset (R44). -/
def readCell : Memory → Nat → Option Byte
  | [], _ => none
  | (k, b) :: m, a => if k = a then some b else readCell m a

/-- The cells of a byte array that starts at address `a`. -/
def cellsAt : Nat → List Byte → Memory
  | _, [] => []
  | a, b :: bs => (a, b) :: cellsAt (a + 1) bs

/-- `B[a .. a+len) <- bs` (00_scope.md R10): these bytes become written, all others stay. -/
def writeCells (m : Memory) (a : Nat) (bs : List Byte) : Memory :=
  m.filter (fun c => decide (c.1 < a)) ++ cellsAt a bs ++ m.filter (fun c => decide (a + bs.length ≤ c.1))

/-- The canonical form: addresses strictly rising. An unlisted address has no value, so no entry can repeat what an
unlisted address reads as. -/
abbrev Memory.wf (m : Memory) : Prop := m.Pairwise (fun c d => c.1 < d.1)

/-! The host address map (R63). -/

/-- The named ranges of the host space, in the order of R63. -/
inductive Region where
  | cmd
  | status
  | msgLen
  | mix
  | diff
  | nonce
  | rk
  | p
  | y
  | s
  | digest
  | target
  | kb
  | msg
deriving DecidableEq, Repr

/-- Every range of R63. -/
def Region.all : List Region :=
  [.cmd, .status, .msgLen, .mix, .diff, .nonce, .rk, .p, .y, .s, .digest, .target, .kb, .msg]

/-- The base address of a range (R63). -/
def Region.base : Region → Nat
  | .cmd => 0x0000
  | .status => 0x0004
  | .msgLen => 0x0008
  | .mix => 0x0010
  | .diff => 0x0018
  | .nonce => 0x0020
  | .rk => 0x0040
  | .p => 0x0080
  | .y => 0x00C0
  | .s => 0x0100
  | .digest => 0x0140
  | .target => 0x0160
  | .kb => 0x1000
  | .msg => 0x4000

/-- The size in bytes of a range (R63): that of `KB` is `KEYBUF_LEN`, that of `MSG` is `MSG_MAX`. -/
def Region.size (c : Config) : Region → Nat
  | .cmd => 4
  | .status => 4
  | .msgLen => 4
  | .mix => 8
  | .diff => 8
  | .nonce => 8
  | .rk => 16
  | .p => 64
  | .y => 32
  | .s => 64
  | .digest => 32
  | .target => 32
  | .kb => c.keyBufLen
  | .msg => c.msgMax

/-- Accessed only whole, at its base address (R61, R62, R66). -/
def Region.whole : Region → Bool
  | .cmd | .status | .msgLen | .mix | .diff | .nonce => true
  | .rk | .p | .y | .s | .digest | .target | .kb | .msg => false

/-- Readable by the host (R63): all but `CMD`. -/
def Region.readable : Region → Bool
  | .cmd => false
  | .status | .msgLen | .mix | .diff | .nonce | .rk | .p | .y | .s | .digest | .target | .kb | .msg => true

/-- Writable by the host (R63): all but `STATUS`, `Y` and `DIGEST`. -/
def Region.writable : Region → Bool
  | .status | .y | .digest => false
  | .cmd | .msgLen | .mix | .diff | .nonce | .rk | .p | .s | .target | .kb | .msg => true

/-- Held in memory: the data buffers of R20. -/
def Region.isBuffer : Region → Bool
  | .cmd | .status | .msgLen => false
  | .mix | .diff | .nonce | .rk | .p | .y | .s | .digest | .target | .kb | .msg => true

/-- The access `[addr, addr+n)` is one the range admits: the whole register, or a non-empty part of the buffer
(R61, R62, R66). Addresses do not wrap (log 19). -/
def Region.admits (c : Config) (addr n : Nat) (r : Region) : Bool :=
  if r.whole then decide (addr = r.base) && decide (n = r.size c)
  else decide (1 ≤ n) && decide (r.base ≤ addr) && decide (addr - r.base + n ≤ r.size c)

/-- The range a legal HostRead reads; `none` where the read is illegal (R61). -/
def readTarget (c : Config) (addr n : Nat) : Option Region :=
  Region.all.find? (fun r => r.readable && r.admits c addr n)

/-- The range a legal HostWrite writes; `none` where the write is illegal (R62). -/
def writeTarget (c : Config) (addr n : Nat) : Option Region :=
  Region.all.find? (fun r => r.writable && r.admits c addr n)

/-! Data buffers in State. -/

/-- The byte at a host address, as the read numbered `fresh` sees it: what is listed, else a free value (R44, U1;
log 3). -/
def State.byteAt (s : State) (a : Nat) : Byte := (readCell s.mem a).getD (Config.unwrittenByte s.fresh a)

/-- The `n` bytes from a host address on, in index order (R61). -/
def State.bytesAt (s : State) (a n : Nat) : List Byte := (List.range n).map (fun k => s.byteAt (a + k))

/-- Bytes of a data buffer written from offset `off` on. -/
def State.put (s : State) (r : Region) (off : Nat) (bs : List Byte) : State :=
  { s with mem := writeCells s.mem (r.base + off) bs }

/-! Faults of the CORE. -/

/-- The causes of 60_exceptions.md R252. -/
inductive CoreFault where
  | keybufTooSmall
  | windowOob
  | illegalCmd
  | msglenRange
  | busyAccess
  | badAccess
deriving DecidableEq, Repr

/-- The code recorded in `STATUS.FCODE` (R252). -/
def CoreFault.code : CoreFault → BitVec 8
  | .keybufTooSmall => 1#8
  | .windowOob => 2#8
  | .illegalCmd => 3#8
  | .msglenRange => 4#8
  | .busyAccess => 5#8
  | .badAccess => 6#8

/-- TAKING A FAULT, `raise X` (R259): `FAULT` 1, the first code kept, `BUSY` 0, `DONE` 0, `PENDING` none, and nothing
else: nothing is saved and control goes nowhere. -/
def raiseFault (f : CoreFault) (s : State) : State :=
  { s with
    status :=
      { s.status with
        fault := true
        fcode := if s.status.fcode = 0#8 then f.code else s.status.fcode
        busy := false
        done := false }
    pending := none }

/-- THE WAY OUT, reset (R290): `STATUS` 0, `PENDING` none, `MSGLEN` 0, every data buffer unwritten, the tables as
configured. The model's own fields stay (log 18). -/
def resetCore (s : State) : State :=
  { s with status := Status.cleared, pending := none, msgLen := 0#32, mem := [] }

end Sys2Proof.Machine
end

