-- ==== Sys2Proof/Machine/Flags.lean ====
section
/-! DEFINITION. Every computation of a `STATUS` field (10_state.md R37, R38): the word, issue, completion, verdict,
exhaustion and abort. There are no other flags (R38, R42). -/

namespace Sys2Proof.Machine

/-- A flag as a bit at place `k` of the status word. -/
def flagBit (k : Nat) (b : Bool) : Nat := if b then 2 ^ k else 0

/-- `STATUS` as the 32-bit word the host reads (R37): bits 7:6 and 31:16 are 0. -/
def Status.toWord (t : Status) : BitVec 32 :=
  BitVec.ofNat 32 (flagBit 0 t.busy + flagBit 1 t.done + flagBit 2 t.fault + flagBit 3 t.result
    + flagBit 4 t.aborted + flagBit 5 t.exh + 256 * t.fcode.toNat)

/-- The flags at the issue of a command (R38, R91 step 5). -/
def Status.issued (t : Status) : Status :=
  { t with busy := true, done := false, result := false, aborted := false, exh := false }

/-- The flags at the completion of a command (R38, R251). -/
def Status.completed (t : Status) : Status := { t with busy := false, done := true }

/-- The verdict of VERIFY (R223) and of a search that ends (R225). -/
def Status.verdict (b : Bool) (t : Status) : Status := { t with result := b }

/-- A search that tested the last nonce without a match (R225, R228). -/
def Status.exhausted (t : Status) : Status := { t with exh := true, result := false }

/-- A search ended by ABORT (R241). -/
def Status.abortedSearch (t : Status) : Status :=
  { t with busy := false, done := true, aborted := true, result := false }

end Sys2Proof.Machine
end

