-- ==== Sys2Proof/Machine/Operands.lean ====
section
/-! DEFINITION. The operand forms of the commands (30_encoding.md R92, 10_state.md R45): lanes of `P`, the round key,
key windows of `KB`, the implicit buffers and scalars; the operand checks at issue (60_exceptions.md R260); and the
two steps of a command (R250, R251). -/

namespace Sys2Proof.Machine

/-! Reading operands. -/

/-- The 16 bytes at a host address as a lane. -/
def State.laneAt (s : State) (a : Nat) : Lane := Lane.ofBytes (s.bytesAt a 16)

/-- Lane `l` of `P`, `P[16l .. 16l+16)` (R21). -/
def State.laneP (s : State) (l : Fin 4) : Lane := s.laneAt (Region.p.base + 16 * l.val)

/-- `RK` (R22). -/
def State.keyRK (s : State) : Lane := s.laneAt Region.rk.base

/-- `P[0 .. 32)`, the operand of the 256-bit commands (R21, R151). -/
def State.operand256 (s : State) : Block32 := Block32.ofBytes (s.bytesAt Region.p.base 32)

/-- `P[0 .. 64)`, the operand of the 512-bit commands (R21, R153). -/
def State.operand512 (s : State) : Block64 := Block64.ofBytes (s.bytesAt Region.p.base 64)

/-- The constant window `KB[16w .. 16w+16n)` as `n` lanes (41_haraka.md R140). -/
def State.windowKB (s : State) (w n : Nat) : List Lane :=
  (List.range n).map (fun k => s.laneAt (Region.kb.base + 16 * w + 16 * k))

/-- `S[0 .. n)` (R24). -/
def State.spongeS (s : State) (n : Nat) : List Byte := s.bytesAt Region.s.base n

/-- `MIX` (R25, R64). -/
def State.mix (s : State) : Word64 := le64 (s.bytesAt Region.mix.base 8)

/-- `DIFF` (R34, R64). -/
def State.diff (s : State) : Word64 := le64 (s.bytesAt Region.diff.base 8)

/-- `NONCE` (R35, R64). -/
def State.nonce (s : State) : Word64 := le64 (s.bytesAt Region.nonce.base 8)

/-- `TARGET` (R33). -/
def State.targetBytes (s : State) : List Byte := s.bytesAt Region.target.base 32

/-- The message a command works on, `MSG[0 .. MSGLEN)` (R29). -/
def State.message (s : State) : List Byte := s.bytesAt Region.msg.base s.msgLen.toNat

/-! Writing results. -/

/-- Writes lane `l` of `P` (R129). -/
def State.putP (s : State) (l : Fin 4) (v : Lane) : State := s.put .p (16 * l.val) v.bytes

/-- Writes `Y` (R23). -/
def State.putY (s : State) (v : Block32) : State := s.put .y 0 v.bytes

/-- Writes `S` (R24). -/
def State.putS (s : State) (bs : List Byte) : State := s.put .s 0 bs

/-- Writes `MIX` (R25, R64). -/
def State.putMix (s : State) (v : Word64) : State := s.put .mix 0 (le64Bytes v)

/-- Writes `NONCE` (R35, R64). -/
def State.putNonce (s : State) (v : Word64) : State := s.put .nonce 0 (le64Bytes v)

/-- Writes `KB` from its first byte on (R31). -/
def State.putKB (s : State) (bs : List Byte) : State := s.put .kb 0 bs

/-- Writes `DIGEST` (R32). -/
def State.putDigest (s : State) (v : Block32) : State := s.put .digest 0 v.bytes

/-- Writes `TARGET` (R33). -/
def State.putTarget (s : State) (bs : List Byte) : State := s.put .target 0 bs

/-! Operand checks at issue, in the order of R260. -/

/-- MSGLEN_RANGE: `MSGLEN > MSG_MAX` (R256). -/
def checkMsgLen (s : State) : Option CoreFault :=
  if s.msgLen.toNat ≤ s.cfg.msgMax then none else some .msglenRange

/-- KEYBUF_TOO_SMALL: `KEYBUF_LEN < 8832` (R253). -/
def checkKeyBuf (s : State) : Option CoreFault :=
  if 8832 ≤ s.cfg.keyBufLen then none else some .keybufTooSmall

/-- WINDOW_OOB: `16w + 16n > KEYBUF_LEN` (R150, R254). -/
def checkWindow (w n : Nat) (s : State) : Option CoreFault :=
  if 16 * w + 16 * n ≤ s.cfg.keyBufLen then none else some .windowOob

/-! The two steps of a command. -/

/-- The command is running: issued and not completed (R250). -/
def State.isRunning (s : State) (i : Instr) : Bool := s.status.busy && decide (s.pending = some i)

/-- Step 5 of R91: the command becomes pending; no data buffer is written. -/
def acceptCommand (i : Instr) (s : State) : State :=
  { s with pending := some i, status := s.status.issued }

/-- Issue of a decoded command (R91): ignored in the fault state, BUSY_ACCESS while another command runs, else the
first operand check that fails is raised, else the command is accepted. -/
def issueCommand (check : Option CoreFault) (accept : State → State) (s : State) : State :=
  if s.status.fault then s
  else if s.status.busy then raiseFault .busyAccess s
  else match check with
    | some f => raiseFault f s
    | none => accept s

/-- Completion (R251): `PENDING` none, `BUSY` 0, `DONE` 1. The next read has another number (log 3). -/
def completeCommand (s : State) : State :=
  { s with pending := none, status := s.status.completed, fresh := s.fresh + 1 }

/-- A command other than SEARCH and ABORT: its completion where it is the running command, its issue elsewhere
(R250; log 8). -/
def runCommand (i : Instr) (check : Option CoreFault) (effect : State → State) (s : State) :
    Host.Outcome State Fault Refusal :=
  if s.isRunning i then .next (completeCommand (effect s))
  else .next (issueCommand check (acceptCommand i) s)

end Sys2Proof.Machine
end

