-- ==== Sys2Proof/Machine/Agents.lean ====
section
/-! DEFINITION. What the next move is: the host's moves (20_memory.md R61, R62, 47_system_commands.md R242), the issue
of a command word (30_encoding.md R91), the sequencer's step (60_exceptions.md R251) and WAIT (30_encoding.md R95). -/

namespace Sys2Proof.Machine

/-- The next move, settled or as a command to run. -/
inductive Act where
  /-- The move leads to this state. -/
  | settle (s : State)
  /-- The move runs this command in this state. -/
  | run (i : Instr) (s : State)
  /-- A state the spec gives no step (log 10). -/
  | stuck
  /-- A configuration without a machine (log 6). -/
  | refuse
deriving DecidableEq, Repr

/-- The four bytes of `STATUS` on the bus, little-endian (R37, R64). -/
def State.statusBytes (s : State) : List Byte := le32Bytes s.status.toWord

/-- What a legal read of a range returns (R61). -/
def State.portBytes (s : State) (r : Region) (addr n : Nat) : List Byte :=
  match r with
  | .status => s.statusBytes
  | .msgLen => le32Bytes s.msgLen
  | .cmd => zeros n
  | .mix | .diff | .nonce | .rk | .p | .y | .s | .digest | .target | .kb | .msg => s.bytesAt addr n

/-- A read that returns `bs`: the model's own record of it, and the next read has another number (log 2, log 3). -/
def State.returning (s : State) (bs : List Byte) : State := { s with bus := bs, fresh := s.fresh + 1 }

/-- `HostRead(addr, n)` (R61, R257, R260): contents where it is legal and not barred by a running command; zeros, and
BAD_ACCESS or BUSY_ACCESS, where not. In the fault state nothing is raised (R260; log 9). -/
def hostRead (addr n : Nat) (s : State) : State :=
  match readTarget s.cfg addr n with
  | none => if s.status.fault then s.returning (zeros n) else raiseFault .badAccess (s.returning (zeros n))
  | some r =>
    if s.status.fault = false ∧ s.status.busy = true ∧ r ≠ .status then raiseFault .busyAccess (s.returning (zeros n))
    else s.returning (s.portBytes r addr n)

/-- The write of a command word (R91). While a command runs only the word of ABORT is let through, and it does nothing
to a running ABORT (R241; log 21). -/
def hostCommand (w : BitVec 32) (s : State) : Act :=
  if s.status.fault then .settle s
  else if s.status.busy then
    if w = abortWord then (if s.pending = some .abort then .settle s else .run .abort s)
    else .settle (raiseFault .busyAccess s)
  else match decodeWord w with
    | .error _ => .settle (raiseFault .illegalCmd s)
    | .ok i => .run i s

/-- A legal write of a range other than `CMD` while no command runs (R62). -/
def storePort (r : Region) (addr : Nat) (v : List Byte) (s : State) : State :=
  match r with
  | .msgLen => { s with msgLen := le32 v }
  | .cmd | .status => s
  | .mix | .diff | .nonce | .rk | .p | .y | .s | .digest | .target | .kb | .msg =>
    { s with mem := writeCells s.mem addr v }

/-- `HostWrite(addr, len(v), v)` (R62, R257, R260). -/
def hostWrite (addr : Nat) (v : List Byte) (s : State) : Act :=
  if s.status.fault then .settle s
  else match writeTarget s.cfg addr v.length with
    | none => .settle (raiseFault .badAccess s)
    | some .cmd => hostCommand (le32 v) s
    | some r => if s.status.busy then .settle (raiseFault .busyAccess s) else .settle (storePort r addr v s)

/-- A move of the host (R242). -/
def hostAct (m : HostMove) (s : State) : Act :=
  match m with
  | .read addr n => .settle (hostRead addr.toNat n s)
  | .write addr v => hostWrite addr.toNat v s
  | .reset => .settle (resetCore s)

/-- The sequencer's step: it runs the pending command while `BUSY` is 1, and has no step otherwise (R251, R277). -/
def sequencerAct (s : State) : Act :=
  if s.status.busy then
    match s.pending with
    | some i => .run i s
    | none => .stuck
  else .settle s

/-- One poll of WAIT (R95): `STATUS` is read; unless it shows `DONE` or `FAULT` the sequencer is let move and the poll
is repeated (log 20). -/
def pollAct (rest : List Turn) (s : State) : Act :=
  if s.status.done || s.status.fault then .settle (hostRead Region.status.base 4 { s with turns := rest })
  else .settle (hostRead Region.status.base 4 { s with turns := .sequencer :: .wait :: rest })

/-- The next move of the machine (00_scope.md R19; log 1, log 7). -/
def nextAct (s : State) : Act :=
  if s.cfg.admitted then
    match s.turns with
    | [] => sequencerAct s
    | .sequencer :: rest => sequencerAct { s with turns := rest }
    | .wait :: rest => pollAct rest s
    | .host m :: rest => hostAct m { s with turns := rest }
  else .refuse

/-- The write of the command word `w` placed as the next move, the CORE idle (log 8). -/
def placeCommand (w : BitVec 32) (s : State) : State :=
  { s with
    turns := .host (.write 0x0000#16 (le32Bytes w)) :: s.turns
    status := { s.status with busy := false, fault := false }
    pending := none }

end Sys2Proof.Machine
end

