-- ==== Sys2Proof/Machine/System.lean ====
section
/-! DEFINITION. The system commands NOP and ABORT (47_system_commands.md R240, R241). -/

namespace Sys2Proof.Machine

/-- NOP (R240): the common updates and nothing else. -/
def execNop (s : State) : Host.Outcome State Fault Refusal := runCommand .nop none id s

/-- The search ends between two iterations; no buffer changes (R241). -/
def endSearch (s : State) : State := { s with pending := none, status := s.status.abortedSearch }

/-- ABORT (R241): as the running command it completes like NOP; written in the fault state it does nothing; written
while a SEARCH runs it ends the search; written while another command runs it does nothing; written in the idle state
it is issued like NOP. -/
def execAbort (s : State) : Host.Outcome State Fault Refusal :=
  if s.isRunning .abort then .next (completeCommand s)
  else if s.status.fault then .next s
  else if s.status.busy then
    (if s.pending = some .search then .next (endSearch s) else .next s)
  else .next (acceptCommand .abort s)

end Sys2Proof.Machine
end

