-- ==== Sys2Proof/Machine/Clhash.lean ====
section
/-! DEFINITION. The carry-less multiplication mixer and the command CLMIX (43_clhash_mixer.md R180 to R185). -/

namespace Sys2Proof.Machine

/-- `clmul64` (R180): the low 64 bits of the product over GF(2), no reduction. -/
def clmul64 (a b : Word64) : Word64 :=
  (List.range 64).foldl (fun r j => if b.getLsbD j then r ^^^ (a <<< j) else r) 0#64

/-- `msg_block` (R182): the first `min(64, L)` bytes of the message, zero padded to 64. -/
def msgBlock (m : List Byte) : List Byte := padTo 64 (m.take 64)

/-- The 64-bit lane i of a byte array, `LE64(B[8i .. 8i+8))` (00_scope.md R12). -/
def lane64 (bs : List Byte) (i : Nat) : Word64 := le64 ((bs.drop (8 * i)).take 8)

/-- The key of lane i (R183): `K_EVEN` on even lanes, `K_ODD` on odd ones. -/
def laneKey (kEven kOdd : Word64) (i : Nat) : Word64 := if i % 2 = 0 then kEven else kOdd

/-- `clmix(m, ps)` (R183). -/
def clmix (kEven kOdd : Word64) (m ps : List Byte) : Word64 :=
  (List.range 8).foldl
    (fun acc i => acc ^^^ clmul64 (laneKey kEven kOdd i ^^^ lane64 ps i) (lane64 (msgBlock m) i)) 0#64

/-- CLMIX at completion (R185). -/
def clmixEffect (s : State) : State := s.putMix (clmix s.cfg.kEven s.cfg.kOdd s.message (s.spongeS 64))

/-- CLMIX (R185): MSGLEN_RANGE at issue. -/
def execClmix (s : State) : Host.Outcome State Fault Refusal := runCommand .clmix (checkMsgLen s) clmixEffect s

end Sys2Proof.Machine
end

