-- ==== Sys2Proof/Machine/Aes.lean ====
section
/-! DEFINITION. The AES round primitive and the command AESRND (40_aes_round.md R120 to R129). -/

namespace Sys2Proof.Machine

/-- Rows 0x to 7x of `SBOX` (R122): a row is the high hex digit, a place in it the low one. -/
def sboxRowsLow : List (List Byte) :=
  [[0x63, 0x7c, 0x77, 0x7b, 0xf2, 0x6b, 0x6f, 0xc5, 0x30, 0x01, 0x67, 0x2b, 0xfe, 0xd7, 0xab, 0x76],
   [0xca, 0x82, 0xc9, 0x7d, 0xfa, 0x59, 0x47, 0xf0, 0xad, 0xd4, 0xa2, 0xaf, 0x9c, 0xa4, 0x72, 0xc0],
   [0xb7, 0xfd, 0x93, 0x26, 0x36, 0x3f, 0xf7, 0xcc, 0x34, 0xa5, 0xe5, 0xf1, 0x71, 0xd8, 0x31, 0x15],
   [0x04, 0xc7, 0x23, 0xc3, 0x18, 0x96, 0x05, 0x9a, 0x07, 0x12, 0x80, 0xe2, 0xeb, 0x27, 0xb2, 0x75],
   [0x09, 0x83, 0x2c, 0x1a, 0x1b, 0x6e, 0x5a, 0xa0, 0x52, 0x3b, 0xd6, 0xb3, 0x29, 0xe3, 0x2f, 0x84],
   [0x53, 0xd1, 0x00, 0xed, 0x20, 0xfc, 0xb1, 0x5b, 0x6a, 0xcb, 0xbe, 0x39, 0x4a, 0x4c, 0x58, 0xcf],
   [0xd0, 0xef, 0xaa, 0xfb, 0x43, 0x4d, 0x33, 0x85, 0x45, 0xf9, 0x02, 0x7f, 0x50, 0x3c, 0x9f, 0xa8],
   [0x51, 0xa3, 0x40, 0x8f, 0x92, 0x9d, 0x38, 0xf5, 0xbc, 0xb6, 0xda, 0x21, 0x10, 0xff, 0xf3, 0xd2]]

/-- Rows 8x to fx of `SBOX` (R122). -/
def sboxRowsHigh : List (List Byte) :=
  [[0xcd, 0x0c, 0x13, 0xec, 0x5f, 0x97, 0x44, 0x17, 0xc4, 0xa7, 0x7e, 0x3d, 0x64, 0x5d, 0x19, 0x73],
   [0x60, 0x81, 0x4f, 0xdc, 0x22, 0x2a, 0x90, 0x88, 0x46, 0xee, 0xb8, 0x14, 0xde, 0x5e, 0x0b, 0xdb],
   [0xe0, 0x32, 0x3a, 0x0a, 0x49, 0x06, 0x24, 0x5c, 0xc2, 0xd3, 0xac, 0x62, 0x91, 0x95, 0xe4, 0x79],
   [0xe7, 0xc8, 0x37, 0x6d, 0x8d, 0xd5, 0x4e, 0xa9, 0x6c, 0x56, 0xf4, 0xea, 0x65, 0x7a, 0xae, 0x08],
   [0xba, 0x78, 0x25, 0x2e, 0x1c, 0xa6, 0xb4, 0xc6, 0xe8, 0xdd, 0x74, 0x1f, 0x4b, 0xbd, 0x8b, 0x8a],
   [0x70, 0x3e, 0xb5, 0x66, 0x48, 0x03, 0xf6, 0x0e, 0x61, 0x35, 0x57, 0xb9, 0x86, 0xc1, 0x1d, 0x9e],
   [0xe1, 0xf8, 0x98, 0x11, 0x69, 0xd9, 0x8e, 0x94, 0x9b, 0x1e, 0x87, 0xe9, 0xce, 0x55, 0x28, 0xdf],
   [0x8c, 0xa1, 0x89, 0x0d, 0xbf, 0xe6, 0x42, 0x68, 0x41, 0x99, 0x2d, 0x0f, 0xb0, 0x54, 0xbb, 0x16]]

/-- The byte substitution table (R26, R122), as the sixteen rows the spec prints. -/
def sboxRows : List (List Byte) := sboxRowsLow ++ sboxRowsHigh

/-- `SBOX[x]` (R122). -/
def sbox (x : Byte) : Byte := (sboxRows.getD (x.toNat / 16) []).getD (x.toNat % 16) 0

/-- Multiplication by 2 in GF(2^8) (R121). -/
def xtime (a : Byte) : Byte := (a <<< 1) ^^^ (if a &&& 0x80#8 ≠ 0#8 then 0x1B#8 else 0#8)

/-- Multiplication by 2 (R121). -/
def mul2 (a : Byte) : Byte := xtime a

/-- Multiplication by 3 (R121). -/
def mul3 (a : Byte) : Byte := xtime a ^^^ a

/-- `SBOX` on the four bytes of a column. -/
def subQuad (q : Quad) : Quad := ⟨sbox q.b0, sbox q.b1, sbox q.b2, sbox q.b3⟩

/-- `sub_bytes` (R123). -/
def subBytes (s : Lane) : Lane := ⟨subQuad s.w0, subQuad s.w1, subQuad s.w2, subQuad s.w3⟩

/-- `shift_rows` (R124): byte r of column c becomes byte r of column (c + r) mod 4, which is the index list
0, 5, 10, 15, 4, 9, 14, 3, 8, 13, 2, 7, 12, 1, 6, 11. -/
def shiftRows (s : Lane) : Lane :=
  ⟨⟨s.w0.b0, s.w1.b1, s.w2.b2, s.w3.b3⟩,
   ⟨s.w1.b0, s.w2.b1, s.w3.b2, s.w0.b3⟩,
   ⟨s.w2.b0, s.w3.b1, s.w0.b2, s.w1.b3⟩,
   ⟨s.w3.b0, s.w0.b1, s.w1.b2, s.w2.b3⟩⟩

/-- One column of `mix_columns` (R125). -/
def mixColumn (a : Quad) : Quad :=
  ⟨mul2 a.b0 ^^^ mul3 a.b1 ^^^ a.b2 ^^^ a.b3,
   a.b0 ^^^ mul2 a.b1 ^^^ mul3 a.b2 ^^^ a.b3,
   a.b0 ^^^ a.b1 ^^^ mul2 a.b2 ^^^ mul3 a.b3,
   mul3 a.b0 ^^^ a.b1 ^^^ a.b2 ^^^ mul2 a.b3⟩

/-- `mix_columns` (R125). -/
def mixColumns (s : Lane) : Lane := ⟨mixColumn s.w0, mixColumn s.w1, mixColumn s.w2, mixColumn s.w3⟩

/-- `add_round_key` (R126). -/
def addRoundKey (s rk : Lane) : Lane := s.xor rk

/-- `aes_round` (R127): the one definition every other command reaches (R130). -/
def aesRound (s rk : Lane) : Lane := addRoundKey (mixColumns (shiftRows (subBytes s))) rk

/-- AESRND l at completion (R129): the lane of `P` in place, nothing else. -/
def aesrndEffect (l : Fin 4) (s : State) : State :=
  s.putP l (aesRound (s.laneP l) s.keyRK)

/-- AESRND (R129): no fault of its own. -/
def execAesrnd (l : Fin 4) (s : State) : Host.Outcome State Fault Refusal :=
  runCommand (.aesrnd l) none (aesrndEffect l) s

end Sys2Proof.Machine
end

