-- ==== Sys2Proof/Machine/Haraka.lean ====
section
/-! DEFINITION. The Haraka-256 and Haraka-512 permutation engines and the commands H256, H256K, H512, H512K
(41_haraka.md R140 to R156). -/

namespace Sys2Proof.Machine

/-- Constant `C[k]` of a window (R140). -/
def constantAt (C : List Lane) (k : Nat) : Lane := C.getD k (Lane.fill 0)

/-- `window(KB, w, n)`: entry k is `KB[16w + 16k .. 16w + 16k + 16)` (R140). -/
def window (kb : List Byte) (w n : Nat) : List Lane :=
  (List.range n).map (fun k => Lane.ofBytes (kb.drop (16 * w + 16 * k)))

/-- `mix2` (R142). -/
def mix2 (x : Block32) : Block32 :=
  ⟨⟨x.l0.w0, x.l1.w0, x.l0.w1, x.l1.w1⟩, ⟨x.l0.w2, x.l1.w2, x.l0.w3, x.l1.w3⟩⟩

/-- `mix4` (R143), with a, b, c, d the lanes 0 to 3. -/
def mix4 (x : Block64) : Block64 :=
  ⟨⟨x.l0.w3, x.l2.w3, x.l1.w3, x.l3.w3⟩,
   ⟨x.l2.w0, x.l0.w0, x.l3.w0, x.l1.w0⟩,
   ⟨x.l2.w1, x.l0.w1, x.l3.w1, x.l1.w1⟩,
   ⟨x.l0.w2, x.l2.w2, x.l1.w2, x.l3.w2⟩⟩

/-- Pass p of round r over two lanes: lane l takes constant `C[4r + 2p + l]` (R141, R144). -/
def pass256 (C : List Lane) (r p : Nat) (x : Block32) : Block32 :=
  ⟨aesRound x.l0 (constantAt C (4 * r + 2 * p)), aesRound x.l1 (constantAt C (4 * r + 2 * p + 1))⟩

/-- Round r of Haraka-256: two passes, then `mix2` (R144). -/
def round256 (C : List Lane) (x : Block32) (r : Nat) : Block32 := mix2 (pass256 C r 1 (pass256 C r 0 x))

/-- `perm256`: five rounds (R144). -/
def perm256 (x : Block32) (C : List Lane) : Block32 := [0, 1, 2, 3, 4].foldl (round256 C) x

/-- `haraka256`: the permutation with feed-forward (R145). -/
def haraka256 (x : Block32) (C : List Lane) : Block32 := (perm256 x C).xor x

/-- Pass p of round r over four lanes: lane l takes constant `C[8r + 4p + l]` (R141, R146). -/
def pass512 (C : List Lane) (r p : Nat) (x : Block64) : Block64 :=
  ⟨aesRound x.l0 (constantAt C (8 * r + 4 * p)), aesRound x.l1 (constantAt C (8 * r + 4 * p + 1)),
   aesRound x.l2 (constantAt C (8 * r + 4 * p + 2)), aesRound x.l3 (constantAt C (8 * r + 4 * p + 3))⟩

/-- Round r of Haraka-512: two passes, then `mix4` (R146). -/
def round512 (C : List Lane) (x : Block64) (r : Nat) : Block64 := mix4 (pass512 C r 1 (pass512 C r 0 x))

/-- `perm512`: five rounds (R146). -/
def perm512 (x : Block64) (C : List Lane) : Block64 := [0, 1, 2, 3, 4].foldl (round512 C) x

/-- `trunc512`: bytes 8..15, 24..31, 32..39, 48..55 (R147): high half of lanes 0 and 1, low half of lanes 2 and 3. -/
def trunc512 (t : Block64) : Block32 :=
  ⟨⟨t.l0.w2, t.l0.w3, t.l1.w2, t.l1.w3⟩, ⟨t.l2.w0, t.l2.w1, t.l3.w0, t.l3.w1⟩⟩

/-- `haraka512`: the permutation, feed-forward over all 64 bytes, then truncation (R147). -/
def haraka512 (x : Block64) (C : List Lane) : Block32 := trunc512 ((perm512 x C).xor x)

/-- The window `RC[0 .. 20)` (R140). -/
def rc20 (rc : List Lane) : List Lane := rc.take 20

/-- The window `RC[0 .. 40)` (R140). -/
def rc40 (rc : List Lane) : List Lane := rc.take 40

/-! The commands: `Y` is written and nothing else (R149). -/

/-- H256 at completion (R151). -/
def h256Effect (s : State) : State := s.putY (haraka256 s.operand256 (rc20 s.cfg.rc))

/-- H256 (R151). -/
def execH256 (s : State) : Host.Outcome State Fault Refusal := runCommand .h256 none h256Effect s

/-- H256K w at completion (R152). -/
def h256kEffect (w : Nat) (s : State) : State := s.putY (haraka256 s.operand256 (s.windowKB w 20))

/-- H256K w (R152): WINDOW_OOB at issue where the window of 20 constants leaves the key buffer (R150). -/
def execH256k (w : Nat) (s : State) : Host.Outcome State Fault Refusal :=
  runCommand (.h256k w) (checkWindow w 20 s) (h256kEffect w) s

/-- H512 at completion (R153). -/
def h512Effect (s : State) : State := s.putY (haraka512 s.operand512 (rc40 s.cfg.rc))

/-- H512 (R153). -/
def execH512 (s : State) : Host.Outcome State Fault Refusal := runCommand .h512 none h512Effect s

/-- H512K w at completion (R154). -/
def h512kEffect (w : Nat) (s : State) : State := s.putY (haraka512 s.operand512 (s.windowKB w 40))

/-- H512K w (R154): WINDOW_OOB at issue where the window of 40 constants leaves the key buffer (R150). -/
def execH512k (w : Nat) (s : State) : Host.Outcome State Fault Refusal :=
  runCommand (.h512k w) (checkWindow w 40 s) (h512kEffect w) s

end Sys2Proof.Machine
end

