-- ==== Sys2Proof/Machine/KeyStream.lean ====
section
/-! DEFINITION. The key-stream generator and the command KEYGEN (44_keystream.md R190 to R194). -/

namespace Sys2Proof.Machine

/-- The first `n` blocks of the chain that starts from `x` (R190): each is `haraka256` of the one before it. -/
def keyChain (rc : List Lane) : Nat → Block32 → List Block32
  | 0, _ => []
  | n + 1, x => haraka256 x (rc20 rc) :: keyChain rc n (haraka256 x (rc20 rc))

/-- `expand_key(seed, N)` (R190): the first N bytes of the blocks, `ceil(N / 32)` of them computed. The key buffer's
tail is part of the chain (R193). DESIGN CHOICE (log 24): for N < 8832, where R192 leaves the function undefined, it is the
chain cut to N bytes, which no command uses. -/
def expandKey (rc : List Lane) (seed : Block32) (n : Nat) : List Byte :=
  ((keyChain rc ((n + 31) / 32) seed).flatMap Block32.bytes).take n

/-- KEYGEN at completion (R194): all 8832 bytes of `KB`. -/
def keygenEffect (s : State) : State :=
  s.putKB (expandKey s.cfg.rc (Block32.ofBytes (s.spongeS 32)) 8832)

/-- KEYGEN (R194): KEYBUF_TOO_SMALL at issue. -/
def execKeygen (s : State) : Host.Outcome State Fault Refusal := runCommand .keygen (checkKeyBuf s) keygenEffect s

end Sys2Proof.Machine
end

