-- ==== Sys2Proof/Machine/Sponge.lean ====
section
/-! DEFINITION. The sponge absorber and the command SPONGE (42_sponge.md R170 to R174). -/

namespace Sys2Proof.Machine

/-- The number of 32-byte chunks of a message: `max(1, ceil(L / 32))` (R170). -/
def chunkCount (m : List Byte) : Nat := max 1 ((m.length + 31) / 32)

/-- Chunk i: `m[32i .. min(32i+32, L))` filled up with zero bytes to 32 (R170). -/
def chunkAt (m : List Byte) (i : Nat) : List Byte := padTo 32 ((m.drop (32 * i)).take 32)

/-- One round of the loop of R171: the chunk into bytes 32..63, the unkeyed Haraka-512, its output into bytes 0..31,
zeros into bytes 32..63. -/
def absorb (rc : List Lane) (st : Block64) (chunk : Block32) : Block64 :=
  let out := haraka512 ⟨st.l0, st.l1, st.l2.xor chunk.l0, st.l3.xor chunk.l1⟩ (rc40 rc)
  ⟨out.l0, out.l1, Lane.fill 0, Lane.fill 0⟩

/-- `sponge(m)` (R171), for a message of any length. -/
def sponge (rc : List Lane) (m : List Byte) : Block64 :=
  (List.range (chunkCount m)).foldl (fun st i => absorb rc st (Block32.ofBytes (chunkAt m i))) (Block64.fill 0)

/-- SPONGE at completion (R174). -/
def spongeEffect (s : State) : State := s.putS (sponge s.cfg.rc s.message).bytes

/-- SPONGE (R174): MSGLEN_RANGE at issue. -/
def execSponge (s : State) : Host.Outcome State Fault Refusal := runCommand .sponge (checkMsgLen s) spongeEffect s

end Sys2Proof.Machine
end

