-- ==== Sys2Proof/Machine/Finalizer.lean ====
section
/-! DEFINITION. The finalizer, the composed hash and the commands FINAL and HASH (45_finalizer_hash.md R200 to R208). -/

namespace Sys2Proof.Machine

/-- `final_state(ps, mix)` (R200): `ps[0..32)`, the eight little-endian bytes of mix, 24 zero bytes. -/
def finalState (ps : List Byte) (mix : Word64) : List Byte := ps.take 32 ++ le64Bytes mix ++ zeros 24

/-- `window_index(mix)`: the low 9 bits (R201). -/
def windowIndex (mix : Word64) : Nat := (mix &&& 511#64).toNat

/-- The keyed Haraka-512 of the final state with the window of the key stream that mix selects (R203, R207). -/
def finalDigest (kb ps : List Byte) (mix : Word64) : Block32 :=
  haraka512 (Block64.ofBytes (finalState ps mix)) (window kb (windowIndex mix) 40)

/-- `finalize(ps, mix)` (R203). -/
def finalize (rc : List Lane) (ps : List Byte) (mix : Word64) : Block32 :=
  finalDigest (expandKey rc (Block32.ofBytes ps) 8832) ps mix

/-- What HASH leaves in `S`, `MIX`, `KB` and `DIGEST` (R208). -/
structure HashParts where
  sponge : List Byte
  mix    : Word64
  kb     : List Byte
  digest : Block32
deriving DecidableEq, Repr

/-- The four values of R208 for a message. -/
def hashParts (c : Config) (m : List Byte) : HashParts :=
  let ps := (sponge c.rc m).bytes
  let mix := clmix c.kEven c.kOdd m ps
  let kb := expandKey c.rc (Block32.ofBytes ps) 8832
  ⟨ps, mix, kb, finalDigest kb ps mix⟩

/-- `hash(m)` (R204): sponge, mix, finalize. -/
def hash (c : Config) (m : List Byte) : Block32 :=
  let ps := (sponge c.rc m).bytes
  finalize c.rc ps (clmix c.kEven c.kOdd m ps)

/-- The writes of FINAL (R207): `KB`, then `DIGEST`. -/
def finalCells (m : Memory) (kb : List Byte) (digest : Block32) : Memory :=
  writeCells (writeCells m Region.kb.base kb) Region.digest.base digest.bytes

/-- The writes of HASH (R208): `S`, `MIX`, then those of FINAL. -/
def hashCells (m : Memory) (h : HashParts) : Memory :=
  finalCells (writeCells (writeCells m Region.s.base h.sponge) Region.mix.base (le64Bytes h.mix)) h.kb h.digest

/-- The state with the writes of HASH done (R208). -/
def State.putHash (s : State) (h : HashParts) : State := { s with mem := hashCells s.mem h }

/-- FINAL at completion (R207): `KB` regenerated, then `DIGEST`; `S` and `MIX` only read. -/
def finalEffect (s : State) : State :=
  let ps := s.spongeS 32
  let kb := expandKey s.cfg.rc (Block32.ofBytes ps) 8832
  { s with mem := finalCells s.mem kb (finalDigest kb ps s.mix) }

/-- FINAL (R207): KEYBUF_TOO_SMALL at issue. -/
def execFinal (s : State) : Host.Outcome State Fault Refusal := runCommand .final (checkKeyBuf s) finalEffect s

/-- HASH at completion (R208). -/
def hashEffect (s : State) : State := s.putHash (hashParts s.cfg s.message)

/-- HASH (R208): MSGLEN_RANGE, then KEYBUF_TOO_SMALL at issue. -/
def execHash (s : State) : Host.Outcome State Fault Refusal :=
  runCommand .hash ((checkMsgLen s).or (checkKeyBuf s)) hashEffect s

end Sys2Proof.Machine
end

