-- ==== Sys2Proof/Machine/TargetVerify.lean ====
section
/-! DEFINITION. The target codec, the verification predicate, the nonce search and the commands TARGET, VERIFY and
SEARCH (46_target_verify_search.md R215 to R228). -/

namespace Sys2Proof.Machine

/-! The target codec. -/

/-- Step 1 of R215, byte i: shifted right by `bits`, with the low bits of the old byte i-1 brought in at the top. -/
def shiftedByte (t : List Byte) (bits i : Nat) : Byte :=
  let carry := if i = 0 then 0#8 else t.getD (i - 1) 0 <<< (8 - bits)
  (t.getD i 0 >>> bits) ||| carry

/-- `difficulty_to_target(d)` (R215): zeros from 256 on, else all ones shifted right, first by bits, then by bytes. -/
def difficultyToTarget (d : Word64) : List Byte :=
  if 256 ≤ d.toNat then zeros 32
  else
    let t := List.replicate 32 0xFF#8
    let u := (List.range 32).map (shiftedByte t (d.toNat % 8))
    (List.range 32).map (fun i => if i < d.toNat / 8 then 0#8 else u.getD (i - d.toNat / 8) 0)

/-- TARGET at completion (R222). -/
def targetEffect (s : State) : State := s.putTarget (difficultyToTarget s.diff)

/-- TARGET (R222): no fault. -/
def execTarget (s : State) : Host.Outcome State Fault Refusal := runCommand .target none targetEffect s

/-! The verification predicate. -/

/-- Lexicographic at-most on byte strings, byte 0 first, bytes unsigned (R217). -/
def lexAtMost : List Byte → List Byte → Bool
  | [], _ => true
  | _ :: _, [] => false
  | a :: as, b :: bs => if a = b then lexAtMost as bs else decide (a < b)

/-- `meets(dg, tgt)` (R217): the reversed digest is at most the target. -/
def meets (dg tgt : List Byte) : Bool := lexAtMost dg.reverse tgt

/-- `verify(m, tgt)` (R218). -/
def verify (c : Config) (m tgt : List Byte) : Bool := meets (hash c m).bytes tgt

/-- VERIFY at completion (R223): the writes of HASH, then the verdict. -/
def verifyEffect (s : State) : State :=
  let h := hashParts s.cfg s.message
  { s with mem := hashCells s.mem h, status := s.status.verdict (meets h.digest.bytes s.targetBytes) }

/-- VERIFY (R223): faults at issue as HASH. -/
def execVerify (s : State) : Host.Outcome State Fault Refusal :=
  runCommand .verify ((checkMsgLen s).or (checkKeyBuf s)) verifyEffect s

/-! The search. -/

/-- The issue of SEARCH (R224): also `MSGLEN <- 64`. -/
def acceptSearch (s : State) : State := { acceptCommand .search s with msgLen := 64#32 }

/-- The candidate of one iteration in `MSG[56..64)` (R225). -/
def candidateCells (s : State) : Memory := writeCells s.mem (Region.msg.base + 56) (le64Bytes s.nonce)

/-- The values of HASH on the candidate's message `MSG[0..64)` (R225). -/
def candidateParts (s : State) : HashParts :=
  hashParts s.cfg ({ s with mem := candidateCells s }.bytesAt Region.msg.base 64)

/-- Memory after one iteration (R225): the candidate, the writes of HASH, and `NONCE`. The nonce is also written where it
stays, so that it is the one tested even if the host never wrote it (log 11). -/
def iterationCells (s : State) (nonce : Word64) : Memory :=
  writeCells (hashCells (candidateCells s) (candidateParts s)) Region.nonce.base (le64Bytes nonce)

/-- One iteration of a running SEARCH (R225, R228): found, exhausted, or on to the next candidate. -/
def searchIteration (s : State) : State :=
  if meets (candidateParts s).digest.bytes s.targetBytes then
    completeCommand { s with mem := iterationCells s s.nonce, status := s.status.verdict true }
  else if s.nonce = BitVec.allOnes 64 then
    completeCommand { s with mem := iterationCells s s.nonce, status := s.status.exhausted }
  else
    { s with mem := iterationCells s (s.nonce + 1#64), fresh := s.fresh + 1 }

/-- SEARCH (R224, R225): its issue, or one iteration where it is the running command. -/
def execSearch (s : State) : Host.Outcome State Fault Refusal :=
  if s.isRunning .search then .next (searchIteration s)
  else .next (issueCommand (checkKeyBuf s) acceptSearch s)

end Sys2Proof.Machine
end

