-- ==== Sys2Proof/Machine/Dispatch.lean ====
section
/-! DEFINITION. One arm per command (30_encoding.md R93), each one call of its meaning. -/

namespace Sys2Proof.Machine

def exec (i : Instr) (s : State) : Host.Outcome State Fault Refusal :=
  match i with
  | .nop => Sys2Proof.Machine.execNop s
  | .aesrnd l => Sys2Proof.Machine.execAesrnd l s
  | .h256 => Sys2Proof.Machine.execH256 s
  | .h256k w => Sys2Proof.Machine.execH256k w s
  | .h512 => Sys2Proof.Machine.execH512 s
  | .h512k w => Sys2Proof.Machine.execH512k w s
  | .sponge => Sys2Proof.Machine.execSponge s
  | .clmix => Sys2Proof.Machine.execClmix s
  | .keygen => Sys2Proof.Machine.execKeygen s
  | .final => Sys2Proof.Machine.execFinal s
  | .hash => Sys2Proof.Machine.execHash s
  | .target => Sys2Proof.Machine.execTarget s
  | .verify => Sys2Proof.Machine.execVerify s
  | .search => Sys2Proof.Machine.execSearch s
  | .abort => Sys2Proof.Machine.execAbort s

end Sys2Proof.Machine
end

