-- ==== Sys2Proof/Machine/Step.lean ====
section
/-! DEFINITION. One step of the machine: the next move is looked up and made. -/

namespace Sys2Proof.Machine

/-- One step: one move of the host or one step of the sequencer (00_scope.md R19, 20_memory.md R68). -/
def step (s : State) : Host.Outcome State Fault Refusal :=
  match nextAct s with
  | .settle t => .next t
  | .run i t => exec i t
  | .stuck => .fault .strayBusy
  | .refuse => .refused .illFormedConfig

/-- `s` with the host's write of an instruction's word to `CMD` as the next move and the CORE idle, so that the next
step decodes the word and runs its instruction's issue, and the step after it its completion (log 8). -/
def State.withFetchWord (s : State) (nbits w : Nat) : State :=
  placeCommand (BitVec.ofNat 32 (w % 2 ^ nbits)) s

end Sys2Proof.Machine
end

