-- ==== Sys2Proof/Machine/Script.lean ====
section
/-! DEFINITION. The host-script syntax in which the spec writes command sequences (30_encoding.md R95, R96): each
statement as the turns it stands for. -/

namespace Sys2Proof.Machine

/-- A statement of a script (R95, R96). -/
inductive Stmt where
  /-- A command's mnemonic with its operand. -/
  | command (i : Instr)
  /-- `WR buf+off, hexbytes`. An offset past the end of the host space: log 23. -/
  | writeBuffer (r : Region) (off : Nat) (v : List Byte)
  /-- `WR MSGLEN, value`. -/
  | writeMsgLen (v : BitVec 32)
  /-- `WR reg, value` for `MIX`, `DIFF`, `NONCE`. -/
  | writeScalar (r : Region) (v : Word64)
  /-- `RD buf+off, n`, and `RD reg` with offset 0 and the register's size. An offset past the end of the host
  space: log 23. -/
  | readBuffer (r : Region) (off n : Nat)
  /-- `WAIT`. -/
  | wait
  /-- `RESET`. -/
  | reset
  /-- `LOADMSG hexbytes` (R96). -/
  | loadMsg (v : List Byte)
  /-- `RUN cmd` (R96). -/
  | runWait (i : Instr)
deriving DecidableEq, Repr

/-- A write of bytes at an offset in a range (R95). DESIGN CHOICE (log 23): where the sum of base and offset passes 0xFFFF
it names no 16-bit host address, and the address is the sum modulo 65536. -/
def writeTurn (r : Region) (off : Nat) (v : List Byte) : Turn := .host (.write (BitVec.ofNat 16 (r.base + off)) v)

/-- The turns a statement stands for (R95, R96); the address of a `readBuffer` is reduced as that of a write (log 23). -/
def Stmt.turns : Stmt → List Turn
  | .command i => [writeTurn .cmd 0 (encodeBytes i)]
  | .writeBuffer r off v => [writeTurn r off v]
  | .writeMsgLen v => [writeTurn .msgLen 0 (le32Bytes v)]
  | .writeScalar r v => [writeTurn r 0 (le64Bytes v)]
  | .readBuffer r off n => [.host (.read (BitVec.ofNat 16 (r.base + off)) n)]
  | .wait => [.wait]
  | .reset => [.host .reset]
  | .loadMsg v => [writeTurn .msg 0 v, writeTurn .msgLen 0 (le32Bytes (BitVec.ofNat 32 v.length))]
  | .runWait i => [writeTurn .cmd 0 (encodeBytes i), .wait]

/-- The turns of a whole script. DESIGN CHOICE (log 25): whether the sequencer steps between two statements is open (R19,
R301, U13), and here it does so inside WAIT alone, so a command that is followed by `RD` or `WR` without WAIT is still
running then. Every other order is a list of turns with `.sequencer` put where the sequencer steps (log 1). -/
def scriptTurns (p : List Stmt) : List Turn := p.flatMap Stmt.turns

end Sys2Proof.Machine
end

