-- ==== Sys2Proof/Safety.lean ====
section
/-! DEFINITION. The terms claims are stated in: runs and their ends (47_system_commands.md R246), what is written where,
what a command changes, the operand checks of every command as one table (60_exceptions.md R252, R260), and the
invariant that every step keeps. -/

namespace Sys2Proof

/-! The tables of the spec over all commands. -/

/-- Reads the message, so `MSGLEN > MSG_MAX` is MSGLEN_RANGE (R252, code 4). -/
def Instr.readsMessage : Instr → Bool
  | .sponge | .clmix | .hash | .verify => true
  | .nop | .aesrnd _ | .h256 | .h256k _ | .h512 | .h512k _ | .keygen | .final | .target | .search | .abort => false

/-- Generates the key stream, so `KEYBUF_LEN < 8832` is KEYBUF_TOO_SMALL (R252, code 1). -/
def Instr.makesKeys : Instr → Bool
  | .keygen | .final | .hash | .verify | .search => true
  | .nop | .aesrnd _ | .h256 | .h256k _ | .h512 | .h512k _ | .sponge | .clmix | .target | .abort => false

/-- The byte of `KB` one past the host's chosen window, 0 for a command without one (R252, code 2). -/
def Instr.windowEnd : Instr → Nat
  | .h256k w => 16 * w + 320
  | .h512k w => 16 * w + 640
  | .nop | .aesrnd _ | .h256 | .h512 | .sponge | .clmix | .keygen | .final | .hash | .target | .verify | .search
  | .abort => 0

/-- The bytes a command may write, as (host address, length): the right column of 10_state.md R45. -/
def Instr.writeRanges : Instr → List (Nat × Nat)
  | .nop | .abort => []
  | .aesrnd l => [(0x0080 + 16 * l.val, 16)]
  | .h256 | .h256k _ | .h512 | .h512k _ => [(0x00C0, 32)]
  | .sponge => [(0x0100, 64)]
  | .clmix => [(0x0010, 8)]
  | .keygen => [(0x1000, 8832)]
  | .final => [(0x1000, 8832), (0x0140, 32)]
  | .hash | .verify => [(0x0100, 64), (0x0010, 8), (0x1000, 8832), (0x0140, 32)]
  | .target => [(0x0160, 32)]
  | .search => [(0x4038, 8), (0x0020, 8), (0x0100, 64), (0x0010, 8), (0x1000, 8832), (0x0140, 32)]

end Sys2Proof

namespace Sys2Proof.Machine

/-! GF(2^8). -/

/-- The product in GF(2^8) modulo 0x11B, as a sum of `xtime` multiples (40_aes_round.md R121): the field in which the
closed form of R122 takes its inverse. -/
def gfMul (a b : Byte) : Byte :=
  (List.range 8).foldl (fun r j => if b.getLsbD j then r ^^^ xtime^[j] a else r) 0#8

/-! Runs. -/

/-- `k` steps, stopping where the machine stops. -/
def runSteps : Nat → State → Host.Outcome State Fault Refusal
  | 0, s => .next s
  | k + 1, s =>
    match step s with
    | .next t => runSteps k t
    | .fault f => .fault f
    | .refused r => .refused r

/-- The host has made its last move (R246): no turn is left but the sequencer's. A WAIT still reads `STATUS`, so it is a
move of the host (log 20). -/
def State.hostDone (s : State) : Bool := s.turns.all (fun a => decide (a = .sequencer))

/-- A run has ended: the host has made its last move and `BUSY` = 0 (R246). -/
def State.ended (s : State) : Bool := s.hostDone && !s.status.busy

/-- A run has ended well (R246). -/
def State.endedWell (s : State) : Bool := s.ended && !s.status.fault && s.status.done

/-- A run has ended in a fault, which is never a good end (R246). -/
def State.endedInFault (s : State) : Bool := s.ended && s.status.fault

/-- No command runs and no fault has been taken: the state a command is issued in (70_reset_and_hazards.md R303). -/
def State.Idle (s : State) : Prop := s.status.busy = false ∧ s.status.fault = false

/-- The command has been issued and not completed (R250). -/
def State.Running (s : State) (i : Instr) : Prop := s.status.busy = true ∧ s.pending = some i

/-! What memory holds. -/

/-- The bytes `bs` have been written at `a` and stand there. -/
def State.Holds (s : State) (a : Nat) (bs : List Byte) : Prop := ∀ k, k < bs.length → readCell s.mem (a + k) = bs[k]?

/-- The `n` bytes from `a` on have been written since reset (R44). -/
def State.Written (s : State) (a n : Nat) : Prop := ∀ k, k < n → (readCell s.mem (a + k)).isSome = true

/-- Every byte outside the ranges (start, length) reads in `t` as in `s`, unwritten bytes included. -/
def SameOutside (s t : State) (ranges : List (Nat × Nat)) : Prop :=
  ∀ a, (∀ r ∈ ranges, ¬ (r.1 ≤ a ∧ a < r.1 + r.2)) → readCell t.mem a = readCell s.mem a

/-- Nothing but memory, `STATUS`, `PENDING` and the read counter differs. -/
def SameRest (s t : State) : Prop := t.msgLen = s.msgLen ∧ t.cfg = s.cfg ∧ t.turns = s.turns ∧ t.bus = s.bus

/-! What becomes of a command. -/

/-- The common updates of a completion (60_exceptions.md R251): `PENDING` none, `BUSY` 0, `DONE` 1, every other flag
as before. -/
def Finished (s t : State) : Prop :=
  t.pending = none ∧ t.status = { s.status with busy := false, done := true }

/-- The command has been accepted (30_encoding.md R91 step 5): nothing written but `PENDING`, the flags, and `MSGLEN`
for SEARCH. -/
def Accepted (i : Instr) (s t : State) : Prop :=
  t.pending = some i ∧
  t.status = { s.status with busy := true, done := false, result := false, aborted := false, exh := false } ∧
  t.msgLen = (if i = .search then 64#32 else s.msgLen) ∧
  t.mem = s.mem ∧ t.cfg = s.cfg ∧ t.turns = s.turns ∧ t.bus = s.bus

/-- The fault has been taken (60_exceptions.md R259): `FAULT` 1, the first code, `BUSY` 0, `DONE` 0, `PENDING` none, no
buffer and nothing else written. -/
def TookFault (f : CoreFault) (s t : State) : Prop :=
  t.pending = none ∧
  t.status =
    { s.status with
      fault := true, busy := false, done := false
      fcode := if s.status.fcode = 0#8 then f.code else s.status.fcode } ∧
  t.mem = s.mem ∧ t.msgLen = s.msgLen ∧ t.cfg = s.cfg ∧ t.turns = s.turns

/-- The fault a command's issue raises, causes in the order of R260: MSGLEN_RANGE, KEYBUF_TOO_SMALL, WINDOW_OOB. -/
def operandFault (i : Instr) (s : State) : Option CoreFault :=
  if i.readsMessage = true ∧ s.cfg.msgMax < s.msgLen.toNat then some .msglenRange
  else if i.makesKeys = true ∧ s.cfg.keyBufLen < 8832 then some .keybufTooSmall
  else if s.cfg.keyBufLen < i.windowEnd then some .windowOob
  else none

/-- An access `[addr, addr+n)` that a range of the address map admits (20_memory.md R61, R62, R66): a register whole
and at its base, or a non-empty part of a buffer. -/
def AccessTo (c : Config) (r : Region) (addr n : Nat) : Prop :=
  if r.whole = true then addr = r.base ∧ n = r.size c
  else 1 ≤ n ∧ r.base ≤ addr ∧ addr + n ≤ r.base + r.size c

/-! The invariant. -/

/-- The address lies in one of the data buffers of the map (20_memory.md R63). -/
def inBuffer (c : Config) (a : Nat) : Prop :=
  ∃ r ∈ Region.all, r.isBuffer = true ∧ r.base ≤ a ∧ a < r.base + r.size c

/-- What holds of a state after any number of steps from reset, whatever the host does. -/
structure State.Inv (s : State) : Prop where
  /-- Memory keeps its canonical form. -/
  memWf : Memory.wf s.mem
  /-- Only bytes of data buffers are ever written (R63). -/
  memInBuffers : ∀ c ∈ s.mem, inBuffer s.cfg c.1
  /-- `PENDING` is none exactly when `BUSY` is 0 (R39, R91). -/
  busyPending : s.status.busy = s.pending.isSome
  /-- `BUSY` = 1 implies `DONE` = 0 and `FAULT` = 0 (R38), and the verdict flags are clear (R91). -/
  busyFlags : s.status.busy = true → s.status.done = false ∧ s.status.fault = false ∧ s.status.result = false ∧
    s.status.aborted = false ∧ s.status.exh = false
  /-- `FAULT` is 1 exactly when a code is recorded, and the code is one of R252. -/
  faultCode : s.status.fault = decide (s.status.fcode ≠ 0#8) ∧ s.status.fcode.toNat ≤ 6
  /-- In the fault state `DONE` is 0 (R259). -/
  faultDone : s.status.fault = true → s.status.done = false
  /-- A command ended in at most one way: found, aborted, exhausted (R226). -/
  oneEnding : ¬ (s.status.result = true ∧ s.status.aborted = true) ∧
    ¬ (s.status.result = true ∧ s.status.exh = true) ∧ ¬ (s.status.aborted = true ∧ s.status.exh = true)
  /-- The pending command was decoded from a word and passed its operand checks, which still pass (R91, R251); a
  running search has `MSGLEN` = 64 (R224). -/
  pendingChecked : ∀ i, s.pending = some i → i.wellFormed = true ∧ operandFault i s = none ∧
    (i = .search → s.msgLen = 64#32)

end Sys2Proof.Machine
end

