-- ==== Sys2Proof/Certificates/Slice0/Obligations.lean ====
section
/-! DEFINITION. The statements about the machine. Each docstring names the rule of the spec it formalises, or says what
of the model it rests on. `s.Running i`: command i has been issued and not completed; `s.Idle`: no command runs and no
fault has been taken. Two of the model's own choices stand in the statements: which agent moves next, and with which
host move, is the list `turns` of State (log 1), so a statement about a host move names that move as the first turn;
and `exec i s` is the issue of i where i does not run, its completion (one iteration of SEARCH) where it does (log 8). -/

open Sys2Proof Sys2Proof.Machine

/-! The command word. -/

/-- R90, R92, R93: the encoder's bytes decode to the command they were made from, every operand at every value, and a
word that decodes is the one word of its command. -/
def Obligations.DecodeAndEncodeAgree : Prop :=
  (∀ i : Instr, i.wellFormed = true → decode (encodeBytes i) = .ok i) ∧
  ∀ (w : BitVec 32) (i : Instr), decodeWord w = .ok i → i.wellFormed = true ∧ encode i = w

/-- R93: a word spells a command exactly when it matches the command's row of the opcode map, mask and match as the rule
prints them. -/
def Obligations.WordSpellsCommandIffRowMatches : Prop :=
  ∀ w : BitVec 32,
    (decodeWord w = .ok .nop ↔ w &&& 0xFFFFFFFF#32 = 0x00000000#32) ∧
    ((∃ l, decodeWord w = .ok (.aesrnd l)) ↔ w &&& 0xFFFFFCFF#32 = 0x00000001#32) ∧
    (decodeWord w = .ok .h256 ↔ w &&& 0xFFFFFFFF#32 = 0x00000002#32) ∧
    ((∃ v, decodeWord w = .ok (.h256k v)) ↔ w &&& 0x0000FFFF#32 = 0x00000003#32) ∧
    (decodeWord w = .ok .h512 ↔ w &&& 0xFFFFFFFF#32 = 0x00000004#32) ∧
    ((∃ v, decodeWord w = .ok (.h512k v)) ↔ w &&& 0x0000FFFF#32 = 0x00000005#32) ∧
    (decodeWord w = .ok .sponge ↔ w &&& 0xFFFFFFFF#32 = 0x00000006#32) ∧
    (decodeWord w = .ok .clmix ↔ w &&& 0xFFFFFFFF#32 = 0x00000007#32) ∧
    (decodeWord w = .ok .keygen ↔ w &&& 0xFFFFFFFF#32 = 0x00000008#32) ∧
    (decodeWord w = .ok .final ↔ w &&& 0xFFFFFFFF#32 = 0x00000009#32) ∧
    (decodeWord w = .ok .hash ↔ w &&& 0xFFFFFFFF#32 = 0x0000000A#32) ∧
    (decodeWord w = .ok .target ↔ w &&& 0xFFFFFFFF#32 = 0x0000000B#32) ∧
    (decodeWord w = .ok .verify ↔ w &&& 0xFFFFFFFF#32 = 0x0000000C#32) ∧
    (decodeWord w = .ok .search ↔ w &&& 0xFFFFFFFF#32 = 0x0000000D#32) ∧
    (decodeWord w = .ok .abort ↔ w &&& 0xFFFFFFFF#32 = 0x0000000E#32)

/-- R92: the operands are the fields `LANE` and `W` of the word as they stand, and a word with a non-zero reserved or
unused field spells no command. -/
def Obligations.OperandsAreTheWordsFields : Prop :=
  ∀ (w : BitVec 32) (i : Instr), decodeWord w = .ok i →
    (∀ l, i = .aesrnd l → l.val = w.toNat / 256 % 4) ∧
    (∀ v, i = .h256k v ∨ i = .h512k v → v = w.toNat / 65536 ∧ 16 * v ≤ 1048560) ∧
    w.toNat / 1024 % 64 = 0 ∧
    (w.toNat % 256 ≠ 0x01 → w.toNat / 256 % 4 = 0) ∧
    (w.toNat % 256 ≠ 0x03 → w.toNat % 256 ≠ 0x05 → w.toNat / 65536 = 0)

/-- R94: which words are illegal, that writing one to `CMD` raises ILLEGAL_CMD and executes nothing, and that a window
too large for the key buffer is legal as an encoding and faults with WINDOW_OOB (the write is the first turn, log 1). -/
def Obligations.IllegalWordsRaiseIllegalCmd : Prop :=
  (∀ w : BitVec 32, (∃ e, decodeWord w = .error e) ↔
    (0x0F ≤ w.toNat % 256 ∨ w.toNat / 1024 % 64 ≠ 0 ∨ (w.toNat / 256 % 4 ≠ 0 ∧ w.toNat % 256 ≠ 0x01) ∨
      (w.toNat / 65536 ≠ 0 ∧ w.toNat % 256 ≠ 0x03 ∧ w.toNat % 256 ≠ 0x05))) ∧
  (∀ (s : State) (w : BitVec 32) (e : DecodeError) (rest : List Turn), s.cfg.admitted = true → s.Idle →
    s.turns = .host (.write 0x0000#16 (le32Bytes w)) :: rest → decodeWord w = .error e →
    ∃ t, step s = .next t ∧ TookFault .illegalCmd { s with turns := rest } t) ∧
  (∀ (s : State) (w : Nat), w < 65536 → s.Idle → s.cfg.keyBufLen < 16 * w + 320 →
    decodeWord (encode (.h256k w)) = .ok (.h256k w) ∧
    ∃ t, exec (.h256k w) s = .next t ∧ TookFault .windowOob s t) ∧
  ∀ (s : State) (w : Nat), w < 65536 → s.Idle → s.cfg.keyBufLen < 16 * w + 640 →
    decodeWord (encode (.h512k w)) = .ok (.h512k w) ∧
    ∃ t, exec (.h512k w) s = .next t ∧ TookFault .windowOob s t

/-- R97: the worked encodings. -/
def Obligations.WorkedEncodingsDecode : Prop :=
  decode [0x01#8, 0x02#8, 0x00#8, 0x00#8] = .ok (.aesrnd 2) ∧ encode (.aesrnd 2) = 0x00000201#32 ∧
  decode [0x05#8, 0x00#8, 0x64#8, 0x00#8] = .ok (.h512k 100) ∧ encode (.h512k 100) = 0x00640005#32 ∧
  decode [0x0A#8, 0x00#8, 0x00#8, 0x00#8] = .ok .hash ∧ encode .hash = 0x0000000A#32 ∧
  decodeWord 0x0000010A#32 = .error .strayLane ∧
  decodeWord 0x02010005#32 = .ok (.h512k 513) ∧
  ∀ s : State, s.Idle → s.cfg.keyBufLen = 8832 → ∃ t, exec (.h512k 513) s = .next t ∧ TookFault .windowOob s t

/-! Steps. -/

/-- R91, R250: a step on the host's write of a command word in the idle state is the command itself (its issue), the
move taken off the list of turns (log 1, log 8). -/
def Obligations.CommandWordStepRunsTheCommand : Prop :=
  ∀ (s : State) (v : List Byte) (i : Instr) (rest : List Turn), s.cfg.admitted = true → s.Idle →
    s.turns = .host (.write 0x0000#16 v) :: rest → decode v = .ok i → step s = exec i { s with turns := rest }

/-- R251: a step of the sequencer, on its turn or when no move is left, is the pending command itself (its completion,
or an iteration of SEARCH) (log 1, log 7, log 8). -/
def Obligations.SequencerStepRunsThePendingCommand : Prop :=
  ∀ (s : State) (i : Instr), s.cfg.admitted = true → s.Running i →
    (s.turns = [] → step s = exec i s) ∧
    ∀ rest, s.turns = .sequencer :: rest → step s = exec i { s with turns := rest }

/-- The model's loader (log 8): after `withFetchWord` the very next step decodes the word and runs its command in the
idle machine that is otherwise `s`. -/
def Obligations.PlacedWordRunsNext : Prop :=
  ∀ (s : State) (nbits w : Nat) (i : Instr), s.cfg.admitted = true → decodeTableWord nbits w = some i →
    ∃ u, step (s.withFetchWord nbits w) = exec i u ∧ u.Idle ∧ u.pending = none ∧ u.mem = s.mem ∧
      u.msgLen = s.msgLen ∧ u.cfg = s.cfg ∧ u.turns = s.turns

/-- R246: once the host has made its last move, a state with `BUSY` = 1 is not final, the sequencer can always take its
step, and with it a command other than SEARCH, and so the run, ends well; a run that has ended stays where it ended, with
`DONE` = 1 and `FAULT` = 0 if it ended well, and never well if it ended in a fault. No host move is left when no turn is, or
the sequencer's alone (log 1, log 7). -/
def Obligations.BusyIsNeverStuck : Prop :=
  (∀ s : State, s.Inv → s.cfg.admitted = true → (∀ a ∈ s.turns, a = .sequencer) → s.status.busy = true →
    s.ended = false ∧ ∃ i t, s.pending = some i ∧ step s = .next t ∧ t.hostDone = true ∧
      (i ≠ .search → t.status.busy = false ∧ t.status.done = true ∧ t.pending = none ∧ t.endedWell = true)) ∧
  (∀ s : State, s.cfg.admitted = true → (∀ a ∈ s.turns, a = .sequencer) → s.status.busy = false →
    s.ended = true ∧ s.endedWell = (!s.status.fault && s.status.done) ∧ s.endedInFault = s.status.fault ∧
    ∃ t, step s = .next t ∧ t.ended = true ∧ t.status = s.status ∧ t.pending = s.pending ∧ t.mem = s.mem ∧
      t.msgLen = s.msgLen ∧ t.cfg = s.cfg) ∧
  ∀ s : State, s.endedInFault = true → s.endedWell = false

/-- R27, R28, R73: no step changes the tables, the keys or the sizes, which State holds as `cfg` (log 4, log 5). -/
def Obligations.NoStepChangesTheTables : Prop :=
  ∀ s t : State, step s = .next t → t.cfg = s.cfg

/-! Reset and the invariant. -/

/-- R290: reset from any state, and that nothing else leaves the fault state. Asserting reset is a turn (log 1), and the
turns still to come stand as they are (log 18). -/
def Obligations.ResetClearsStatusPendingAndBuffers : Prop :=
  (∀ (s : State) (rest : List Turn), s.cfg.admitted = true → s.turns = .host .reset :: rest →
    ∃ t, step s = .next t ∧ t.status = ⟨false, false, false, false, false, false, 0#8⟩ ∧ t.pending = none ∧
      t.msgLen = 0#32 ∧ (∀ a, readCell t.mem a = none) ∧ t.cfg = s.cfg ∧ t.turns = rest) ∧
  ∀ s t : State, s.Inv → s.status.fault = true → s.turns.head? ≠ some (.host .reset) → step s = .next t →
    t.status.fault = true

/-- R43, R291: what the spec says the machine holds right after reset. That the unspecified contents are held as nothing
listed is log 3; which well-formed configuration the state has is log 4, log 5 and log 6. -/
def Obligations.StateAfterReset : Prop :=
  State.reset.status.toWord = 0x00000000#32 ∧ State.reset.pending = none ∧ State.reset.msgLen = 0#32 ∧
  (∀ a, readCell State.reset.mem a = none) ∧ State.reset.cfg.wellFormed = true

/-- The invariant `State.Inv` (the model's, Safety.lean) holds at reset. -/
def Obligations.InvariantHoldsAtReset : Prop := State.reset.Inv

/-- R37 to R39, R91, R251, R259: every step, of the host or of the sequencer, keeps the invariant: memory canonical and
only inside data buffers, `PENDING` and `BUSY` in step, `BUSY` = 1 with all other flags 0, `FAULT` with a code, at most
one way to have ended, and the pending command's operand checks still passed. The invariant is the model's reading of
these rules; the kinds of step are the turns of log 1. -/
def Obligations.EveryStepKeepsTheInvariant : Prop :=
  ∀ s t : State, s.Inv → step s = .next t → t.Inv

/-! Issue and faults. -/

/-- R91: the write of a command word (the first turn, log 1), case by case. That the ABORT word changes nothing where an
ABORT is pending, a case of the clause on a pending command other than SEARCH, is log 21. -/
def Obligations.CommandWriteIssues : Prop :=
  ∀ (s s0 : State) (v : List Byte) (rest : List Turn), s.cfg.admitted = true →
    s.turns = .host (.write 0x0000#16 v) :: rest → v.length = 4 → s0 = { s with turns := rest } →
    (s.status.fault = true → step s = .next s0) ∧
    (s.status.fault = false → s.status.busy = true → le32 v ≠ 0x0000000E#32 →
      ∃ t, step s = .next t ∧ TookFault .busyAccess s0 t) ∧
    (s.status.fault = false → s.status.busy = true → le32 v = 0x0000000E#32 → s.pending = some .search →
      ∃ t, step s = .next t ∧ t.pending = none ∧ t.mem = s.mem ∧ SameRest s0 t ∧
        t.status = { s.status with busy := false, done := true, aborted := true, result := false }) ∧
    (s.status.fault = false → s.status.busy = true → le32 v = 0x0000000E#32 → s.pending ≠ some .search →
      step s = .next s0) ∧
    (s.Idle → ∀ e, decodeWord (le32 v) = .error e → ∃ t, step s = .next t ∧ TookFault .illegalCmd s0 t) ∧
    (s.Idle → ∀ i f, decodeWord (le32 v) = .ok i → operandFault i s = some f →
      ∃ t, step s = .next t ∧ TookFault f s0 t) ∧
    (s.Idle → ∀ i, decodeWord (le32 v) = .ok i → operandFault i s = none →
      ∃ t, step s = .next t ∧ Accepted i s0 t)

/-- R252, R260, R91: in the idle state every command is accepted if its operand checks pass, with no data buffer
written, and raises the first cause otherwise, in the order MSGLEN_RANGE, KEYBUF_TOO_SMALL, WINDOW_OOB. -/
def Obligations.IdleCommandIsAcceptedOrFaults : Prop :=
  ∀ (i : Instr) (s : State), s.Idle →
    (operandFault i s = none → ∃ t, exec i s = .next t ∧ Accepted i s t) ∧
    ∀ f, operandFault i s = some f → ∃ t, exec i s = .next t ∧ TookFault f s t ∧ t.bus = s.bus

/-- R150: the window fault of H256K and H512K, the ranges of w that are legal, and that the finalizer's own windows start
in the first 8192 bytes, which the legal ones need not. -/
def Obligations.WindowFaultOfKeyedHaraka : Prop :=
  ∀ (s : State) (w : Nat), s.Idle →
    (s.cfg.keyBufLen < 16 * w + 16 * 20 → ∃ t, exec (.h256k w) s = .next t ∧ TookFault .windowOob s t) ∧
    (s.cfg.keyBufLen < 16 * w + 16 * 40 → ∃ t, exec (.h512k w) s = .next t ∧ TookFault .windowOob s t) ∧
    (s.cfg.keyBufLen = 8832 → w ≤ 532 → ∃ t, exec (.h256k w) s = .next t ∧ Accepted (.h256k w) s t) ∧
    (s.cfg.keyBufLen = 8832 → w ≤ 512 → ∃ t, exec (.h512k w) s = .next t ∧ Accepted (.h512k w) s t) ∧
    (16 * w + 16 * 20 ≤ s.cfg.keyBufLen → ∃ t, exec (.h256k w) s = .next t ∧ Accepted (.h256k w) s t) ∧
    (16 * w + 16 * 40 ≤ s.cfg.keyBufLen → ∃ t, exec (.h512k w) s = .next t ∧ Accepted (.h512k w) s t) ∧
    ∀ mix : Word64, 16 * windowIndex mix < 8192

/-- R253: KEYBUF_TOO_SMALL is raised by every command that generates the key stream on a mis-configured instance, and
never with `KEYBUF_LEN` = 8832. A smaller `KEYBUF_LEN` is a machine of this model by log 6. -/
def Obligations.KeyBufferTooSmallDependsOnConfigurationOnly : Prop :=
  (∀ (i : Instr) (s : State), i ∈ [Instr.keygen, .final, .hash, .verify, .search] → s.Idle →
    s.cfg.keyBufLen < 8832 → (i.readsMessage = true → s.msgLen.toNat ≤ s.cfg.msgMax) →
    ∃ t, exec i s = .next t ∧ TookFault .keybufTooSmall s t) ∧
  ∀ s t : State, s.Inv → s.cfg.keyBufLen = 8832 → s.status.fcode ≠ 1#8 → step s = .next t → t.status.fcode ≠ 1#8

/-- R251, R254, R258: a completion, or an iteration of SEARCH, raises nothing and sets no fault bit; a command other
than SEARCH is then over. -/
def Obligations.CompletionRaisesNothing : Prop :=
  ∀ (i : Instr) (s t : State), s.Running i → exec i s = .next t →
    t.status.fault = s.status.fault ∧ t.status.fcode = s.status.fcode ∧
    (i ≠ .search → t.pending = none ∧ t.status.busy = false ∧ t.status.done = true)

/-- R260, R261: in the fault state nothing the host writes and no sequencer turn changes the CORE, for as long as reset
is not asserted; the first code stays. The moves are the turns (log 1). -/
def Obligations.FaultStateIsTerminal : Prop :=
  ∀ (k : Nat) (s t : State), s.Inv → s.status.fault = true → Turn.host .reset ∉ s.turns → runSteps k s = .next t →
    t.status = s.status ∧ t.mem = s.mem ∧ t.msgLen = s.msgLen ∧ t.pending = s.pending ∧ t.cfg = s.cfg

/-! Host accesses. -/

/-- R61: HostRead. Contents of a register are its little-endian bytes, contents of a buffer the written bytes in index
order; an illegal read and a barred one return zeros and take their fault. The read is the first turn (log 1), what it
returned stands in `bus` (log 2). -/
def Obligations.HostReadReturnsContentsOrFaults : Prop :=
  ∀ (s s0 : State) (addr : BitVec 16) (n : Nat) (rest : List Turn), s.cfg.admitted = true →
    s.turns = .host (.read addr n) :: rest → s0 = { s with turns := rest } →
    (∀ r : Region, r.readable = true → AccessTo s.cfg r addr.toNat n →
      (s.status.fault = true ∨ s.status.busy = false ∨ r = .status) →
      ∃ t, step s = .next t ∧ t.mem = s.mem ∧ t.msgLen = s.msgLen ∧ t.status = s.status ∧ t.pending = s.pending ∧
        t.cfg = s.cfg ∧ t.turns = rest ∧ t.bus.length = n ∧
        (r = .status → t.bus = le32Bytes s.status.toWord) ∧
        (r = .msgLen → t.bus = le32Bytes s.msgLen) ∧
        (r.isBuffer = true → ∀ k b, k < n → readCell s.mem (addr.toNat + k) = some b → t.bus[k]? = some b)) ∧
    (∀ r : Region, r.readable = true → AccessTo s.cfg r addr.toNat n → r ≠ .status → s.status.fault = false →
      s.status.busy = true → ∃ t, step s = .next t ∧ t.bus = zeros n ∧ TookFault .busyAccess s0 t) ∧
    ((∀ r : Region, r.readable = true → ¬ AccessTo s.cfg r addr.toNat n) → s.status.fault = false →
      ∃ t, step s = .next t ∧ t.bus = zeros n ∧ TookFault .badAccess s0 t)

/-- R62: HostWrite, the first turn (log 1); the issue of a command is R91's. -/
def Obligations.HostWriteStoresOrFaults : Prop :=
  ∀ (s s0 : State) (addr : BitVec 16) (v : List Byte) (rest : List Turn), s.cfg.admitted = true →
    s.turns = .host (.write addr v) :: rest → s0 = { s with turns := rest } →
    (s.status.fault = true → step s = .next s0) ∧
    ((∀ r : Region, r.writable = true → ¬ AccessTo s.cfg r addr.toNat v.length) → s.status.fault = false →
      ∃ t, step s = .next t ∧ TookFault .badAccess s0 t ∧ t.bus = s.bus) ∧
    (∀ r : Region, r.writable = true → AccessTo s.cfg r addr.toNat v.length → s.status.fault = false →
      s.status.busy = true → (r = .cmd → le32 v ≠ 0x0000000E#32) →
      ∃ t, step s = .next t ∧ TookFault .busyAccess s0 t ∧ t.bus = s.bus) ∧
    (∀ r : Region, r.writable = true → AccessTo s.cfg r addr.toNat v.length → s.Idle → r ≠ .cmd →
      ∃ t, step s = .next t ∧ t.status = s.status ∧ t.pending = s.pending ∧ t.cfg = s.cfg ∧ t.turns = rest ∧
        t.bus = s.bus ∧
        (r = .msgLen → t.msgLen = le32 v ∧ t.mem = s.mem) ∧
        (r.isBuffer = true → t.msgLen = s.msgLen ∧ t.Holds addr.toNat v ∧
          SameOutside s t [(addr.toNat, v.length)]) ∧
        (r = .mix → t.mix = le64 v) ∧ (r = .diff → t.diff = le64 v) ∧ (r = .nonce → t.nonce = le64 v))

/-- R63, R66: an access falls into at most one range of the map, inside the 16-bit space. -/
def Obligations.AddressMapRangesAreDisjoint : Prop :=
  ∀ (c : Config) (r r' : Region) (addr n addr' n' a : Nat), c.admitted = true →
    AccessTo c r addr n → AccessTo c r' addr' n' →
    addr + n ≤ 0x10000 ∧ (addr ≤ a → a < addr + n → addr' ≤ a → a < addr' + n' → r = r')

/-- R64: the registers on the bus are little-endian (host moves as turns, log 1; bytes read in `bus`, log 2; `MIX`, `DIFF`
and `NONCE` held as their bytes, log 12). -/
def Obligations.RegistersAreLittleEndianOnTheBus : Prop :=
  ∀ (s : State) (rest : List Turn), s.cfg.admitted = true → s.Idle →
    (∀ v, s.turns = .host (.write 0x0010#16 (le64Bytes v)) :: rest →
      ∃ t, step s = .next t ∧ t.mix = v ∧ readCell t.mem 0x0010 = some (v.extractLsb' 0 8)) ∧
    (∀ v, s.turns = .host (.write 0x0018#16 (le64Bytes v)) :: rest →
      ∃ t, step s = .next t ∧ t.diff = v ∧ readCell t.mem 0x0018 = some (v.extractLsb' 0 8)) ∧
    (∀ v, s.turns = .host (.write 0x0020#16 (le64Bytes v)) :: rest →
      ∃ t, step s = .next t ∧ t.nonce = v ∧ readCell t.mem 0x0020 = some (v.extractLsb' 0 8)) ∧
    (∀ v, s.turns = .host (.write 0x0008#16 (le32Bytes v)) :: rest → ∃ t, step s = .next t ∧ t.msgLen = v) ∧
    (s.turns = .host (.read 0x0008#16 4) :: rest →
      ∃ t, step s = .next t ∧ t.bus[0]? = some (s.msgLen.extractLsb' 0 8) ∧ le32 t.bus = s.msgLen) ∧
    (s.turns = .host (.read 0x0004#16 4) :: rest →
      ∃ t, step s = .next t ∧ t.bus[0]? = some (s.status.toWord.extractLsb' 0 8) ∧ le32 t.bus = s.status.toWord)

/-- R37, U9: where the fields stand in the word `STATUS`, and that its other bits are 0. -/
def Obligations.StatusWordLayout : Prop :=
  ∀ t : Status,
    t.toWord.getLsbD 0 = t.busy ∧ t.toWord.getLsbD 1 = t.done ∧ t.toWord.getLsbD 2 = t.fault ∧
    t.toWord.getLsbD 3 = t.result ∧ t.toWord.getLsbD 4 = t.aborted ∧ t.toWord.getLsbD 5 = t.exh ∧
    t.toWord.extractLsb' 6 2 = 0#2 ∧ t.toWord.extractLsb' 8 8 = t.fcode ∧ t.toWord.extractLsb' 16 16 = 0#16

/-! The AES round. -/

/-- R122: `SBOX` is a permutation with no fixed point, and each entry has the closed form of the rule. -/
def Obligations.SboxHasItsClosedForm : Prop :=
  Function.Bijective sbox ∧ (∀ x, sbox x ≠ x) ∧ sbox 0#8 = 0x63#8 ∧
  ∀ x : Byte, x ≠ 0#8 → ∃ b, gfMul x b = 1#8 ∧
    sbox x = b ^^^ b.rotateLeft 1 ^^^ b.rotateLeft 2 ^^^ b.rotateLeft 3 ^^^ b.rotateLeft 4 ^^^ 0x63#8

/-- R124: the byte of row r in column c comes from column (c + r) mod 4; the index list `SR`. -/
def Obligations.ShiftRowsMovesRowsLeft : Prop :=
  (∀ (s : Lane) (r c : Nat), r < 4 → c < 4 →
    (shiftRows s).bytes[4 * c + r]? = s.bytes[4 * ((c + r) % 4) + r]?) ∧
  ∀ (s : Lane) (i : Nat), i < 16 →
    (shiftRows s).bytes[i]? = s.bytes[[0, 5, 10, 15, 4, 9, 14, 3, 8, 13, 2, 7, 12, 1, 6, 11].getD i 0]?

/-- R128: the four facts about the round. -/
def Obligations.AesRoundFacts : Prop :=
  (∀ s, subBytes (shiftRows s) = shiftRows (subBytes s)) ∧
  (∀ rk, Function.Bijective (fun s => aesRound s rk)) ∧
  (∀ s rk, aesRound s rk = (aesRound s (Lane.fill 0)).xor rk) ∧
  ∀ v, aesRound (Lane.fill v) (Lane.fill 0) = Lane.fill (sbox v)

/-- R129: AESRND l. Its word, its issue without a fault of its own, its completion: the lane of `P` in place, every
other byte, register and flag as before. -/
def Obligations.AesrndTransformsItsLane : Prop :=
  ∀ l : Fin 4,
    decodeWord (BitVec.ofNat 32 (0x01 + 256 * l.val)) = .ok (.aesrnd l) ∧
    (∀ s : State, s.Idle → ∃ t, exec (.aesrnd l) s = .next t ∧ Accepted (.aesrnd l) s t) ∧
    ∀ s : State, s.Running (.aesrnd l) →
      ∃ t, exec (.aesrnd l) s = .next t ∧ Finished s t ∧ SameRest s t ∧
        t.Holds (0x0080 + 16 * l.val)
          (aesRound (Lane.ofBytes (s.bytesAt (0x0080 + 16 * l.val) 16)) (Lane.ofBytes (s.bytesAt 0x0040 16))).bytes ∧
        SameOutside s t [(0x0080 + 16 * l.val, 16)]

/-! Haraka. -/

/-- R142, R143: the word maps of the lane shuffles. R125: the rows of the column mix, a product by 2 or 3 being that of the
field of R121. R120, R123, R124, R126, R127: the four steps of the round in their order, and what they leave in each
byte. -/
def Obligations.LaneShufflesFollowTheirMaps : Prop :=
  (∀ (x : Block32) (j : Nat), j < 32 →
    (mix2 x).bytes[j]? = x.bytes[[0, 1, 2, 3, 16, 17, 18, 19, 4, 5, 6, 7, 20, 21, 22, 23, 8, 9, 10, 11, 24, 25, 26, 27,
      12, 13, 14, 15, 28, 29, 30, 31].getD j 0]?) ∧
  (∀ (x : Block64) (j k : Nat), j < 16 → k < 4 →
    (mix4 x).bytes[4 * j + k]? =
      x.bytes[4 * [3, 11, 7, 15, 8, 0, 12, 4, 9, 1, 13, 5, 2, 10, 6, 14].getD j 0 + k]?) ∧
  (∀ (s : Lane) (a : Nat → Byte) (c r : Nat), c < 4 → r < 4 → (∀ j, j < 4 → s.bytes[4 * c + j]? = some (a j)) →
    (mixColumns s).bytes[4 * c + r]? =
      some (gfMul 2#8 (a r) ^^^ gfMul 3#8 (a ((r + 1) % 4)) ^^^ a ((r + 2) % 4) ^^^ a ((r + 3) % 4))) ∧
  (∀ s rk : Lane, aesRound s rk = addRoundKey (mixColumns (shiftRows (subBytes s))) rk) ∧
  ∀ (s rk : Lane) (a : Nat → Byte) (k : Byte) (c r : Nat), c < 4 → r < 4 →
    (∀ j, j < 4 → s.bytes[4 * ((c + j) % 4) + j]? = some (a j)) → rk.bytes[4 * c + r]? = some k →
    (aesRound s rk).bytes[4 * c + r]? =
      some (gfMul 2#8 (sbox (a r)) ^^^ gfMul 3#8 (sbox (a ((r + 1) % 4))) ^^^ sbox (a ((r + 2) % 4)) ^^^
        sbox (a ((r + 3) % 4)) ^^^ k)

/-- R148 (a): both permutations are bijections for every window. -/
def Obligations.HarakaPermutationsAreBijective : Prop :=
  ∀ C : List Lane, Function.Bijective (fun x => perm256 x C) ∧ Function.Bijective (fun x => perm512 x C)

/-- R149, R151 to R154: each Haraka command, running, writes its result to `Y` and nothing else; the window of the keyed
ones is the slice of `KB` that R140 names. What the result is: R141, R144, R146, five rounds, in round r two AES rounds a
lane with the constants `C[4r + 2p + l]` or `C[8r + 4p + l]` and then the shuffle; R145, R147, the input added, and for
the 512-bit form the bytes 8..15, 24..31, 32..39, 48..55 of the sum. -/
def Obligations.HarakaCommandsWriteTheirResult : Prop :=
  (∀ s : State, s.Running .h256 → ∃ t, exec .h256 s = .next t ∧ Finished s t ∧ SameRest s t ∧
    t.Holds 0x00C0 (haraka256 (Block32.ofBytes (s.bytesAt 0x0080 32)) (s.cfg.rc.take 20)).bytes ∧
    SameOutside s t [(0x00C0, 32)]) ∧
  (∀ (s : State) (w : Nat), s.Running (.h256k w) → 16 * w + 320 ≤ 8832 →
    ∃ t, exec (.h256k w) s = .next t ∧ Finished s t ∧ SameRest s t ∧
      t.Holds 0x00C0 (haraka256 (Block32.ofBytes (s.bytesAt 0x0080 32)) (window (s.bytesAt 0x1000 8832) w 20)).bytes ∧
      SameOutside s t [(0x00C0, 32)]) ∧
  (∀ s : State, s.Running .h512 → ∃ t, exec .h512 s = .next t ∧ Finished s t ∧ SameRest s t ∧
    t.Holds 0x00C0 (haraka512 (Block64.ofBytes (s.bytesAt 0x0080 64)) (s.cfg.rc.take 40)).bytes ∧
    SameOutside s t [(0x00C0, 32)]) ∧
  (∀ (s : State) (w : Nat), s.Running (.h512k w) → 16 * w + 640 ≤ 8832 →
    ∃ t, exec (.h512k w) s = .next t ∧ Finished s t ∧ SameRest s t ∧
      t.Holds 0x00C0 (haraka512 (Block64.ofBytes (s.bytesAt 0x0080 64)) (window (s.bytesAt 0x1000 8832) w 40)).bytes ∧
      SameOutside s t [(0x00C0, 32)]) ∧
  (∀ (x : Block32) (C : List Lane) (k : Nat → Lane), (∀ j, j < 20 → C[j]? = some (k j)) →
    perm256 x C = (List.range 5).foldl (fun y r => mix2
      ⟨aesRound (aesRound y.l0 (k (4 * r))) (k (4 * r + 2)),
       aesRound (aesRound y.l1 (k (4 * r + 1))) (k (4 * r + 3))⟩) x) ∧
  (∀ (x : Block64) (C : List Lane) (k : Nat → Lane), (∀ j, j < 40 → C[j]? = some (k j)) →
    perm512 x C = (List.range 5).foldl (fun y r => mix4
      ⟨aesRound (aesRound y.l0 (k (8 * r))) (k (8 * r + 4)),
       aesRound (aesRound y.l1 (k (8 * r + 1))) (k (8 * r + 5)),
       aesRound (aesRound y.l2 (k (8 * r + 2))) (k (8 * r + 6)),
       aesRound (aesRound y.l3 (k (8 * r + 3))) (k (8 * r + 7))⟩) x) ∧
  (∀ (x : Block32) (C : List Lane) (j : Nat) (a b : Byte), j < 32 → (perm256 x C).bytes[j]? = some a →
    x.bytes[j]? = some b → (haraka256 x C).bytes[j]? = some (a ^^^ b)) ∧
  ∀ (x : Block64) (C : List Lane) (j m : Nat) (a b : Byte), j < 32 → m = [8, 24, 32, 48].getD (j / 8) 0 + j % 8 →
    (perm512 x C).bytes[m]? = some a → x.bytes[m]? = some b → (haraka512 x C).bytes[j]? = some (a ^^^ b)

/-! The sponge. -/

/-- R172: after every loop round, and so in the returned value, bytes 0..31 are the latest permutation output and bytes
32..63 are zero. -/
def Obligations.SpongeSecondHalfIsZero : Prop :=
  (∀ (rc : List Lane) (st : Block64) (chunk : Block32),
    (absorb rc st chunk).bytes =
      (haraka512 ⟨st.l0, st.l1, st.l2.xor chunk.l0, st.l3.xor chunk.l1⟩ (rc.take 40)).bytes ++ zeros 32) ∧
  ∀ (rc : List Lane) (m : List Byte), (sponge rc m).bytes.drop 32 = zeros 32

/-- R170, R171: the sponge as a chain, one Haraka-512 a chunk: the last chunk of a message of more than 32 bytes meets
the sponge of what stands before it, and a message of at most 32 bytes is one zero-padded chunk. -/
def Obligations.SpongeAbsorbsChunkByChunk : Prop :=
  ∀ (rc : List Lane) (a b : List Byte), b.length ≤ 32 →
    sponge rc b = absorb rc (Block64.fill 0) (Block32.ofBytes (b ++ zeros (32 - b.length))) ∧
    (b ≠ [] → a ≠ [] → a.length % 32 = 0 →
      sponge rc (a ++ b) = absorb rc (sponge rc a) (Block32.ofBytes (b ++ zeros (32 - b.length))))

/-- R173 (a), and what follows for the whole hash (95_test_vectors.md P5): trailing zero bytes inside the last chunk
cannot be told from the padding. -/
def Obligations.TrailingZerosAreInvisible : Prop :=
  ∀ (c : Config) (m : List Byte) (k : Nat),
    (1 ≤ m.length ∧ (m.length + 31) / 32 = (m.length + k + 31) / 32) ∨ (m = [] ∧ k ≤ 32) →
    sponge c.rc (m ++ zeros k) = sponge c.rc m ∧ hash c (m ++ zeros k) = hash c m

/-- R174: SPONGE. -/
def Obligations.SpongeCommandWritesS : Prop :=
  decodeWord 0x00000006#32 = .ok .sponge ∧
  (∀ s : State, s.Idle →
    (s.msgLen.toNat ≤ s.cfg.msgMax → ∃ t, exec .sponge s = .next t ∧ Accepted .sponge s t) ∧
    (s.cfg.msgMax < s.msgLen.toNat → ∃ t, exec .sponge s = .next t ∧ TookFault .msglenRange s t)) ∧
  ∀ s : State, s.Running .sponge → ∃ t, exec .sponge s = .next t ∧ Finished s t ∧ SameRest s t ∧
    t.Holds 0x0100 (sponge s.cfg.rc (s.bytesAt 0x4000 s.msgLen.toNat)).bytes ∧ SameOutside s t [(0x0100, 64)]

/-! The mixer. -/

/-- R180: bit k of the product is the exclusive-or over i + j = k of bit i of a and bit j of b; bits from 64 on are
gone. -/
def Obligations.ClmulBitsAreGf2Coefficients : Prop :=
  ∀ (a b : Word64) (k : Nat), k < 64 →
    (clmul64 a b).getLsbD k =
      decide (((List.range (k + 1)).filter (fun i => a.getLsbD i && b.getLsbD (k - i))).length % 2 = 1)

/-- R181: the laws of the multiplier. -/
def Obligations.ClmulLaws : Prop :=
  (∀ a b, clmul64 a b = clmul64 b a) ∧
  (∀ a, clmul64 a 0#64 = 0#64) ∧
  (∀ a, clmul64 a 1#64 = a) ∧
  (∀ (a : Word64) (j : Nat), j < 64 → clmul64 a (1#64 <<< j) = a <<< j) ∧
  (∀ a a' b, clmul64 (a ^^^ a') b = clmul64 a b ^^^ clmul64 a' b) ∧
  (∀ a b b', clmul64 a (b ^^^ b') = clmul64 a b ^^^ clmul64 a b') ∧
  clmul64 3#64 3#64 = 5#64 ∧ clmul64 2#64 0x8000000000000001#64 = 2#64 ∧
  clmul64 0xFFFFFFFFFFFFFFFF#64 0xFFFFFFFFFFFFFFFF#64 = 0x5555555555555555#64 ∧
  clmul64 0x8000000000000000#64 2#64 = 0#64

/-- R184: after a sponge the upper four lanes see the key alone; a message whose first 64 bytes are zero mixes to 0; only
the first 64 bytes enter. -/
def Obligations.ClmixConsequences : Prop :=
  (∀ (kEven kOdd : Word64) (m : List Byte) (rc : List Lane) (m' : List Byte),
    clmix kEven kOdd m (sponge rc m').bytes =
      (List.range 4).foldl (fun acc i => acc ^^^
        clmul64 (laneKey kEven kOdd i ^^^ lane64 (sponge rc m').bytes i) (lane64 (msgBlock m) i)) 0#64
      ^^^ clmul64 kEven (lane64 (msgBlock m) 4) ^^^ clmul64 kOdd (lane64 (msgBlock m) 5)
      ^^^ clmul64 kEven (lane64 (msgBlock m) 6) ^^^ clmul64 kOdd (lane64 (msgBlock m) 7)) ∧
  (∀ (kEven kOdd : Word64) (m ps : List Byte), (∀ b ∈ m.take 64, b = 0#8) → clmix kEven kOdd m ps = 0#64) ∧
  ∀ (kEven kOdd : Word64) (m m' ps : List Byte), m.take 64 = m'.take 64 →
    clmix kEven kOdd m ps = clmix kEven kOdd m' ps

/-- R185: CLMIX. -/
def Obligations.ClmixCommandWritesMix : Prop :=
  decodeWord 0x00000007#32 = .ok .clmix ∧
  (∀ s : State, s.Idle →
    (s.msgLen.toNat ≤ s.cfg.msgMax → ∃ t, exec .clmix s = .next t ∧ Accepted .clmix s t) ∧
    (s.cfg.msgMax < s.msgLen.toNat → ∃ t, exec .clmix s = .next t ∧ TookFault .msglenRange s t)) ∧
  ∀ s : State, s.Running .clmix → ∃ t, exec .clmix s = .next t ∧ Finished s t ∧ SameRest s t ∧
    t.mix = clmix s.cfg.kEven s.cfg.kOdd (s.bytesAt 0x4000 s.msgLen.toNat) (s.bytesAt 0x0100 64) ∧
    t.Holds 0x0010
      (le64Bytes (clmix s.cfg.kEven s.cfg.kOdd (s.bytesAt 0x4000 s.msgLen.toNat) (s.bytesAt 0x0100 64))) ∧
    SameOutside s t [(0x0010, 8)]

/-! The key stream and the finalizer. -/

/-- R190: byte j of block k of the key stream is byte j of the (k+1)-fold Haraka-256 of the seed, the last block cut to
what is left. That this holds of lengths below 8832 too, where R192 leaves the function undefined, is the model's choice
(log 24). -/
def Obligations.KeyStreamIsTheHarakaChain : Prop :=
  ∀ (rc : List Lane) (seed : Block32) (n : Nat),
    (expandKey rc seed n).length = n ∧
    ∀ k j, j < 32 → 32 * k + j < n →
      (expandKey rc seed n)[32 * k + j]? = ((fun x => haraka256 x (rc.take 20))^[k + 1] seed).bytes[j]?

/-- R194: KEYGEN. -/
def Obligations.KeygenCommandFillsKB : Prop :=
  decodeWord 0x00000008#32 = .ok .keygen ∧
  (∀ s : State, s.Idle →
    (8832 ≤ s.cfg.keyBufLen → ∃ t, exec .keygen s = .next t ∧ Accepted .keygen s t) ∧
    (s.cfg.keyBufLen < 8832 → ∃ t, exec .keygen s = .next t ∧ TookFault .keybufTooSmall s t)) ∧
  ∀ s : State, s.Running .keygen → ∃ t, exec .keygen s = .next t ∧ Finished s t ∧ SameRest s t ∧
    t.Holds 0x1000 (expandKey s.cfg.rc (Block32.ofBytes (s.bytesAt 0x0100 32)) 8832) ∧
    SameOutside s t [(0x1000, 8832)]

/-- R201, R202: the window index is the low 9 bits of mix, its offset at most 8176, its window always inside the key
buffer and inside the first 8192 bytes exactly up to index 472. -/
def Obligations.FinalizerWindowStaysInside : Prop :=
  ∀ mix : Word64, windowIndex mix = mix.toNat % 512 ∧ 16 * windowIndex mix ≤ 8176 ∧
    16 * windowIndex mix + 640 ≤ 8816 ∧ (16 * windowIndex mix + 640 ≤ 8192 ↔ windowIndex mix ≤ 472)

/-- R207: FINAL. Where a byte of `S` or `MIX` is unwritten, that the seed and the final state, or the final state and the
window, see the same value of it is the model's choice (log 3). -/
def Obligations.FinalCommandWritesKBAndDigest : Prop :=
  decodeWord 0x00000009#32 = .ok .final ∧
  (∀ s : State, s.Idle →
    (8832 ≤ s.cfg.keyBufLen → ∃ t, exec .final s = .next t ∧ Accepted .final s t) ∧
    (s.cfg.keyBufLen < 8832 → ∃ t, exec .final s = .next t ∧ TookFault .keybufTooSmall s t)) ∧
  ∀ (s : State) (kb : List Byte), s.Running .final →
    kb = expandKey s.cfg.rc (Block32.ofBytes (s.bytesAt 0x0100 32)) 8832 →
    ∃ t, exec .final s = .next t ∧ Finished s t ∧ SameRest s t ∧ t.Holds 0x1000 kb ∧
      t.Holds 0x0140
        (haraka512 (Block64.ofBytes (s.bytesAt 0x0100 32 ++ le64Bytes s.mix ++ zeros 24))
          (window kb (s.mix.toNat % 512) 40)).bytes ∧
      SameOutside s t [(0x1000, 8832), (0x0140, 32)]

/-- R203, 95_test_vectors.md P2: the finalizer by hand. If `KB` holds the key stream of `S[0..32)` and `P` the final
state, H512K at the window that `MIX` selects leaves in `Y` what FINAL leaves in `DIGEST`. -/
def Obligations.FinalizerByHandGivesTheDigest : Prop :=
  ∀ s s' t t' : State, ∀ ps : List Byte, ∀ mix : Word64, ps.length = 32 →
    s.Running .final → s.Holds 0x0100 ps → s.Holds 0x0010 (le64Bytes mix) →
    s'.Running (.h512k (mix.toNat % 512)) → s'.cfg = s.cfg →
    s'.Holds 0x1000 (expandKey s.cfg.rc (Block32.ofBytes ps) 8832) →
    s'.Holds 0x0080 (ps ++ le64Bytes mix ++ zeros 24) →
    exec .final s = .next t → exec (.h512k (mix.toNat % 512)) s' = .next t' →
    ∀ k, k < 32 → readCell t'.mem (0x00C0 + k) = readCell t.mem (0x0140 + k)

/-- R204, R208: HASH writes `S`, `MIX`, `KB` and `DIGEST`, the last with the hash of the message. Where a byte of the
message is unwritten, that the sponge and the mixer see the same value of it is the model's choice (log 3). -/
def Obligations.HashCommandWritesItsFourBuffers : Prop :=
  ∀ (s : State) (m ps kb : List Byte) (mix : Word64), s.Running .hash → m = s.bytesAt 0x4000 s.msgLen.toNat →
    ps = (sponge s.cfg.rc m).bytes → mix = clmix s.cfg.kEven s.cfg.kOdd m ps →
    kb = expandKey s.cfg.rc (Block32.ofBytes ps) 8832 →
    ∃ t, exec .hash s = .next t ∧ Finished s t ∧ SameRest s t ∧ t.Holds 0x0100 ps ∧ t.Holds 0x0010 (le64Bytes mix) ∧
      t.Holds 0x1000 kb ∧ t.Holds 0x0140 (haraka512 (Block64.ofBytes (finalState ps mix)) (window kb (mix.toNat % 512) 40)).bytes ∧
      t.Holds 0x0140 (hash s.cfg m).bytes ∧
      SameOutside s t [(0x0100, 64), (0x0010, 8), (0x1000, 8832), (0x0140, 32)]

/-- R208: the end state of HASH equals that of SPONGE, CLMIX, FINAL run to completion one after the other, the message
having been written. -/
def Obligations.HashEqualsSpongeClmixFinal : Prop :=
  ∀ s : State, s.Idle → 8832 ≤ s.cfg.keyBufLen → s.msgLen.toNat ≤ s.cfg.msgMax →
    s.Written 0x4000 s.msgLen.toNat →
    ∃ a1 a2 a3 a4 a5 a6 b1 b2 : State,
      exec .sponge s = .next a1 ∧ exec .sponge a1 = .next a2 ∧ exec .clmix a2 = .next a3 ∧ exec .clmix a3 = .next a4 ∧
      exec .final a4 = .next a5 ∧ exec .final a5 = .next a6 ∧
      exec .hash s = .next b1 ∧ exec .hash b1 = .next b2 ∧
      (∀ a, readCell a6.mem a = readCell b2.mem a) ∧ a6.status = b2.status ∧ a6.pending = b2.pending ∧
      a6.msgLen = b2.msgLen ∧ a6.cfg = b2.cfg

/-- R292: what HASH and VERIFY compute depends on the configuration, the message and (VERIFY alone) the target, whatever
ran before and whatever else the buffers hold, bytes of `MSG` from `MSGLEN` on included. -/
def Obligations.HashForgetsWhatRanBefore : Prop :=
  ∀ (i : Instr) (s s' t t' : State), i = .hash ∨ i = .verify → s.Running i → s'.Running i → s'.cfg = s.cfg →
    s'.msgLen = s.msgLen → s.Written 0x4000 s.msgLen.toNat → (i = .verify → s.Written 0x0160 32) →
    (∀ k, k < s.msgLen.toNat → readCell s'.mem (0x4000 + k) = readCell s.mem (0x4000 + k)) →
    (i = .verify → ∀ k, k < 32 → readCell s'.mem (0x0160 + k) = readCell s.mem (0x0160 + k)) →
    exec i s = .next t → exec i s' = .next t' →
    (∀ r ∈ [(0x0100, 64), (0x0010, 8), (0x1000, 8832), (0x0140, 32)], ∀ k, k < r.2 →
      readCell t'.mem (r.1 + k) = readCell t.mem (r.1 + k)) ∧
    (i = .verify → t'.status.result = t.status.result)

/-! Target, verification, search. -/

/-- R216: the closed form of the target, its monotony, and the end points. -/
def Obligations.TargetIsTheShiftedAllOnes : Prop :=
  (∀ d : Word64, beNat (difficultyToTarget d) = if d.toNat < 256 then 2 ^ (256 - d.toNat) - 1 else 0) ∧
  (∀ d d' : Word64, d.toNat ≤ d'.toNat → beNat (difficultyToTarget d') ≤ beNat (difficultyToTarget d)) ∧
  difficultyToTarget 0#64 = List.replicate 32 0xFF#8 ∧
  difficultyToTarget 8#64 = 0x00#8 :: List.replicate 31 0xFF#8 ∧
  difficultyToTarget 255#64 = zeros 31 ++ [0x01#8] ∧
  (∀ d : Word64, 256 ≤ d.toNat → difficultyToTarget d = zeros 32) ∧
  difficultyToTarget 0xFFFFFFFFFFFFFFFF#64 = zeros 32

/-- R222: TARGET. -/
def Obligations.TargetCommandWritesTarget : Prop :=
  decodeWord 0x0000000B#32 = .ok .target ∧
  (∀ s : State, s.Idle → ∃ t, exec .target s = .next t ∧ Accepted .target s t) ∧
  ∀ s : State, s.Running .target → ∃ t, exec .target s = .next t ∧ Finished s t ∧ SameRest s t ∧
    t.Holds 0x0160 (difficultyToTarget (le64 (s.bytesAt 0x0018 8))) ∧ SameOutside s t [(0x0160, 32)]

/-- R217: `meets` is the comparison of the reversed digest with the target as big-endian numbers, and so of the digest
as a little-endian number. -/
def Obligations.MeetsComparesBigEndianNumbers : Prop :=
  ∀ dg tgt : List Byte, dg.length = 32 → tgt.length = 32 →
    (meets dg tgt = true ↔ beNat dg.reverse ≤ beNat tgt) ∧ (meets dg tgt = true ↔ leNat dg ≤ beNat tgt)

/-- R219: the properties of `verify`. -/
def Obligations.VerifyProperties : Prop :=
  ∀ (c : Config) (m : List Byte),
    verify c m (List.replicate 32 0xFF#8) = true ∧
    ((hash c m).bytes ≠ zeros 32 → verify c m (zeros 32) = false) ∧
    ∀ tgt : List Byte, tgt.length = 32 →
      (verify c m tgt = true ↔ beNat (hash c m).bytes.reverse ≤ beNat tgt)

/-- R223: VERIFY writes what HASH writes and sets `RESULT` to the verdict on the target as it stands, all ones and the
reversed digest passing; `ABORTED` and `EXH` stay as its issue left them, 0. Where a byte of the message is unwritten,
that the sponge and the mixer see the same value of it is the model's choice (log 3). -/
def Obligations.VerifyCommandSetsResult : Prop :=
  decodeWord 0x0000000C#32 = .ok .verify ∧
  (∀ s : State, s.Idle → s.msgLen.toNat ≤ s.cfg.msgMax → 8832 ≤ s.cfg.keyBufLen →
    ∃ t, exec .verify s = .next t ∧ Accepted .verify s t ∧ t.status.aborted = false ∧ t.status.exh = false) ∧
  (∀ (s : State) (f : CoreFault), s.Idle → operandFault .hash s = some f →
    ∃ t, exec .verify s = .next t ∧ TookFault f s t) ∧
  ∀ (s : State) (m tgt ps kb : List Byte) (mix : Word64), s.Running .verify → m = s.bytesAt 0x4000 s.msgLen.toNat →
    tgt = s.bytesAt 0x0160 32 → ps = (sponge s.cfg.rc m).bytes → mix = clmix s.cfg.kEven s.cfg.kOdd m ps →
    kb = expandKey s.cfg.rc (Block32.ofBytes ps) 8832 →
    ∃ t, exec .verify s = .next t ∧ t.pending = none ∧ SameRest s t ∧ t.Holds 0x0100 ps ∧
      t.Holds 0x0010 (le64Bytes mix) ∧ t.Holds 0x1000 kb ∧ t.Holds 0x0140 (hash s.cfg m).bytes ∧
      SameOutside s t [(0x0100, 64), (0x0010, 8), (0x1000, 8832), (0x0140, 32)] ∧
      t.status = { s.status with busy := false, done := true, result := meets (hash s.cfg m).bytes tgt } ∧
      (tgt = List.replicate 32 0xFF#8 → t.status.result = true) ∧
      (tgt = (hash s.cfg m).bytes.reverse → t.status.result = true)

/-- R224: the issue of SEARCH sets `MSGLEN` to 64 whatever it was, and checks the configuration alone. -/
def Obligations.SearchIssueSetsMessageLength : Prop :=
  decodeWord 0x0000000D#32 = .ok .search ∧
  ∀ s : State, s.Idle →
    (8832 ≤ s.cfg.keyBufLen → ∃ t, exec .search s = .next t ∧ t.msgLen = 64#32 ∧ t.pending = some .search ∧
      t.status = { s.status with busy := true, done := false, result := false, aborted := false, exh := false } ∧
      t.mem = s.mem ∧ t.cfg = s.cfg ∧ t.turns = s.turns ∧ t.bus = s.bus) ∧
    (s.cfg.keyBufLen < 8832 → ∃ t, exec .search s = .next t ∧ TookFault .keybufTooSmall s t)

/-- R225, R228: one iteration of SEARCH: the candidate tested, the buffers of HASH written, and the three ways on. That
`NONCE` holds the candidate as written bytes where the search ends is log 11; that every use of an unwritten byte of
`MSG[0..56)` or `NONCE` sees the same value is log 3. -/
def Obligations.SearchIterationTestsOneNonce : Prop :=
  ∀ (s : State) (n : Word64) (m : List Byte), s.Running .search → n = le64 (s.bytesAt 0x0020 8) →
    m = s.bytesAt 0x4000 56 ++ le64Bytes n →
    ∃ t, exec .search s = .next t ∧ SameRest s t ∧ t.Holds 0x4038 (le64Bytes n) ∧
      t.Holds 0x0100 (sponge s.cfg.rc m).bytes ∧
      t.Holds 0x0010 (le64Bytes (hashParts s.cfg m).mix) ∧
      t.Holds 0x1000 (expandKey s.cfg.rc (Block32.ofBytes (sponge s.cfg.rc m).bytes) 8832) ∧
      t.Holds 0x0140 (hash s.cfg m).bytes ∧
      SameOutside s t [(0x4038, 8), (0x0020, 8), (0x0100, 64), (0x0010, 8), (0x1000, 8832), (0x0140, 32)] ∧
      (meets (hash s.cfg m).bytes (s.bytesAt 0x0160 32) = true →
        t.pending = none ∧ t.status = { s.status with busy := false, done := true, result := true } ∧
        t.Holds 0x0020 (le64Bytes n)) ∧
      (meets (hash s.cfg m).bytes (s.bytesAt 0x0160 32) = false → n = BitVec.allOnes 64 →
        t.pending = none ∧ t.status = { s.status with busy := false, done := true, result := false, exh := true } ∧
        t.Holds 0x0020 (le64Bytes n)) ∧
      (meets (hash s.cfg m).bytes (s.bytesAt 0x0160 32) = false → n ≠ BitVec.allOnes 64 →
        t.pending = some .search ∧ t.status = s.status ∧ t.Holds 0x0020 (le64Bytes (n + 1#64)))

/-- R220, R226 (a): a SEARCH issued in the idle state and left alone ends, after testing each candidate from the start
value on, at the least nonce that passes; `RESULT` 1, `NONCE` and `MSG[56..64)` that nonce, `MSGLEN` 64, and `S`, `MIX`,
`KB` and `DIGEST` those of the winning message. Left alone: no turn is left, so the sequencer moves at each step (log 1, log 7). -/
def Obligations.SearchFindsTheLeastPassingNonce : Prop :=
  ∀ (s : State) (pre tgt : List Byte) (start k : Nat), s.cfg.wellFormed = true → s.Idle → pre.length = 56 →
    tgt.length = 32 → start + k < 2 ^ 64 → s.Holds 0x4000 pre → s.Holds 0x0160 tgt →
    s.Holds 0x0020 (le64Bytes (BitVec.ofNat 64 start)) →
    (∀ j, j < k → verify s.cfg (pre ++ le64Bytes (BitVec.ofNat 64 (start + j))) tgt = false) →
    verify s.cfg (pre ++ le64Bytes (BitVec.ofNat 64 (start + k))) tgt = true →
    ∃ s1 t, exec .search s = .next s1 ∧ runSteps (k + 1) { s1 with turns := [] } = .next t ∧
      t.status = { s.status with busy := false, done := true, result := true, aborted := false, exh := false } ∧
      t.pending = none ∧ t.msgLen = 64#32 ∧
      t.Holds 0x0020 (le64Bytes (BitVec.ofNat 64 (start + k))) ∧
      t.Holds 0x4038 (le64Bytes (BitVec.ofNat 64 (start + k))) ∧
      t.Holds 0x0140 (hash s.cfg (pre ++ le64Bytes (BitVec.ofNat 64 (start + k)))).bytes ∧
      t.Holds 0x0100 (sponge s.cfg.rc (pre ++ le64Bytes (BitVec.ofNat 64 (start + k)))).bytes ∧
      t.Holds 0x0010 (le64Bytes (clmix s.cfg.kEven s.cfg.kOdd (pre ++ le64Bytes (BitVec.ofNat 64 (start + k)))
        (sponge s.cfg.rc (pre ++ le64Bytes (BitVec.ofNat 64 (start + k)))).bytes)) ∧
      t.Holds 0x1000 (expandKey s.cfg.rc (Block32.ofBytes
        (sponge s.cfg.rc (pre ++ le64Bytes (BitVec.ofNat 64 (start + k)))).bytes) 8832) ∧
      SameOutside s t [(0x4038, 8), (0x0020, 8), (0x0100, 64), (0x0010, 8), (0x1000, 8832), (0x0140, 32)]

/-! System commands. -/

/-- R240: NOP: no buffer written, `RESULT`, `ABORTED` and `EXH` cleared, `FAULT` not. -/
def Obligations.NopWritesNoBuffer : Prop :=
  decodeWord 0x00000000#32 = .ok .nop ∧
  (∀ s : State, s.Idle → ∃ t, exec .nop s = .next t ∧ Accepted .nop s t) ∧
  (∀ s : State, s.status.fault = true → s.status.busy = false → exec .nop s = .next s) ∧
  ∀ s : State, s.Running .nop → ∃ t, exec .nop s = .next t ∧ Finished s t ∧ SameRest s t ∧ t.mem = s.mem

/-- R241: ABORT, its cases: ignored in the fault state, ending a running SEARCH with no buffer changed, without effect on
another running command (a running ABORT included, at the host's write), issued and completed like NOP when the CORE is
idle. The host's write is a turn (log 1); that a running ABORT is left as it is follows R241 by log 21. -/
def Obligations.AbortEndsOnlyASearch : Prop :=
  decodeWord 0x0000000E#32 = .ok .abort ∧
  (∀ s : State, s.status.fault = true → s.status.busy = false → exec .abort s = .next s) ∧
  (∀ s : State, s.status.fault = false → s.Running .search → ∃ t, exec .abort s = .next t ∧ t.pending = none ∧
    t.status = { s.status with busy := false, done := true, aborted := true, result := false } ∧ t.mem = s.mem ∧
    SameRest s t) ∧
  (∀ (s : State) (i : Instr), s.status.fault = false → s.Running i → i ≠ .search → i ≠ .abort →
    exec .abort s = .next s) ∧
  (∀ (s : State) (rest : List Turn), s.cfg.admitted = true → s.status.fault = false → s.Running .abort →
    s.turns = .host (.write 0x0000#16 [0x0E#8, 0x00#8, 0x00#8, 0x00#8]) :: rest →
    step s = .next { s with turns := rest }) ∧
  (∀ s : State, s.Idle → ∃ t, exec .abort s = .next t ∧ Accepted .abort s t) ∧
  ∀ s : State, s.Running .abort → ∃ t, exec .abort s = .next t ∧ Finished s t ∧ SameRest s t ∧ t.mem = s.mem

/-! What no command touches. -/

/-- R45, R243: whatever a command does, at issue, at completion or when it is turned away, it changes no byte outside the
buffers it lists as written, and `MSGLEN` only as SEARCH. -/
def Obligations.CommandsWriteOnlyTheirBuffers : Prop :=
  ∀ (i : Instr) (s t : State), exec i s = .next t →
    SameOutside s t i.writeRanges ∧ t.cfg = s.cfg ∧ t.turns = s.turns ∧ t.bus = s.bus ∧
    (t.msgLen = s.msgLen ∨ (i = .search ∧ t.msgLen = 64#32))

/-- R296: `P`, `RK`, `Y`, `TARGET`, `DIFF` and `MSG[0..56)` survive HASH, VERIFY and every iteration of SEARCH. -/
def Obligations.OperandsSurviveHashVerifySearch : Prop :=
  ∀ (i : Instr) (s t : State), i = .hash ∨ i = .verify ∨ i = .search → exec i s = .next t →
    ∀ r ∈ [(0x0080, 64), (0x0040, 16), (0x00C0, 32), (0x0160, 32), (0x0018, 8), (0x4000, 56)], ∀ k, k < r.2 →
      readCell t.mem (r.1 + k) = readCell s.mem (r.1 + k)
end

