-- ==== Sys2Proof/Laws/Bytes.lean ====
section
/-! SUPPORT. The small lemmas of the byte-array notation: lengths, and that each conversion of 00_scope.md R11, R12 is
undone by its partner. -/

namespace Sys2Proof

@[simp] theorem zeros_length (n : Nat) : (zeros n).length = n := by simp [zeros]

@[simp] theorem padTo_length (n : Nat) (bs : List Byte) (h : bs.length ≤ n) : (padTo n bs).length = n := by
  simp [padTo, h]

@[simp] theorem Quad.bytes_length (q : Quad) : q.bytes.length = 4 := rfl
@[simp] theorem Lane.bytes_length (l : Lane) : l.bytes.length = 16 := rfl
@[simp] theorem Block32.bytes_length (b : Block32) : b.bytes.length = 32 := rfl
@[simp] theorem Block64.bytes_length (b : Block64) : b.bytes.length = 64 := rfl

@[simp] theorem Quad.ofBytes_bytes (q : Quad) : Quad.ofBytes q.bytes = q := rfl
@[simp] theorem Lane.ofBytes_bytes (l : Lane) : Lane.ofBytes l.bytes = l := rfl
@[simp] theorem Block32.ofBytes_bytes (b : Block32) : Block32.ofBytes b.bytes = b := rfl
@[simp] theorem Block64.ofBytes_bytes (b : Block64) : Block64.ofBytes b.bytes = b := rfl

/-- A list of length `n + 1` has a head. -/
theorem exists_cons_of_length {α : Type} {n : Nat} {l : List α} (h : l.length = n + 1) :
    ∃ a t, l = a :: t ∧ t.length = n := by
  cases l with
  | nil => simp at h
  | cons a t => exact ⟨a, t, rfl, by simpa using h⟩

theorem Quad.bytes_ofBytes {bs : List Byte} (h : bs.length = 4) : (Quad.ofBytes bs).bytes = bs := by
  obtain ⟨a, t1, rfl, h1⟩ := exists_cons_of_length h
  obtain ⟨b, t2, rfl, h2⟩ := exists_cons_of_length h1
  obtain ⟨c, t3, rfl, h3⟩ := exists_cons_of_length h2
  obtain ⟨d, t4, rfl, h4⟩ := exists_cons_of_length h3
  obtain rfl := List.length_eq_zero_iff.mp h4
  rfl

/-- A quad reads only the first four bytes. -/
theorem Quad.ofBytes_take (bs : List Byte) : Quad.ofBytes bs = Quad.ofBytes (bs.take 4) := by
  simp [Quad.ofBytes, List.getD_eq_getElem?_getD]

theorem Lane.bytes_ofBytes {bs : List Byte} (h : bs.length = 16) : (Lane.ofBytes bs).bytes = bs := by
  have q (k : Nat) (hk : 4 * k + 4 ≤ 16) : (Quad.ofBytes (bs.drop (4 * k))).bytes = (bs.drop (4 * k)).take 4 := by
    rw [Quad.ofBytes_take]
    exact Quad.bytes_ofBytes (by simp [h]; omega)
  have h0 := q 0 (by omega)
  have h1 := q 1 (by omega)
  have h2 := q 2 (by omega)
  have h3 := q 3 (by omega)
  simp only [Nat.mul_zero, List.drop_zero, Nat.mul_one] at h0 h1 h2 h3
  rw [Lane.ofBytes, Lane.bytes, h0, h1, h2, h3, ← List.take_add, ← List.take_add, ← List.take_add]
  exact List.take_of_length_le (by omega)

/-- A lane reads only the first sixteen bytes. -/
theorem Lane.ofBytes_take (bs : List Byte) : Lane.ofBytes bs = Lane.ofBytes (bs.take 16) := by
  simp [Lane.ofBytes, Quad.ofBytes, List.getD_eq_getElem?_getD]

theorem Block32.bytes_ofBytes {bs : List Byte} (h : bs.length = 32) : (Block32.ofBytes bs).bytes = bs := by
  rw [Block32.ofBytes, Block32.bytes, Lane.ofBytes_take bs, Lane.ofBytes_take (bs.drop 16),
    Lane.bytes_ofBytes (by simp [h]), Lane.bytes_ofBytes (by simp [h]), ← List.take_add]
  exact List.take_of_length_le (by omega)

theorem Block64.bytes_ofBytes {bs : List Byte} (h : bs.length = 64) : (Block64.ofBytes bs).bytes = bs := by
  rw [Block64.ofBytes, Block64.bytes, Lane.ofBytes_take bs, Lane.ofBytes_take (bs.drop 16),
    Lane.ofBytes_take (bs.drop 32), Lane.ofBytes_take (bs.drop 48),
    Lane.bytes_ofBytes (by simp [h]), Lane.bytes_ofBytes (by simp [h]), Lane.bytes_ofBytes (by simp [h]),
    Lane.bytes_ofBytes (by simp [h]), ← List.take_add, ← List.take_add, ← List.take_add]
  exact List.take_of_length_le (by omega)

@[simp] theorem leBytes_length (n v : Nat) : (leBytes n v).length = n := by
  induction n generalizing v with
  | zero => rfl
  | succ n ih => simp [leBytes, ih]

@[simp] theorem le64Bytes_length (v : Word64) : (le64Bytes v).length = 8 := leBytes_length 8 _

@[simp] theorem le32Bytes_length (v : BitVec 32) : (le32Bytes v).length = 4 := leBytes_length 4 _

/-- Reading back the little-endian bytes of `v` gives `v`, cut to that many bytes. -/
theorem leNat_leBytes (n v : Nat) : leNat (leBytes n v) = v % 256 ^ n := by
  induction n generalizing v with
  | zero => simp [leBytes, leNat, Nat.mod_one]
  | succ n ih =>
    have hs : v % (256 ^ n * 256) = v % 256 + 256 * (v / 256 % 256 ^ n) := by
      rw [Nat.mul_comm, Nat.mod_mul]
    simp only [leBytes, leNat, ih, BitVec.toNat_ofNat, Nat.pow_succ, hs]

@[simp] theorem le64_le64Bytes (v : Word64) : le64 (le64Bytes v) = v := by
  have hv := v.isLt
  rw [le64, le64Bytes, leNat_leBytes, Nat.mod_eq_of_lt (by omega)]
  simp

@[simp] theorem le32_le32Bytes (v : BitVec 32) : le32 (le32Bytes v) = v := by
  have hv := v.isLt
  rw [le32, le32Bytes, leNat_leBytes, Nat.mod_eq_of_lt (by omega)]
  simp

end Sys2Proof
end

