-- ==== Sys2Proof/Laws/Lengths.lean ====
section
/-! SUPPORT. The sizes of what the data path computes. -/

/-- `MSG_MAX` lies in the range that 00_scope.md R8 allows it. -/
theorem Sys2Proof.Config.msgMax_bounds (c : Sys2Proof.Config) : 64 ≤ c.msgMax ∧ c.msgMax ≤ 49152 := by
  have := c.msgRoom.isLt
  unfold Sys2Proof.Config.msgMax
  omega

namespace Sys2Proof.Machine

@[simp] theorem keyChain_length (rc : List Lane) (n : Nat) (x : Block32) : (keyChain rc n x).length = n := by
  induction n generalizing x with
  | zero => rfl
  | succ n ih => simp [keyChain, ih]

theorem flatMap_bytes_length (l : List Block32) : (l.flatMap Block32.bytes).length = 32 * l.length := by
  induction l with
  | nil => rfl
  | cons b l ih => simp [ih]; omega

/-- The key stream has as many bytes as were asked for (44_keystream.md R190). -/
@[simp] theorem expandKey_length (rc : List Lane) (seed : Block32) (n : Nat) : (expandKey rc seed n).length = n := by
  simp only [expandKey, List.length_take, flatMap_bytes_length, keyChain_length]
  omega

@[simp] theorem chunkAt_length (m : List Byte) (i : Nat) : (chunkAt m i).length = 32 :=
  padTo_length 32 _ (by simp)

@[simp] theorem msgBlock_length (m : List Byte) : (msgBlock m).length = 64 := padTo_length 64 _ (by simp)

@[simp] theorem difficultyToTarget_length (d : Word64) : (difficultyToTarget d).length = 32 := by
  unfold difficultyToTarget
  split <;> simp

@[simp] theorem hashParts_sponge_length (c : Config) (m : List Byte) : (hashParts c m).sponge.length = 64 := by
  simp [hashParts]

@[simp] theorem hashParts_kb_length (c : Config) (m : List Byte) : (hashParts c m).kb.length = 8832 := by
  simp [hashParts]

/-- What HASH leaves in `DIGEST` is the hash of the message (45_finalizer_hash.md R204, R208). -/
theorem hashParts_digest (c : Config) (m : List Byte) : (hashParts c m).digest = hash c m := rfl

end Sys2Proof.Machine
end

