-- ==== Sys2Proof/Laws/Memory.lean ====
section
/-! SUPPORT. The laws of memory: what a write leaves at every address, and that it keeps the canonical form. -/

namespace Sys2Proof.Machine

theorem readCell_append (m m' : Memory) (a : Nat) :
    readCell (m ++ m') a = (readCell m a).or (readCell m' a) := by
  induction m with
  | nil => rfl
  | cons c m ih =>
    obtain ⟨k, b⟩ := c
    by_cases h : k = a <;> simp [readCell, h, ih]

theorem readCell_filter (m : Memory) (p : Nat → Bool) (a : Nat) :
    readCell (m.filter (fun c => p c.1)) a = if p a then readCell m a else none := by
  induction m with
  | nil => simp [readCell]
  | cons c m ih =>
    obtain ⟨k, b⟩ := c
    by_cases hp : p k = true
    · by_cases h : k = a
      · subst h; simp [hp, readCell]
      · simp [hp, readCell, h, ih]
    · by_cases h : k = a
      · subst h; simp [hp, ih]
      · simp [hp, readCell, h, ih]

theorem readCell_cellsAt (a : Nat) (bs : List Byte) (x : Nat) :
    readCell (cellsAt a bs) x = if a ≤ x then bs[x - a]? else none := by
  induction bs generalizing a with
  | nil => simp [cellsAt, readCell]
  | cons b bs ih =>
    simp only [cellsAt, readCell, ih]
    by_cases h : a = x
    · subst h; simp
    · by_cases h1 : a + 1 ≤ x
      · have h2 : x - a = x - (a + 1) + 1 := by omega
        simp [h, h1, h2, show a ≤ x by omega]
      · simp [h, show ¬ a + 1 ≤ x by omega, show ¬ a ≤ x by omega]

/-- What a write leaves at every address: the written byte inside, the old contents outside. -/
theorem readCell_writeCells (m : Memory) (a : Nat) (bs : List Byte) (x : Nat) :
    readCell (writeCells m a bs) x = if a ≤ x ∧ x < a + bs.length then bs[x - a]? else readCell m x := by
  have low := readCell_filter m (fun k => decide (k < a)) x
  have high := readCell_filter m (fun k => decide (a + bs.length ≤ k)) x
  rw [writeCells, readCell_append, readCell_append, low, high, readCell_cellsAt]
  by_cases h1 : x < a
  · have h2 : ¬ a ≤ x := by omega
    have h3 : ¬ a + bs.length ≤ x := by omega
    simp [h1, h2, h3]
  · by_cases h2 : x < a + bs.length
    · have h3 : x - a < bs.length := by omega
      simp [h1, h2, show a ≤ x by omega, List.getElem?_eq_getElem h3]
    · simp [h1, h2, show a ≤ x by omega, show a + bs.length ≤ x by omega,
        List.getElem?_eq_none (show bs.length ≤ x - a by omega)]

/-- A read after a write inside the written bytes gives the byte written. -/
theorem readCell_writeCells_inside (m : Memory) (a : Nat) (bs : List Byte) (k : Nat) (h : k < bs.length) :
    readCell (writeCells m a bs) (a + k) = bs[k]? := by
  rw [readCell_writeCells, if_pos (by omega), Nat.add_sub_cancel_left]

/-- A write leaves every other place alone. -/
theorem readCell_writeCells_outside (m : Memory) (a : Nat) (bs : List Byte) (x : Nat)
    (h : ¬ (a ≤ x ∧ x < a + bs.length)) : readCell (writeCells m a bs) x = readCell m x := by
  rw [readCell_writeCells, if_neg h]

theorem mem_cellsAt {a : Nat} {bs : List Byte} {c : Host.Cell} (h : c ∈ cellsAt a bs) :
    a ≤ c.1 ∧ c.1 < a + bs.length := by
  induction bs generalizing a with
  | nil => simp [cellsAt] at h
  | cons b bs ih =>
    simp only [cellsAt, List.mem_cons] at h
    obtain rfl | h := h
    · simp
    · have := ih h
      simp only [List.length_cons]
      omega

theorem cellsAt_wf (a : Nat) (bs : List Byte) : Memory.wf (cellsAt a bs) := by
  induction bs generalizing a with
  | nil => exact List.Pairwise.nil
  | cons b bs ih =>
    refine List.Pairwise.cons (fun c hc => ?_) (ih (a + 1))
    have := mem_cellsAt hc
    show a < c.1
    omega

/-- A write keeps the canonical form. -/
theorem writeCells_wf {m : Memory} (h : Memory.wf m) (a : Nat) (bs : List Byte) : Memory.wf (writeCells m a bs) := by
  rw [writeCells, Memory.wf, List.pairwise_append, List.pairwise_append]
  refine ⟨⟨h.filter _, cellsAt_wf a bs, ?_⟩, h.filter _, ?_⟩
  · intro c hc d hd
    have h1 : c.1 < a := by simpa using (List.mem_filter.mp hc).2
    have h2 := mem_cellsAt hd
    omega
  · intro c hc d hd
    have h1 : a + bs.length ≤ d.1 := by simpa using (List.mem_filter.mp hd).2
    rcases List.mem_append.mp hc with hc | hc
    · have h2 : c.1 < a := by simpa using (List.mem_filter.mp hc).2
      omega
    · have h2 := mem_cellsAt hc
      omega

/-- An entry after a write is an old one or lies in the written bytes. -/
theorem mem_writeCells {m : Memory} {a : Nat} {bs : List Byte} {c : Host.Cell} (h : c ∈ writeCells m a bs) :
    c ∈ m ∨ (a ≤ c.1 ∧ c.1 < a + bs.length) := by
  rw [writeCells, List.mem_append, List.mem_append] at h
  rcases h with (h | h) | h
  · exact .inl (List.mem_filter.mp h).1
  · exact .inr (mem_cellsAt h)
  · exact .inl (List.mem_filter.mp h).1

end Sys2Proof.Machine
end

