-- ==== Sys2Proof/Laws/State.lean ====
section
/-! SUPPORT. For every update of State, what each field is afterwards: true by definition, so that no later proof
unfolds a record update. -/

namespace Sys2Proof.Machine

/-! A write of a data buffer. -/

@[simp] theorem put_mem (s : State) (r : Region) (off : Nat) (bs : List Byte) : (s.put r off bs).mem = writeCells s.mem (r.base + off) bs := rfl
@[simp] theorem put_msgLen (s : State) (r : Region) (off : Nat) (bs : List Byte) : (s.put r off bs).msgLen = s.msgLen := rfl
@[simp] theorem put_status (s : State) (r : Region) (off : Nat) (bs : List Byte) : (s.put r off bs).status = s.status := rfl
@[simp] theorem put_pending (s : State) (r : Region) (off : Nat) (bs : List Byte) : (s.put r off bs).pending = s.pending := rfl
@[simp] theorem put_cfg (s : State) (r : Region) (off : Nat) (bs : List Byte) : (s.put r off bs).cfg = s.cfg := rfl
@[simp] theorem put_turns (s : State) (r : Region) (off : Nat) (bs : List Byte) : (s.put r off bs).turns = s.turns := rfl
@[simp] theorem put_bus (s : State) (r : Region) (off : Nat) (bs : List Byte) : (s.put r off bs).bus = s.bus := rfl
@[simp] theorem put_fresh (s : State) (r : Region) (off : Nat) (bs : List Byte) : (s.put r off bs).fresh = s.fresh := rfl

/-! putY. -/

@[simp] theorem putY_mem (s : State) (v : Block32) : (s.putY v).mem = writeCells s.mem Region.y.base (v.bytes) := rfl
@[simp] theorem putY_msgLen (s : State) (v : Block32) : (s.putY v).msgLen = s.msgLen := rfl
@[simp] theorem putY_status (s : State) (v : Block32) : (s.putY v).status = s.status := rfl
@[simp] theorem putY_pending (s : State) (v : Block32) : (s.putY v).pending = s.pending := rfl
@[simp] theorem putY_cfg (s : State) (v : Block32) : (s.putY v).cfg = s.cfg := rfl
@[simp] theorem putY_turns (s : State) (v : Block32) : (s.putY v).turns = s.turns := rfl
@[simp] theorem putY_bus (s : State) (v : Block32) : (s.putY v).bus = s.bus := rfl
@[simp] theorem putY_fresh (s : State) (v : Block32) : (s.putY v).fresh = s.fresh := rfl

/-! putS. -/

@[simp] theorem putS_mem (s : State) (bs : List Byte) : (s.putS bs).mem = writeCells s.mem Region.s.base bs := rfl
@[simp] theorem putS_msgLen (s : State) (bs : List Byte) : (s.putS bs).msgLen = s.msgLen := rfl
@[simp] theorem putS_status (s : State) (bs : List Byte) : (s.putS bs).status = s.status := rfl
@[simp] theorem putS_pending (s : State) (bs : List Byte) : (s.putS bs).pending = s.pending := rfl
@[simp] theorem putS_cfg (s : State) (bs : List Byte) : (s.putS bs).cfg = s.cfg := rfl
@[simp] theorem putS_turns (s : State) (bs : List Byte) : (s.putS bs).turns = s.turns := rfl
@[simp] theorem putS_bus (s : State) (bs : List Byte) : (s.putS bs).bus = s.bus := rfl
@[simp] theorem putS_fresh (s : State) (bs : List Byte) : (s.putS bs).fresh = s.fresh := rfl

/-! putMix. -/

@[simp] theorem putMix_mem (s : State) (v : Word64) : (s.putMix v).mem = writeCells s.mem Region.mix.base (le64Bytes v) := rfl
@[simp] theorem putMix_msgLen (s : State) (v : Word64) : (s.putMix v).msgLen = s.msgLen := rfl
@[simp] theorem putMix_status (s : State) (v : Word64) : (s.putMix v).status = s.status := rfl
@[simp] theorem putMix_pending (s : State) (v : Word64) : (s.putMix v).pending = s.pending := rfl
@[simp] theorem putMix_cfg (s : State) (v : Word64) : (s.putMix v).cfg = s.cfg := rfl
@[simp] theorem putMix_turns (s : State) (v : Word64) : (s.putMix v).turns = s.turns := rfl
@[simp] theorem putMix_bus (s : State) (v : Word64) : (s.putMix v).bus = s.bus := rfl
@[simp] theorem putMix_fresh (s : State) (v : Word64) : (s.putMix v).fresh = s.fresh := rfl

/-! putNonce. -/

@[simp] theorem putNonce_mem (s : State) (v : Word64) : (s.putNonce v).mem = writeCells s.mem Region.nonce.base (le64Bytes v) := rfl
@[simp] theorem putNonce_msgLen (s : State) (v : Word64) : (s.putNonce v).msgLen = s.msgLen := rfl
@[simp] theorem putNonce_status (s : State) (v : Word64) : (s.putNonce v).status = s.status := rfl
@[simp] theorem putNonce_pending (s : State) (v : Word64) : (s.putNonce v).pending = s.pending := rfl
@[simp] theorem putNonce_cfg (s : State) (v : Word64) : (s.putNonce v).cfg = s.cfg := rfl
@[simp] theorem putNonce_turns (s : State) (v : Word64) : (s.putNonce v).turns = s.turns := rfl
@[simp] theorem putNonce_bus (s : State) (v : Word64) : (s.putNonce v).bus = s.bus := rfl
@[simp] theorem putNonce_fresh (s : State) (v : Word64) : (s.putNonce v).fresh = s.fresh := rfl

/-! putKB. -/

@[simp] theorem putKB_mem (s : State) (bs : List Byte) : (s.putKB bs).mem = writeCells s.mem Region.kb.base (bs) := rfl
@[simp] theorem putKB_msgLen (s : State) (bs : List Byte) : (s.putKB bs).msgLen = s.msgLen := rfl
@[simp] theorem putKB_status (s : State) (bs : List Byte) : (s.putKB bs).status = s.status := rfl
@[simp] theorem putKB_pending (s : State) (bs : List Byte) : (s.putKB bs).pending = s.pending := rfl
@[simp] theorem putKB_cfg (s : State) (bs : List Byte) : (s.putKB bs).cfg = s.cfg := rfl
@[simp] theorem putKB_turns (s : State) (bs : List Byte) : (s.putKB bs).turns = s.turns := rfl
@[simp] theorem putKB_bus (s : State) (bs : List Byte) : (s.putKB bs).bus = s.bus := rfl
@[simp] theorem putKB_fresh (s : State) (bs : List Byte) : (s.putKB bs).fresh = s.fresh := rfl

/-! putDigest. -/

@[simp] theorem putDigest_mem (s : State) (v : Block32) : (s.putDigest v).mem = writeCells s.mem Region.digest.base (v.bytes) := rfl
@[simp] theorem putDigest_msgLen (s : State) (v : Block32) : (s.putDigest v).msgLen = s.msgLen := rfl
@[simp] theorem putDigest_status (s : State) (v : Block32) : (s.putDigest v).status = s.status := rfl
@[simp] theorem putDigest_pending (s : State) (v : Block32) : (s.putDigest v).pending = s.pending := rfl
@[simp] theorem putDigest_cfg (s : State) (v : Block32) : (s.putDigest v).cfg = s.cfg := rfl
@[simp] theorem putDigest_turns (s : State) (v : Block32) : (s.putDigest v).turns = s.turns := rfl
@[simp] theorem putDigest_bus (s : State) (v : Block32) : (s.putDigest v).bus = s.bus := rfl
@[simp] theorem putDigest_fresh (s : State) (v : Block32) : (s.putDigest v).fresh = s.fresh := rfl

/-! putTarget. -/

@[simp] theorem putTarget_mem (s : State) (bs : List Byte) : (s.putTarget bs).mem = writeCells s.mem Region.target.base (bs) := rfl
@[simp] theorem putTarget_msgLen (s : State) (bs : List Byte) : (s.putTarget bs).msgLen = s.msgLen := rfl
@[simp] theorem putTarget_status (s : State) (bs : List Byte) : (s.putTarget bs).status = s.status := rfl
@[simp] theorem putTarget_pending (s : State) (bs : List Byte) : (s.putTarget bs).pending = s.pending := rfl
@[simp] theorem putTarget_cfg (s : State) (bs : List Byte) : (s.putTarget bs).cfg = s.cfg := rfl
@[simp] theorem putTarget_turns (s : State) (bs : List Byte) : (s.putTarget bs).turns = s.turns := rfl
@[simp] theorem putTarget_bus (s : State) (bs : List Byte) : (s.putTarget bs).bus = s.bus := rfl
@[simp] theorem putTarget_fresh (s : State) (bs : List Byte) : (s.putTarget bs).fresh = s.fresh := rfl

/-! putP. -/

@[simp] theorem putP_mem (s : State) (l : Fin 4) (v : Lane) : (s.putP l v).mem = writeCells s.mem (Region.p.base + 16 * l.val) v.bytes := rfl
@[simp] theorem putP_msgLen (s : State) (l : Fin 4) (v : Lane) : (s.putP l v).msgLen = s.msgLen := rfl
@[simp] theorem putP_status (s : State) (l : Fin 4) (v : Lane) : (s.putP l v).status = s.status := rfl
@[simp] theorem putP_pending (s : State) (l : Fin 4) (v : Lane) : (s.putP l v).pending = s.pending := rfl
@[simp] theorem putP_cfg (s : State) (l : Fin 4) (v : Lane) : (s.putP l v).cfg = s.cfg := rfl
@[simp] theorem putP_turns (s : State) (l : Fin 4) (v : Lane) : (s.putP l v).turns = s.turns := rfl
@[simp] theorem putP_bus (s : State) (l : Fin 4) (v : Lane) : (s.putP l v).bus = s.bus := rfl
@[simp] theorem putP_fresh (s : State) (l : Fin 4) (v : Lane) : (s.putP l v).fresh = s.fresh := rfl

/-! The writes of HASH. -/

@[simp] theorem putHash_mem (s : State) (h : HashParts) :
    (s.putHash h).mem = hashCells s.mem h := rfl
@[simp] theorem putHash_msgLen (s : State) (h : HashParts) : (s.putHash h).msgLen = s.msgLen := rfl
@[simp] theorem putHash_status (s : State) (h : HashParts) : (s.putHash h).status = s.status := rfl
@[simp] theorem putHash_pending (s : State) (h : HashParts) : (s.putHash h).pending = s.pending := rfl
@[simp] theorem putHash_cfg (s : State) (h : HashParts) : (s.putHash h).cfg = s.cfg := rfl
@[simp] theorem putHash_turns (s : State) (h : HashParts) : (s.putHash h).turns = s.turns := rfl
@[simp] theorem putHash_bus (s : State) (h : HashParts) : (s.putHash h).bus = s.bus := rfl
@[simp] theorem putHash_fresh (s : State) (h : HashParts) : (s.putHash h).fresh = s.fresh := rfl

/-! Fault entry. -/

@[simp] theorem raiseFault_mem (f : CoreFault) (s : State) : (raiseFault f s).mem = s.mem := rfl
@[simp] theorem raiseFault_msgLen (f : CoreFault) (s : State) : (raiseFault f s).msgLen = s.msgLen := rfl
@[simp] theorem raiseFault_status (f : CoreFault) (s : State) : (raiseFault f s).status = { s.status with
    fault := true
    fcode := if s.status.fcode = 0#8 then f.code else s.status.fcode
    busy := false
    done := false } := rfl
@[simp] theorem raiseFault_pending (f : CoreFault) (s : State) : (raiseFault f s).pending = none := rfl
@[simp] theorem raiseFault_cfg (f : CoreFault) (s : State) : (raiseFault f s).cfg = s.cfg := rfl
@[simp] theorem raiseFault_turns (f : CoreFault) (s : State) : (raiseFault f s).turns = s.turns := rfl
@[simp] theorem raiseFault_bus (f : CoreFault) (s : State) : (raiseFault f s).bus = s.bus := rfl
@[simp] theorem raiseFault_fresh (f : CoreFault) (s : State) : (raiseFault f s).fresh = s.fresh := rfl

/-! Reset. -/

@[simp] theorem resetCore_mem (s : State) : (resetCore s).mem = [] := rfl
@[simp] theorem resetCore_msgLen (s : State) : (resetCore s).msgLen = 0#32 := rfl
@[simp] theorem resetCore_status (s : State) : (resetCore s).status = Status.cleared := rfl
@[simp] theorem resetCore_pending (s : State) : (resetCore s).pending = none := rfl
@[simp] theorem resetCore_cfg (s : State) : (resetCore s).cfg = s.cfg := rfl
@[simp] theorem resetCore_turns (s : State) : (resetCore s).turns = s.turns := rfl
@[simp] theorem resetCore_bus (s : State) : (resetCore s).bus = s.bus := rfl
@[simp] theorem resetCore_fresh (s : State) : (resetCore s).fresh = s.fresh := rfl

/-! Acceptance of a command. -/

@[simp] theorem acceptCommand_mem (i : Instr) (s : State) : (acceptCommand i s).mem = s.mem := rfl
@[simp] theorem acceptCommand_msgLen (i : Instr) (s : State) : (acceptCommand i s).msgLen = s.msgLen := rfl
@[simp] theorem acceptCommand_status (i : Instr) (s : State) : (acceptCommand i s).status = s.status.issued := rfl
@[simp] theorem acceptCommand_pending (i : Instr) (s : State) : (acceptCommand i s).pending = some i := rfl
@[simp] theorem acceptCommand_cfg (i : Instr) (s : State) : (acceptCommand i s).cfg = s.cfg := rfl
@[simp] theorem acceptCommand_turns (i : Instr) (s : State) : (acceptCommand i s).turns = s.turns := rfl
@[simp] theorem acceptCommand_bus (i : Instr) (s : State) : (acceptCommand i s).bus = s.bus := rfl
@[simp] theorem acceptCommand_fresh (i : Instr) (s : State) : (acceptCommand i s).fresh = s.fresh := rfl

/-! Acceptance of SEARCH. -/

@[simp] theorem acceptSearch_mem (s : State) : (acceptSearch s).mem = s.mem := rfl
@[simp] theorem acceptSearch_msgLen (s : State) : (acceptSearch s).msgLen = 64#32 := rfl
@[simp] theorem acceptSearch_status (s : State) : (acceptSearch s).status = s.status.issued := rfl
@[simp] theorem acceptSearch_pending (s : State) : (acceptSearch s).pending = some .search := rfl
@[simp] theorem acceptSearch_cfg (s : State) : (acceptSearch s).cfg = s.cfg := rfl
@[simp] theorem acceptSearch_turns (s : State) : (acceptSearch s).turns = s.turns := rfl
@[simp] theorem acceptSearch_bus (s : State) : (acceptSearch s).bus = s.bus := rfl
@[simp] theorem acceptSearch_fresh (s : State) : (acceptSearch s).fresh = s.fresh := rfl

/-! Completion. -/

@[simp] theorem completeCommand_mem (s : State) : (completeCommand s).mem = s.mem := rfl
@[simp] theorem completeCommand_msgLen (s : State) : (completeCommand s).msgLen = s.msgLen := rfl
@[simp] theorem completeCommand_status (s : State) : (completeCommand s).status = s.status.completed := rfl
@[simp] theorem completeCommand_pending (s : State) : (completeCommand s).pending = none := rfl
@[simp] theorem completeCommand_cfg (s : State) : (completeCommand s).cfg = s.cfg := rfl
@[simp] theorem completeCommand_turns (s : State) : (completeCommand s).turns = s.turns := rfl
@[simp] theorem completeCommand_bus (s : State) : (completeCommand s).bus = s.bus := rfl
@[simp] theorem completeCommand_fresh (s : State) : (completeCommand s).fresh = s.fresh + 1 := rfl

/-! A search ended by ABORT. -/

@[simp] theorem endSearch_mem (s : State) : (endSearch s).mem = s.mem := rfl
@[simp] theorem endSearch_msgLen (s : State) : (endSearch s).msgLen = s.msgLen := rfl
@[simp] theorem endSearch_status (s : State) : (endSearch s).status = s.status.abortedSearch := rfl
@[simp] theorem endSearch_pending (s : State) : (endSearch s).pending = none := rfl
@[simp] theorem endSearch_cfg (s : State) : (endSearch s).cfg = s.cfg := rfl
@[simp] theorem endSearch_turns (s : State) : (endSearch s).turns = s.turns := rfl
@[simp] theorem endSearch_bus (s : State) : (endSearch s).bus = s.bus := rfl
@[simp] theorem endSearch_fresh (s : State) : (endSearch s).fresh = s.fresh := rfl

/-! A read returned to the host. -/

@[simp] theorem returning_mem (s : State) (bs : List Byte) : (s.returning bs).mem = s.mem := rfl
@[simp] theorem returning_msgLen (s : State) (bs : List Byte) : (s.returning bs).msgLen = s.msgLen := rfl
@[simp] theorem returning_status (s : State) (bs : List Byte) : (s.returning bs).status = s.status := rfl
@[simp] theorem returning_pending (s : State) (bs : List Byte) : (s.returning bs).pending = s.pending := rfl
@[simp] theorem returning_cfg (s : State) (bs : List Byte) : (s.returning bs).cfg = s.cfg := rfl
@[simp] theorem returning_turns (s : State) (bs : List Byte) : (s.returning bs).turns = s.turns := rfl
@[simp] theorem returning_bus (s : State) (bs : List Byte) : (s.returning bs).bus = bs := rfl
@[simp] theorem returning_fresh (s : State) (bs : List Byte) : (s.returning bs).fresh = s.fresh + 1 := rfl

/-! The flags. -/

@[simp] theorem issued_fault (t : Status) : t.issued.fault = t.fault := rfl
@[simp] theorem issued_fcode (t : Status) : t.issued.fcode = t.fcode := rfl
@[simp] theorem completed_fault (t : Status) : t.completed.fault = t.fault := rfl
@[simp] theorem completed_fcode (t : Status) : t.completed.fcode = t.fcode := rfl
@[simp] theorem verdict_fault (b : Bool) (t : Status) : (t.verdict b).fault = t.fault := rfl
@[simp] theorem exhausted_fault (t : Status) : t.exhausted.fault = t.fault := rfl
@[simp] theorem abortedSearch_fault (t : Status) : t.abortedSearch.fault = t.fault := rfl

end Sys2Proof.Machine
end

