-- ==== Sys2Proof/Laws/Ops.lean ====
section
/-! SUPPORT. One lemma per shared operation that says once what it can do: reads of data buffers, writes of data
buffers, the two steps of a command. -/

namespace Sys2Proof.Machine

/-! Reads. -/

@[simp] theorem bytesAt_length (s : State) (a n : Nat) : (s.bytesAt a n).length = n := by simp [State.bytesAt]

theorem bytesAt_getElem? (s : State) (a n k : Nat) (h : k < n) : (s.bytesAt a n)[k]? = some (s.byteAt (a + k)) := by
  simp [State.bytesAt, h]

/-- A byte that is listed reads as it is listed, whatever the free values are. -/
theorem byteAt_of_listed {s : State} {a : Nat} {b : Byte} (h : readCell s.mem a = some b) : s.byteAt a = b := by
  simp [State.byteAt, h]

/-- Bytes that have been written read as they stand. -/
theorem bytesAt_of_holds {s : State} {a : Nat} {bs : List Byte} (h : s.Holds a bs) : s.bytesAt a bs.length = bs := by
  apply List.ext_getElem?
  intro k
  by_cases hk : k < bs.length
  · rw [bytesAt_getElem? s a _ k hk, List.getElem?_eq_getElem hk]
    rw [byteAt_of_listed ((h k hk).trans (List.getElem?_eq_getElem hk))]
  · rw [List.getElem?_eq_none (by simpa using hk), List.getElem?_eq_none (by simpa using hk)]

/-- Two states that list the same written bytes read them alike, whatever their counters. -/
theorem bytesAt_congr {s t : State} {a n : Nat} (hw : s.Written a n)
    (h : ∀ k, k < n → readCell t.mem (a + k) = readCell s.mem (a + k)) : t.bytesAt a n = s.bytesAt a n := by
  apply List.map_congr_left
  intro k hk
  have hk := List.mem_range.mp hk
  obtain ⟨b, hb⟩ := Option.isSome_iff_exists.mp (hw k hk)
  rw [byteAt_of_listed hb, byteAt_of_listed ((h k hk).trans hb)]

/-- The same bytes seen from a later start. -/
theorem bytesAt_drop (s : State) (a n k : Nat) : (s.bytesAt a n).drop k = s.bytesAt (a + k) (n - k) := by
  apply List.ext_getElem?
  intro j
  rw [List.getElem?_drop]
  by_cases h : k + j < n
  · rw [bytesAt_getElem? s a n _ h, bytesAt_getElem? s _ _ _ (by omega), Nat.add_assoc]
  · rw [List.getElem?_eq_none (by simp; omega), List.getElem?_eq_none (by simp; omega)]

/-- The same bytes, fewer of them. -/
theorem bytesAt_take (s : State) (a n k : Nat) (h : k ≤ n) : (s.bytesAt a n).take k = s.bytesAt a k := by
  apply List.ext_getElem?
  intro j
  rw [List.getElem?_take]
  by_cases hj : j < k
  · rw [if_pos hj, bytesAt_getElem? s a n j (by omega), bytesAt_getElem? s a k j hj]
  · rw [if_neg hj, List.getElem?_eq_none (by simpa using hj)]

/-! Writes. -/

/-- After a write the bytes stand there. -/
theorem holds_put (s : State) (r : Region) (off : Nat) (bs : List Byte) :
    (s.put r off bs).Holds (r.base + off) bs := by
  intro k hk
  exact readCell_writeCells_inside s.mem _ bs k hk

/-- A write changes nothing outside its bytes. -/
theorem sameOutside_put (s : State) (r : Region) (off : Nat) (bs : List Byte) :
    SameOutside s (s.put r off bs) [(r.base + off, bs.length)] := by
  intro a h
  exact readCell_writeCells_outside s.mem _ bs a (h _ (List.mem_singleton.mpr rfl))

/-- Two changes, one after the other. -/
theorem SameOutside.trans {s t u : State} {R R' : List (Nat × Nat)} (h : SameOutside s t R) (h' : SameOutside t u R') :
    SameOutside s u (R ++ R') := by
  intro a ha
  rw [h' a (fun r hr => ha r (List.mem_append.mpr (.inr hr))), h a (fun r hr => ha r (List.mem_append.mpr (.inl hr)))]

/-- Bytes that stand somewhere still stand there after changes elsewhere. -/
theorem State.Holds.of_sameOutside {s t : State} {R : List (Nat × Nat)} {a : Nat} {bs : List Byte} (h : s.Holds a bs)
    (hst : SameOutside s t R) (hR : ∀ r ∈ R, a + bs.length ≤ r.1 ∨ r.1 + r.2 ≤ a) : t.Holds a bs := by
  intro k hk
  rw [hst (a + k) (fun r hr => by have := hR r hr; omega)]
  exact h k hk

/-! The two steps of a command. -/

theorem isRunning_iff (s : State) (i : Instr) : s.isRunning i = true ↔ s.Running i := by
  simp [State.isRunning, State.Running]

theorem not_isRunning_of_idle {s : State} (h : s.Idle) (i : Instr) : s.isRunning i = false := by
  simp [State.isRunning, h.1]

/-- A running command completes. -/
theorem runCommand_running {i : Instr} {s : State} (h : s.Running i) (check : Option CoreFault)
    (effect : State → State) : runCommand i check effect s = .next (completeCommand (effect s)) := by
  rw [runCommand, if_pos ((isRunning_iff s i).mpr h)]

/-- In the idle state a command is accepted if its checks pass. -/
theorem runCommand_accepted {i : Instr} {s : State} (h : s.Idle) (effect : State → State) :
    runCommand i none effect s = .next (acceptCommand i s) := by
  simp [runCommand, not_isRunning_of_idle h, issueCommand, h.1, h.2]

/-- In the idle state the first check that fails is raised. -/
theorem runCommand_raises {i : Instr} {s : State} (h : s.Idle) (f : CoreFault) (effect : State → State) :
    runCommand i (some f) effect s = .next (raiseFault f s) := by
  simp [runCommand, not_isRunning_of_idle h, issueCommand, h.1, h.2]

/-- What a command can do: complete, be ignored, be turned away, or be accepted. -/
theorem runCommand_cases {i : Instr} {check : Option CoreFault} {effect : State → State} {s t : State}
    (h : runCommand i check effect s = .next t) :
    (s.Running i ∧ t = completeCommand (effect s)) ∨
    (¬ s.Running i ∧ s.status.fault = true ∧ t = s) ∨
    (¬ s.Running i ∧ s.status.fault = false ∧ s.status.busy = true ∧ t = raiseFault .busyAccess s) ∨
    (∃ f, s.Idle ∧ check = some f ∧ t = raiseFault f s) ∨
    (s.Idle ∧ check = none ∧ t = acceptCommand i s) := by
  by_cases hr : s.Running i
  · rw [runCommand_running hr] at h
    exact .inl ⟨hr, (Host.Outcome.next.inj h).symm⟩
  · have hr' : s.isRunning i = false := by
      rw [← Bool.not_eq_true]
      exact fun hc => hr ((isRunning_iff s i).mp hc)
    simp only [runCommand, hr', Bool.false_eq_true, if_false] at h
    have h := (Host.Outcome.next.inj h).symm
    refine .inr ?_
    cases hf : s.status.fault with
    | true => exact .inl ⟨hr, rfl, by simpa [issueCommand, hf] using h⟩
    | false =>
      refine .inr ?_
      cases hb : s.status.busy with
      | true => exact .inl ⟨hr, rfl, rfl, by simpa [issueCommand, hf, hb] using h⟩
      | false =>
        refine .inr ?_
        cases check with
        | some f => exact .inl ⟨f, ⟨hb, hf⟩, rfl, by simpa [issueCommand, hf, hb] using h⟩
        | none => exact .inr ⟨⟨hb, hf⟩, rfl, by simpa [issueCommand, hf, hb] using h⟩

/-! The checks of the meanings against the table of Safety. -/

theorem checkMsgLen_eq (s : State) :
    checkMsgLen s = if s.cfg.msgMax < s.msgLen.toNat then some .msglenRange else none := by
  by_cases h : s.msgLen.toNat ≤ s.cfg.msgMax <;> simp [checkMsgLen, h]

theorem checkKeyBuf_eq (s : State) :
    checkKeyBuf s = if s.cfg.keyBufLen < 8832 then some .keybufTooSmall else none := by
  by_cases h : 8832 ≤ s.cfg.keyBufLen <;> simp [checkKeyBuf, h]

theorem checkWindow_eq (w n : Nat) (s : State) :
    checkWindow w n s = if s.cfg.keyBufLen < 16 * w + 16 * n then some .windowOob else none := by
  by_cases h : 16 * w + 16 * n ≤ s.cfg.keyBufLen <;> simp [checkWindow, h]

end Sys2Proof.Machine
end

