-- ==== Sys2Proof/Laws/Exec.lean ====
section
/-! SUPPORT. What a command and a step can do, said once: the case analyses that later proofs cite instead of unfolding
`exec` and `step`, and the shape of every command's effect. -/

namespace Sys2Proof.Machine

/-- What a command other than SEARCH does at its completion before the common updates. -/
def effectOf : Instr → State → State
  | .nop | .search | .abort => id
  | .aesrnd l => aesrndEffect l
  | .h256 => h256Effect
  | .h256k w => h256kEffect w
  | .h512 => h512Effect
  | .h512k w => h512kEffect w
  | .sponge => spongeEffect
  | .clmix => clmixEffect
  | .keygen => keygenEffect
  | .final => finalEffect
  | .hash => hashEffect
  | .target => targetEffect
  | .verify => verifyEffect

/-- What step 5 of 30_encoding.md R91 makes of the state. -/
def acceptOf (i : Instr) (s : State) : State := if i = .search then acceptSearch s else acceptCommand i s

theorem operandFault_none (i : Instr) (s : State) (h1 : i.readsMessage = false) (h2 : i.makesKeys = false)
    (h3 : i.windowEnd = 0) : operandFault i s = none := by
  simp [operandFault, h1, h2, h3]

theorem checkMsgKey_eq (s : State) : ((checkMsgLen s).or (checkKeyBuf s)) =
    if s.cfg.msgMax < s.msgLen.toNat then some .msglenRange
    else if s.cfg.keyBufLen < 8832 then some .keybufTooSmall else none := by
  rw [checkMsgLen_eq, checkKeyBuf_eq]
  split <;> simp

/-- Every command but SEARCH and ABORT is `runCommand` with the check that the table of Safety gives it. -/
theorem exec_eq_runCommand (i : Instr) (s : State) (h1 : i ≠ .search) (h2 : i ≠ .abort) :
    exec i s = runCommand i (operandFault i s) (effectOf i) s := by
  cases i with
  | search => exact absurd rfl h1
  | abort => exact absurd rfl h2
  | nop => rw [operandFault_none _ _ rfl rfl rfl]; rfl
  | aesrnd l => rw [operandFault_none _ _ rfl rfl rfl]; rfl
  | h256 => rw [operandFault_none _ _ rfl rfl rfl]; rfl
  | h512 => rw [operandFault_none _ _ rfl rfl rfl]; rfl
  | target => rw [operandFault_none _ _ rfl rfl rfl]; rfl
  | h256k w =>
    simp [exec, execH256k, checkWindow_eq, operandFault, Instr.readsMessage, Instr.makesKeys, Instr.windowEnd, effectOf]
    rfl
  | h512k w =>
    simp [exec, execH512k, checkWindow_eq, operandFault, Instr.readsMessage, Instr.makesKeys, Instr.windowEnd, effectOf]
    rfl
  | sponge =>
    simp [exec, execSponge, checkMsgLen_eq, operandFault, Instr.readsMessage, Instr.makesKeys, Instr.windowEnd, effectOf]
  | clmix =>
    simp [exec, execClmix, checkMsgLen_eq, operandFault, Instr.readsMessage, Instr.makesKeys, Instr.windowEnd, effectOf]
  | keygen =>
    simp [exec, execKeygen, checkKeyBuf_eq, operandFault, Instr.readsMessage, Instr.makesKeys, Instr.windowEnd, effectOf]
  | final =>
    simp [exec, execFinal, checkKeyBuf_eq, operandFault, Instr.readsMessage, Instr.makesKeys, Instr.windowEnd, effectOf]
  | hash =>
    simp [exec, execHash, checkMsgKey_eq, operandFault, Instr.readsMessage, Instr.makesKeys, Instr.windowEnd, effectOf]
  | verify =>
    simp [exec, execVerify, checkMsgKey_eq, operandFault, Instr.readsMessage, Instr.makesKeys, Instr.windowEnd, effectOf]

/-- The running command other than SEARCH completes. -/
theorem exec_running {i : Instr} {s : State} (h : s.Running i) (hs : i ≠ .search) :
    exec i s = .next (completeCommand (effectOf i s)) := by
  by_cases ha : i = .abort
  · subst ha
    simp [exec, execAbort, (isRunning_iff s .abort).mpr h, effectOf]
  · rw [exec_eq_runCommand i s hs ha, runCommand_running h]

/-- The running SEARCH does one iteration. -/
theorem exec_search_running {s : State} (h : s.Running .search) : exec .search s = .next (searchIteration s) := by
  simp [exec, execSearch, (isRunning_iff s .search).mpr h]

/-- In the idle state the first operand check that fails is raised. -/
theorem exec_idle_fault {i : Instr} {s : State} {f : CoreFault} (h : s.Idle) (hf : operandFault i s = some f) :
    exec i s = .next (raiseFault f s) := by
  by_cases hs : i = .search
  · subst hs
    have hc : checkKeyBuf s = operandFault .search s := by
      simp [checkKeyBuf_eq, operandFault, Instr.readsMessage, Instr.makesKeys, Instr.windowEnd]
    simp [exec, execSearch, not_isRunning_of_idle h, issueCommand, h.1, h.2, hc, hf]
  · by_cases ha : i = .abort
    · subst ha
      rw [operandFault_none _ _ rfl rfl rfl] at hf
      simp at hf
    · rw [exec_eq_runCommand i s hs ha, hf]
      exact runCommand_raises h f _

/-- In the idle state a command whose operand checks pass is accepted. -/
theorem exec_idle_accept {i : Instr} {s : State} (h : s.Idle) (hf : operandFault i s = none) :
    exec i s = .next (acceptOf i s) := by
  by_cases hs : i = .search
  · subst hs
    have hc : checkKeyBuf s = operandFault .search s := by
      simp [checkKeyBuf_eq, operandFault, Instr.readsMessage, Instr.makesKeys, Instr.windowEnd]
    simp [exec, execSearch, not_isRunning_of_idle h, issueCommand, h.1, h.2, hc, hf, acceptOf]
  · by_cases ha : i = .abort
    · subst ha
      simp [exec, execAbort, not_isRunning_of_idle h, h.1, h.2, acceptOf]
    · rw [exec_eq_runCommand i s hs ha, hf, runCommand_accepted h, acceptOf, if_neg hs]

/-- What a command can do. -/
theorem exec_cases {i : Instr} {s t : State} (h : exec i s = .next t) :
    (s.Running i ∧ i ≠ .search ∧ t = completeCommand (effectOf i s)) ∨
    (s.Running i ∧ i = .search ∧ t = searchIteration s) ∨
    (¬ s.Running i ∧ (s.status.fault = true ∨ (i = .abort ∧ s.status.busy = true ∧ s.pending ≠ some .search)) ∧
      t = s) ∨
    (¬ s.Running i ∧ i ≠ .abort ∧ s.status.fault = false ∧ s.status.busy = true ∧ t = raiseFault .busyAccess s) ∨
    (i = .abort ∧ s.status.fault = false ∧ s.Running .search ∧ t = endSearch s) ∨
    (∃ f, s.Idle ∧ operandFault i s = some f ∧ t = raiseFault f s) ∨
    (s.Idle ∧ operandFault i s = none ∧ t = acceptOf i s) := by
  by_cases hr : s.Running i
  · by_cases hs : i = .search
    · subst hs
      rw [exec_search_running hr] at h
      exact .inr (.inl ⟨hr, rfl, (Host.Outcome.next.inj h).symm⟩)
    · rw [exec_running hr hs] at h
      exact .inl ⟨hr, hs, (Host.Outcome.next.inj h).symm⟩
  · refine .inr (.inr ?_)
    have hr' : s.isRunning i = false := by
      rw [← Bool.not_eq_true]
      exact fun hc => hr ((isRunning_iff s i).mp hc)
    by_cases hidle : s.Idle
    · cases hf : operandFault i s with
      | some f =>
        rw [exec_idle_fault hidle hf] at h
        exact .inr (.inr (.inr (.inl ⟨f, hidle, rfl, (Host.Outcome.next.inj h).symm⟩)))
      | none =>
        rw [exec_idle_accept hidle hf] at h
        exact .inr (.inr (.inr (.inr ⟨hidle, rfl, (Host.Outcome.next.inj h).symm⟩)))
    · cases hft : s.status.fault with
      | true =>
        refine .inl ⟨hr, .inl rfl, ?_⟩
        by_cases hs : i = .search
        · subst hs
          simpa [exec, execSearch, hr', issueCommand, hft] using h.symm
        · by_cases ha : i = .abort
          · subst ha
            simpa [exec, execAbort, hr', hft] using h.symm
          · rw [exec_eq_runCommand i s hs ha] at h
            simpa [runCommand, hr', issueCommand, hft] using h.symm
      | false =>
        have hb : s.status.busy = true := by
          cases hb : s.status.busy with
          | true => rfl
          | false => exact absurd ⟨hb, hft⟩ hidle
        by_cases ha : i = .abort
        · subst ha
          by_cases hp : s.pending = some .search
          · exact .inr (.inr (.inl ⟨rfl, rfl, ⟨hb, hp⟩, by simpa [exec, execAbort, hr', hft, hb, hp] using h.symm⟩))
          · exact .inl ⟨hr, .inr ⟨rfl, hb, hp⟩, by simpa [exec, execAbort, hr', hft, hb, hp] using h.symm⟩
        · refine .inr (.inl ⟨hr, ha, rfl, hb, ?_⟩)
          by_cases hs : i = .search
          · subst hs
            simpa [exec, execSearch, hr', issueCommand, hft, hb] using h.symm
          · rw [exec_eq_runCommand i s hs ha] at h
            simpa [runCommand, hr', issueCommand, hft, hb] using h.symm

/-- Every command answers a next state, everywhere. -/
theorem exec_next (i : Instr) (s : State) : ∃ t, exec i s = .next t := by
  by_cases hs : i = .search
  · subst hs
    simp only [exec, execSearch]
    split <;> exact ⟨_, rfl⟩
  · by_cases ha : i = .abort
    · subst ha
      simp only [exec, execAbort]
      repeat' split
      all_goals exact ⟨_, rfl⟩
    · rw [exec_eq_runCommand i s hs ha, runCommand]
      split <;> exact ⟨_, rfl⟩

/-! The effects. -/

/-- A write of `n` bytes at `a` changes nothing outside them. -/
theorem sameOutside_put_at (s : State) (r : Region) (off : Nat) (bs : List Byte) {a n : Nat} (ha : r.base + off = a)
    (hn : bs.length = n) : SameOutside s (s.put r off bs) [(a, n)] := by
  subst ha hn
  exact sameOutside_put s r off bs

/-- A change of memory alone, as a change of the state. -/
theorem sameOutside_of_mem {s t : State} {m : Memory} {R : List (Nat × Nat)} (ht : t.mem = m)
    (h : ∀ a, (∀ r ∈ R, ¬ (r.1 ≤ a ∧ a < r.1 + r.2)) → readCell m a = readCell s.mem a) : SameOutside s t R := by
  intro a ha
  rw [ht]
  exact h a ha

/-- What FINAL writes, byte by byte. -/
theorem readCell_finalCells (m : Memory) (kb : List Byte) (d : Block32) (hk : kb.length = 8832) (a : Nat)
    (h1 : ¬ (0x1000 ≤ a ∧ a < 0x1000 + 8832)) (h2 : ¬ (0x0140 ≤ a ∧ a < 0x0140 + 32)) :
    readCell (finalCells m kb d) a = readCell m a := by
  rw [finalCells, readCell_writeCells_outside _ _ _ _ (by rw [Block32.bytes_length]; exact h2),
    readCell_writeCells_outside _ _ _ _ (by rw [hk]; exact h1)]

/-- What HASH writes, byte by byte. -/
theorem readCell_hashCells (m : Memory) (h : HashParts) (hs : h.sponge.length = 64) (hk : h.kb.length = 8832) (a : Nat)
    (ha : ∀ r ∈ [(0x0100, 64), (0x0010, 8), (0x1000, 8832), (0x0140, 32)], ¬ (r.1 ≤ a ∧ a < r.1 + r.2)) :
    readCell (hashCells m h) a = readCell m a := by
  have h1 := ha (0x0100, 64) (by simp)
  have h2 := ha (0x0010, 8) (by simp)
  have h3 := ha (0x1000, 8832) (by simp)
  have h4 := ha (0x0140, 32) (by simp)
  rw [hashCells, readCell_finalCells _ _ _ hk a h3 h4,
    readCell_writeCells_outside _ _ _ _ (by rw [le64Bytes_length]; exact h2),
    readCell_writeCells_outside _ _ _ _ (by rw [hs]; exact h1)]

/-- The writes of FINAL keep the canonical form. -/
theorem finalCells_wf {m : Memory} (h : Memory.wf m) (kb : List Byte) (d : Block32) : Memory.wf (finalCells m kb d) :=
  writeCells_wf (writeCells_wf h _ _) _ _

/-- The writes of HASH keep the canonical form. -/
theorem hashCells_wf {m : Memory} (h : Memory.wf m) (p : HashParts) : Memory.wf (hashCells m p) :=
  finalCells_wf (writeCells_wf (writeCells_wf h _ _) _ _) _ _

/-- A command's effect changes no byte outside the ranges of its row in 10_state.md R45. -/
theorem effectOf_sameOutside (i : Instr) (s : State) (hi : i ≠ .search) :
    SameOutside s (effectOf i s) i.writeRanges := by
  cases i with
  | search => exact absurd rfl hi
  | nop => exact fun a _ => rfl
  | abort => exact fun a _ => rfl
  | aesrnd l => exact sameOutside_put_at s .p (16 * l.val) _ rfl (Lane.bytes_length _)
  | h256 => exact sameOutside_put_at s .y 0 _ rfl (Block32.bytes_length _)
  | h256k w => exact sameOutside_put_at s .y 0 _ rfl (Block32.bytes_length _)
  | h512 => exact sameOutside_put_at s .y 0 _ rfl (Block32.bytes_length _)
  | h512k w => exact sameOutside_put_at s .y 0 _ rfl (Block32.bytes_length _)
  | sponge => exact sameOutside_put_at s .s 0 _ rfl (Block64.bytes_length _)
  | clmix => exact sameOutside_put_at s .mix 0 _ rfl (le64Bytes_length _)
  | keygen =>
    simp only [effectOf, keygenEffect, State.putKB, Instr.writeRanges]
    exact sameOutside_put_at s .kb 0 _ rfl (expandKey_length _ _ _)
  | final =>
    refine sameOutside_of_mem rfl (fun a ha => ?_)
    exact readCell_finalCells _ _ _ (expandKey_length _ _ _) a (ha (0x1000, 8832) (by simp [Instr.writeRanges]))
      (ha (0x0140, 32) (by simp [Instr.writeRanges]))
  | hash =>
    exact sameOutside_of_mem rfl
      (readCell_hashCells s.mem _ (hashParts_sponge_length _ _) (hashParts_kb_length _ _))
  | target => exact sameOutside_put_at s .target 0 _ rfl (difficultyToTarget_length _)
  | verify =>
    exact sameOutside_of_mem rfl
      (readCell_hashCells s.mem _ (hashParts_sponge_length _ _) (hashParts_kb_length _ _))

/-- A command's effect leaves everything but memory and, for VERIFY, the verdict. -/
theorem effectOf_rest (i : Instr) (s : State) :
    (effectOf i s).msgLen = s.msgLen ∧ (effectOf i s).cfg = s.cfg ∧ (effectOf i s).turns = s.turns ∧
    (effectOf i s).bus = s.bus ∧ (effectOf i s).pending = s.pending ∧
    ∃ b, (effectOf i s).status = { s.status with result := b } ∧ (i ≠ .verify → b = s.status.result) := by
  cases i with
  | verify =>
    exact ⟨rfl, rfl, rfl, rfl, rfl, meets (hashParts s.cfg s.message).digest.bytes s.targetBytes, rfl,
      fun h => absurd rfl h⟩
  | _ => exact ⟨rfl, rfl, rfl, rfl, rfl, s.status.result, rfl, fun _ => rfl⟩

/-- A command's effect keeps the canonical form of memory. -/
theorem effectOf_wf {s : State} (i : Instr) (h : Memory.wf s.mem) : Memory.wf (effectOf i s).mem := by
  cases i with
  | nop | search | abort => exact h
  | aesrnd l => exact writeCells_wf h _ _
  | h256 | h256k w | h512 | h512k w => exact writeCells_wf h _ _
  | sponge | clmix | keygen | target => exact writeCells_wf h _ _
  | final => exact finalCells_wf h _ _
  | hash | verify => exact hashCells_wf h _

/-- The candidate's message is the prefix with the nonce after it. -/
theorem candidateParts_eq (s : State) :
    candidateParts s = hashParts s.cfg (s.bytesAt 0x4000 56 ++ le64Bytes s.nonce) := by
  have h : ({ s with mem := candidateCells s }.bytesAt Region.msg.base 64) =
      s.bytesAt 0x4000 56 ++ le64Bytes s.nonce := by
    apply List.ext_getElem?
    intro k
    by_cases hk : k < 64
    · rw [bytesAt_getElem? _ _ _ _ hk]
      have e := readCell_writeCells s.mem (Region.msg.base + 56) (le64Bytes s.nonce) (0x4000 + k)
      simp only [Region.base, le64Bytes_length] at e
      by_cases h56 : k < 56
      · rw [List.getElem?_append_left (by simpa using h56), bytesAt_getElem? _ _ _ _ h56]
        simp only [State.byteAt, candidateCells, Region.base]
        rw [e, if_neg (by omega)]
      · rw [List.getElem?_append_right (by simp; omega), bytesAt_length]
        simp only [State.byteAt, candidateCells, Region.base]
        rw [e, if_pos (by omega), show 0x4000 + k - (0x4000 + 56) = k - 56 by omega,
          List.getElem?_eq_getElem (by simp; omega)]
        rfl
    · rw [List.getElem?_eq_none (by simpa using hk), List.getElem?_eq_none (by simp; omega)]
  rw [candidateParts, h]

/-- Memory after an iteration, byte by byte. -/
theorem readCell_iterationCells (s : State) (v : Word64) (a : Nat)
    (ha : ∀ r ∈ (Instr.search).writeRanges, ¬ (r.1 ≤ a ∧ a < r.1 + r.2)) :
    readCell (iterationCells s v) a = readCell s.mem a := by
  have h1 := ha (0x4038, 8) (by simp [Instr.writeRanges])
  have h2 := ha (0x0020, 8) (by simp [Instr.writeRanges])
  rw [iterationCells, readCell_writeCells_outside _ _ _ _ (by rw [le64Bytes_length]; exact h2),
    readCell_hashCells _ (candidateParts s) (hashParts_sponge_length _ _) (hashParts_kb_length _ _) a
      (fun r hr => ha r (by
        simp only [Instr.writeRanges, List.mem_cons, List.not_mem_nil, or_false] at hr ⊢
        rcases hr with h | h | h | h <;> simp [h])),
    candidateCells, readCell_writeCells_outside _ _ _ _ (by rw [le64Bytes_length]; exact h1)]

/-- The three ways on of an iteration (46_target_verify_search.md R225, R228). -/
theorem searchIteration_cases (s : State) :
    (meets (candidateParts s).digest.bytes s.targetBytes = true ∧
      searchIteration s =
        completeCommand { s with mem := iterationCells s s.nonce, status := s.status.verdict true }) ∨
    (meets (candidateParts s).digest.bytes s.targetBytes = false ∧ s.nonce = BitVec.allOnes 64 ∧
      searchIteration s =
        completeCommand { s with mem := iterationCells s s.nonce, status := s.status.exhausted }) ∨
    (meets (candidateParts s).digest.bytes s.targetBytes = false ∧ s.nonce ≠ BitVec.allOnes 64 ∧
      searchIteration s = { s with mem := iterationCells s (s.nonce + 1#64), fresh := s.fresh + 1 }) := by
  rw [searchIteration]
  cases hm : meets (candidateParts s).digest.bytes s.targetBytes with
  | true => exact .inl ⟨rfl, if_pos rfl⟩
  | false =>
    refine .inr ?_
    by_cases hn : s.nonce = BitVec.allOnes 64
    · exact .inl ⟨rfl, hn, by rw [if_neg Bool.false_ne_true, if_pos hn]⟩
    · exact .inr ⟨rfl, hn, by rw [if_neg Bool.false_ne_true, if_neg hn]⟩

/-- The memory an iteration leaves. -/
theorem searchIteration_mem (s : State) : ∃ v, (searchIteration s).mem = iterationCells s v := by
  rcases searchIteration_cases s with ⟨_, h⟩ | ⟨_, _, h⟩ | ⟨_, _, h⟩
  · exact ⟨s.nonce, by rw [h]; rfl⟩
  · exact ⟨s.nonce, by rw [h]; rfl⟩
  · exact ⟨s.nonce + 1#64, by rw [h]⟩

/-- An iteration leaves `MSGLEN`, the tables, the turns and the bus. -/
theorem searchIteration_rest (s : State) : SameRest s (searchIteration s) := by
  rcases searchIteration_cases s with ⟨_, h⟩ | ⟨_, _, h⟩ | ⟨_, _, h⟩ <;> rw [h] <;> simp [SameRest]

/-- An iteration changes no byte outside the ranges of SEARCH. -/
theorem searchIteration_sameOutside (s : State) : SameOutside s (searchIteration s) (Instr.search).writeRanges := by
  obtain ⟨v, h⟩ := searchIteration_mem s
  exact sameOutside_of_mem h (readCell_iterationCells s v)

/-- An iteration keeps the canonical form of memory. -/
theorem searchIteration_wf {s : State} (h : Memory.wf s.mem) : Memory.wf (searchIteration s).mem := by
  obtain ⟨v, hm⟩ := searchIteration_mem s
  rw [hm]
  exact writeCells_wf (hashCells_wf (writeCells_wf h _ _) _) _ _

/-! Steps. -/

theorem hostDone_iff (s : State) : s.hostDone = true ↔ ∀ a ∈ s.turns, a = .sequencer := by
  simp [State.hostDone]

/-- Once the host has made its last move, the next one is the sequencer's (R246). -/
theorem nextAct_hostDone {s : State} (ha : s.cfg.admitted = true) (hd : s.hostDone = true) :
    nextAct s = sequencerAct { s with turns := s.turns.tail } := by
  obtain ⟨_, _, _, _, _, turns, _, _⟩ := s
  cases turns with
  | nil => simp only [nextAct, ha, if_true, List.tail_nil]
  | cons a rest =>
    obtain rfl : a = .sequencer := (hostDone_iff _).1 hd a (by simp)
    simp only [nextAct, ha, if_true, List.tail_cons]

/-- What a step that goes on is: a settled move, or a command run in the state the move leaves. -/
theorem step_cases {s t : State} (h : step s = .next t) :
    s.cfg.admitted = true ∧
    (nextAct s = .settle t ∨ ∃ i u, nextAct s = .run i u ∧ exec i u = .next t) := by
  have ha : s.cfg.admitted = true := by
    cases hc : s.cfg.admitted with
    | true => rfl
    | false => simp [step, nextAct, hc] at h
  refine ⟨ha, ?_⟩
  rw [step] at h
  split at h
  · rename_i u hu
    exact .inl (hu.trans (congrArg Act.settle (Host.Outcome.next.inj h)))
  · rename_i i u hu
    exact .inr ⟨i, u, hu, h⟩
  · simp at h
  · simp at h

/-- Every way a step can go on, once the turn is taken off the list (`u` is `s` with the turns that are left): the
sequencer or the host runs a command; nothing happens; a read returns; a fault is taken, after a read or not; a legal
write is stored; reset. -/
theorem step_moves {s t : State} (h : step s = .next t) :
    s.cfg.admitted = true ∧ ∃ rest, ∃ u, u = { s with turns := rest } ∧
      (∀ m, Turn.host m ∈ rest → Turn.host m ∈ s.turns) ∧
      ((∃ i, u.Running i ∧ exec i u = .next t) ∨
      (∃ i w, u.Idle ∧ decodeWord w = .ok i ∧ exec i u = .next t) ∨
      (u.status.fault = false ∧ u.status.busy = true ∧ u.pending ≠ some .abort ∧ exec .abort u = .next t) ∨
      t = u ∨
      (∃ bs, t = u.returning bs) ∨
      (∃ bs f, u.status.fault = false ∧ t = raiseFault f (u.returning bs) ∧
        (f = .badAccess ∨ f = .busyAccess)) ∨
      (∃ f, u.status.fault = false ∧ t = raiseFault f u ∧
        (f = .badAccess ∨ f = .busyAccess ∨ f = .illegalCmd)) ∨
      (∃ r addr v, u.Idle ∧ writeTarget s.cfg addr v.length = some r ∧ r ≠ .cmd ∧ t = storePort r addr v u) ∨
      (s.turns.head? = some (.host .reset) ∧ t = resetCore u)) := by
  have seq : ∀ u : State, (sequencerAct u = .settle t ∨ ∃ i v, sequencerAct u = .run i v ∧ exec i v = .next t) →
      (∃ i, u.Running i ∧ exec i u = .next t) ∨ t = u := by
    intro u hu
    rw [sequencerAct] at hu
    cases hb : u.status.busy with
    | false =>
      simp only [hb, Bool.false_eq_true, if_false] at hu
      rcases hu with hu | ⟨i, v, hu, _⟩
      · exact .inr (Act.settle.inj hu).symm
      · simp at hu
    | true =>
      simp only [hb, if_true] at hu
      cases hp : u.pending with
      | none => simp [hp] at hu
      | some j =>
        simp only [hp] at hu
        rcases hu with hu | ⟨i, v, hu, he⟩
        · simp at hu
        · obtain ⟨rfl, rfl⟩ := Act.run.inj hu
          exact .inl ⟨_, ⟨hb, hp⟩, he⟩
  have read : ∀ (addr n : Nat) (u : State), t = hostRead addr n u →
      (∃ bs, t = u.returning bs) ∨ (∃ bs f, u.status.fault = false ∧ t = raiseFault f (u.returning bs) ∧
        (f = .badAccess ∨ f = .busyAccess)) := by
    intro addr n u hu
    rw [hostRead] at hu
    split at hu
    · split at hu
      · exact .inl ⟨_, hu⟩
      · rename_i hc
        exact .inr ⟨_, _, by simpa using hc, hu, .inl rfl⟩
    · split at hu
      · rename_i hc
        exact .inr ⟨_, _, hc.1, hu, .inr rfl⟩
      · exact .inl ⟨_, hu⟩
  have cmd : ∀ (w : BitVec 32) (u : State),
      (hostCommand w u = .settle t ∨ ∃ i v, hostCommand w u = .run i v ∧ exec i v = .next t) →
      (∃ i w, u.Idle ∧ decodeWord w = .ok i ∧ exec i u = .next t) ∨
      (u.status.fault = false ∧ u.status.busy = true ∧ u.pending ≠ some .abort ∧ exec .abort u = .next t) ∨
      t = u ∨
      (∃ f, u.status.fault = false ∧ t = raiseFault f u ∧
        (f = .badAccess ∨ f = .busyAccess ∨ f = .illegalCmd)) := by
    intro w u hu
    rw [hostCommand] at hu
    cases hf : u.status.fault with
    | true =>
      simp only [hf, if_true] at hu
      rcases hu with hu | ⟨i, v, hu, _⟩
      · exact .inr (.inr (.inl (Act.settle.inj hu).symm))
      · simp at hu
    | false =>
      cases hb : u.status.busy with
      | true =>
        simp only [hf, hb, Bool.false_eq_true, if_false, if_true] at hu
        by_cases hw : w = abortWord
        · rw [if_pos hw] at hu
          by_cases hp : u.pending = some .abort
          · rw [if_pos hp] at hu
            rcases hu with hu | ⟨i, v, hu, _⟩
            · exact .inr (.inr (.inl (Act.settle.inj hu).symm))
            · simp at hu
          · rw [if_neg hp] at hu
            rcases hu with hu | ⟨i, v, hu, he⟩
            · simp at hu
            · obtain ⟨rfl, rfl⟩ := Act.run.inj hu
              exact .inr (.inl ⟨rfl, rfl, hp, he⟩)
        · rw [if_neg hw] at hu
          rcases hu with hu | ⟨i, v, hu, _⟩
          · exact .inr (.inr (.inr ⟨_, rfl, (Act.settle.inj hu).symm, .inr (.inl rfl)⟩))
          · simp at hu
      | false =>
        simp only [hf, hb, Bool.false_eq_true, if_false] at hu
        cases hd : decodeWord w with
        | error e =>
          simp only [hd] at hu
          rcases hu with hu | ⟨i, v, hu, _⟩
          · exact .inr (.inr (.inr ⟨_, rfl, (Act.settle.inj hu).symm, .inr (.inr rfl)⟩))
          · simp at hu
        | ok j =>
          simp only [hd] at hu
          rcases hu with hu | ⟨i, v, hu, he⟩
          · simp at hu
          · obtain ⟨rfl, rfl⟩ := Act.run.inj hu
            exact .inl ⟨_, w, ⟨hb, hf⟩, hd, he⟩
  obtain ⟨ha, hn⟩ := step_cases h
  refine ⟨ha, ?_⟩
  simp only [nextAct, ha, if_true] at hn
  cases ht : s.turns with
  | nil =>
    simp only [ht] at hn
    refine ⟨s.turns, s, rfl, fun m hm => ht ▸ hm, ?_⟩
    rcases seq s hn with h | h
    · exact .inl h
    · exact .inr (.inr (.inr (.inl h)))
  | cons m rest =>
    simp only [ht] at hn
    cases m with
    | sequencer =>
      refine ⟨rest, _, rfl, fun m hm => List.mem_cons_of_mem _ hm, ?_⟩
      rcases seq _ hn with h | h
      · exact .inl h
      · exact .inr (.inr (.inr (.inl h)))
    | wait =>
      simp only [pollAct] at hn
      split at hn
      · rcases hn with hn | ⟨i, v, hn, _⟩
        · refine ⟨rest, _, rfl, fun m hm => List.mem_cons_of_mem _ hm, ?_⟩
          rcases read _ _ _ (Act.settle.inj hn).symm with h | h
          · exact .inr (.inr (.inr (.inr (.inl h))))
          · exact .inr (.inr (.inr (.inr (.inr (.inl h)))))
        · simp at hn
      · rcases hn with hn | ⟨i, v, hn, _⟩
        · refine ⟨.sequencer :: .wait :: rest, _, rfl, fun m hm => by simpa using hm, ?_⟩
          rcases read _ _ _ (Act.settle.inj hn).symm with h | h
          · exact .inr (.inr (.inr (.inr (.inl h))))
          · exact .inr (.inr (.inr (.inr (.inr (.inl h)))))
        · simp at hn
    | host m =>
      refine ⟨rest, _, rfl, fun m hm => List.mem_cons_of_mem _ hm, ?_⟩
      cases m with
      | reset =>
        rcases hn with hn | ⟨i, v, hn, _⟩
        · exact .inr (.inr (.inr (.inr (.inr (.inr (.inr (.inr ⟨rfl, (Act.settle.inj hn).symm⟩)))))))
        · simp [hostAct] at hn
      | read addr n =>
        rcases hn with hn | ⟨i, v, hn, _⟩
        · rcases read _ _ _ (Act.settle.inj hn).symm with h | h
          · exact .inr (.inr (.inr (.inr (.inl h))))
          · exact .inr (.inr (.inr (.inr (.inr (.inl h)))))
        · simp [hostAct] at hn
      | write addr v =>
        simp only [hostAct, hostWrite] at hn
        by_cases hf : s.status.fault = true
        · simp only [hf, if_true] at hn
          rcases hn with hn | ⟨i, v, hn, _⟩
          · exact .inr (.inr (.inr (.inl (Act.settle.inj hn).symm)))
          · simp at hn
        · have hff : s.status.fault = false := by simpa using hf
          simp only [hff, Bool.false_eq_true, if_false] at hn
          cases hw : writeTarget s.cfg addr.toNat v.length with
          | none =>
            simp only [hw] at hn
            rcases hn with hn | ⟨i, v, hn, _⟩
            · exact .inr (.inr (.inr (.inr (.inr (.inr (.inl
                ⟨_, hff, (Act.settle.inj hn).symm, .inl rfl⟩))))))
            · simp at hn
          | some r =>
            simp only [hw] at hn
            by_cases hr : r = .cmd
            · subst hr
              rcases cmd _ _ hn with h | h | h | h
              · exact .inr (.inl h)
              · exact .inr (.inr (.inl h))
              · exact .inr (.inr (.inr (.inl h)))
              · exact .inr (.inr (.inr (.inr (.inr (.inr (.inl h))))))
            · cases hb : s.status.busy with
              | true =>
                have hn : Act.settle (raiseFault .busyAccess { s with turns := rest }) = .settle t := by
                  cases r <;> simp_all
                exact .inr (.inr (.inr (.inr (.inr (.inr (.inl
                  ⟨_, hff, (Act.settle.inj hn).symm, .inr (.inl rfl)⟩))))))
              | false =>
                have hn : Act.settle (storePort r addr.toNat v { s with turns := rest }) = .settle t := by
                  cases r <;> simp_all
                exact .inr (.inr (.inr (.inr (.inr (.inr (.inr (.inl
                  ⟨r, addr.toNat, v, ⟨hb, hff⟩, hw, hr, (Act.settle.inj hn).symm⟩)))))))

/-- The first step of `withFetchWord`'s state is the write of the word. -/
theorem nextAct_placeCommand (w : BitVec 32) (s : State) (h : s.cfg.admitted = true) :
    nextAct (placeCommand w s) =
      hostAct (.write 0x0000#16 (le32Bytes w)) { placeCommand w s with turns := s.turns } := by
  simp [nextAct, placeCommand, h]

/-- The memory of the machine right after reset has the canonical form. -/
theorem reset_memory_wf : Memory.wf State.reset.mem := List.Pairwise.nil

/-- Reset leaves a memory in the canonical form. -/
theorem resetCore_memory_wf (s : State) : Memory.wf (resetCore s).mem := List.Pairwise.nil

end Sys2Proof.Machine
end

