-- ==== Sys2Proof/Laws/PerInstr.lean ====
section
/-! SUPPORT. The family EncodeFields: the encoder puts every operand of a command into its field of the word and leaves
every other field 0 (30_encoding.md R90 to R92), one lemma a command. -/

namespace Sys2Proof.Laws.EncodeFields

/-- The four fields of the word of a well-formed command. -/
def Statement (i : Instr) : Prop :=
  i.wellFormed = true →
    (opField (encode i)).toNat = i.opcode ∧ (laneField (encode i)).toNat = i.laneBits ∧ zField (encode i) = 0#6 ∧
    (windowField (encode i)).toNat = i.windowBits

/-- The fields of a word made of an opcode, a lane and a window. -/
theorem of_bounds (i : Instr) (ho : i.opcode < 256) (hl : i.laneBits < 4)
    (hw : i.wellFormed = true → i.windowBits < 65536) : Statement i := by
  intro h
  have hw := hw h
  have e : (encode i).toNat = i.opcode + 256 * i.laneBits + 65536 * i.windowBits := by
    simp only [encode, BitVec.toNat_ofNat]
    omega
  refine ⟨?_, ?_, ?_, ?_⟩
  · simp only [opField, BitVec.extractLsb'_toNat, e, Nat.shiftRight_eq_div_pow]
    omega
  · simp only [laneField, BitVec.extractLsb'_toNat, e, Nat.shiftRight_eq_div_pow]
    omega
  · apply BitVec.eq_of_toNat_eq
    simp only [zField, BitVec.extractLsb'_toNat, e, BitVec.toNat_ofNat, Nat.shiftRight_eq_div_pow]
    omega
  · simp only [windowField, BitVec.extractLsb'_toNat, e, Nat.shiftRight_eq_div_pow]
    omega

theorem nop : Statement .nop := of_bounds _ (by decide) (by decide) (fun _ => by decide)
theorem aesrnd (l : Fin 4) : Statement (.aesrnd l) := of_bounds _ (by simp [Instr.opcode]) l.isLt (fun _ => by simp [Instr.windowBits])
theorem h256 : Statement .h256 := of_bounds _ (by decide) (by decide) (fun _ => by decide)
theorem h256k (w : Nat) : Statement (.h256k w) :=
  of_bounds _ (by simp [Instr.opcode]) (by simp [Instr.laneBits])
    (fun h => by simpa [Instr.wellFormed, Instr.windowBits] using h)
theorem h512 : Statement .h512 := of_bounds _ (by decide) (by decide) (fun _ => by decide)
theorem h512k (w : Nat) : Statement (.h512k w) :=
  of_bounds _ (by simp [Instr.opcode]) (by simp [Instr.laneBits])
    (fun h => by simpa [Instr.wellFormed, Instr.windowBits] using h)
theorem sponge : Statement .sponge := of_bounds _ (by decide) (by decide) (fun _ => by decide)
theorem clmix : Statement .clmix := of_bounds _ (by decide) (by decide) (fun _ => by decide)
theorem keygen : Statement .keygen := of_bounds _ (by decide) (by decide) (fun _ => by decide)
theorem final : Statement .final := of_bounds _ (by decide) (by decide) (fun _ => by decide)
theorem hash : Statement .hash := of_bounds _ (by decide) (by decide) (fun _ => by decide)
theorem target : Statement .target := of_bounds _ (by decide) (by decide) (fun _ => by decide)
theorem verify : Statement .verify := of_bounds _ (by decide) (by decide) (fun _ => by decide)
theorem search : Statement .search := of_bounds _ (by decide) (by decide) (fun _ => by decide)
theorem abort : Statement .abort := of_bounds _ (by decide) (by decide) (fun _ => by decide)

end Sys2Proof.Laws.EncodeFields
end

