-- ==== Sys2Proof/Tests/Slice0.lean ====
section
/-! SUPPORT. Tests. Expected values are those the spec prints (mostly 95_test_vectors.md, section named in the comment
of each group), never the model's own. After them one theorem
`witness_<Name>` for each obligation that has hypotheses: concrete states and operands that meet them, clause by
clause. -/

namespace Sys2Proof.Machine

/-! One theorem is checked after another: the threads' stacks stay few. -/
set_option Elab.async false

/-! Helpers: an idle machine with the default table and the test keys of 95_test_vectors.md. -/

/-- The configuration the spec's vectors use. -/
def testConfig : Config :=
  { rc := defaultRc
    kEven := 0x0123456789ABCDEF#64
    kOdd := 0xFEDCBA9876543210#64
    msgRoom := ⟨49088, by decide⟩
    keyBufLen := 8832 }

/-- That machine, idle, nothing written. -/
def idle : State := { State.reset with cfg := testConfig }

/-- That machine with command `i` issued. -/
def running (i : Instr) : State :=
  { idle with
    pending := some i
    status := { Status.cleared with busy := true }
    msgLen := if i = .search then 64#32 else 0#32 }

/-- The same with bytes written at host addresses. -/
def State.holding (s : State) (cells : List (Nat × List Byte)) : State :=
  { s with mem := cells.foldl (fun m c => writeCells m c.1 c.2) s.mem }

/-- The same with turns placed. -/
def State.withTurns (s : State) (ts : List Turn) : State := { s with turns := ts }

/-- The numbers a, a+1, ... as bytes: the spec's `00 .. 1f`. -/
def upTo (a n : Nat) : List Byte := (List.range n).map (fun k => BitVec.ofNat 8 (a + k))

/-- The bytes a command leaves at a host address. -/
def bytesAfter (o : Host.Outcome State Fault Refusal) (a n : Nat) : Option (List Byte) :=
  match o with
  | .next t => some (t.bytesAt a n)
  | .fault _ => none
  | .refused _ => none

/-- The word `STATUS` a move leaves. -/
def statusAfter (o : Host.Outcome State Fault Refusal) : Option (BitVec 32) :=
  match o with
  | .next t => some t.status.toWord
  | .fault _ => none
  | .refused _ => none

/-- The command pending after a move. -/
def pendingAfter (o : Host.Outcome State Fault Refusal) : Option Instr :=
  match o with
  | .next t => t.pending
  | .fault _ => none
  | .refused _ => none

/-! Well-formedness: an ill-formed term for each check. -/

theorem test_wellFormed_refuses_h256k_window : (Instr.h256k 65536).wellFormed = false := by decide
theorem test_wellFormed_refuses_h512k_window : (Instr.h512k 65536).wellFormed = false := by decide
theorem test_wellFormed_accepts_last_window : (Instr.h512k 65535).wellFormed = true := by decide
theorem test_config_accepts : testConfig.wellFormed = true := by decide +kernel
theorem test_config_refuses_short_key_buffer : { testConfig with keyBufLen := 8831 }.wellFormed = false := by
  decide +kernel
theorem test_config_refuses_short_table : { testConfig with rc := [] }.wellFormed = false := by decide +kernel
theorem test_config_admits_short_key_buffer : { testConfig with keyBufLen := 8831 }.admitted = true := by
  decide +kernel
theorem test_config_refuses_long_key_buffer : { testConfig with keyBufLen := 8833 }.admitted = false := by
  decide +kernel
theorem test_config_refuses_short_table_admitted : { testConfig with rc := [] }.admitted = false := by decide +kernel
theorem test_step_refuses_config :
    step { idle with cfg := { testConfig with rc := [] } } = .refused .illFormedConfig := rfl

/-! Decoding: every command's word written out from the rows of 30_encoding.md R93. -/

theorem test_decode_nop : decode [0x00#8, 0x00#8, 0x00#8, 0x00#8] = .ok .nop := by decide
theorem test_decode_aesrnd : decode [0x01#8, 0x02#8, 0x00#8, 0x00#8] = .ok (.aesrnd 2) := by decide
theorem test_decode_aesrnd_last_lane : decode [0x01#8, 0x03#8, 0x00#8, 0x00#8] = .ok (.aesrnd 3) := by decide
theorem test_decode_h256 : decode [0x02#8, 0x00#8, 0x00#8, 0x00#8] = .ok .h256 := by decide
theorem test_decode_h256k : decode [0x03#8, 0x00#8, 0x14#8, 0x02#8] = .ok (.h256k 532) := by decide
theorem test_decode_h512 : decode [0x04#8, 0x00#8, 0x00#8, 0x00#8] = .ok .h512 := by decide
theorem test_decode_h512k : decode [0x05#8, 0x00#8, 0x64#8, 0x00#8] = .ok (.h512k 100) := by decide
theorem test_decode_sponge : decode [0x06#8, 0x00#8, 0x00#8, 0x00#8] = .ok .sponge := by decide
theorem test_decode_clmix : decode [0x07#8, 0x00#8, 0x00#8, 0x00#8] = .ok .clmix := by decide
theorem test_decode_keygen : decode [0x08#8, 0x00#8, 0x00#8, 0x00#8] = .ok .keygen := by decide
theorem test_decode_final : decode [0x09#8, 0x00#8, 0x00#8, 0x00#8] = .ok .final := by decide
theorem test_decode_hash : decode [0x0A#8, 0x00#8, 0x00#8, 0x00#8] = .ok .hash := by decide
theorem test_decode_target : decode [0x0B#8, 0x00#8, 0x00#8, 0x00#8] = .ok .target := by decide
theorem test_decode_verify : decode [0x0C#8, 0x00#8, 0x00#8, 0x00#8] = .ok .verify := by decide
theorem test_decode_search : decode [0x0D#8, 0x00#8, 0x00#8, 0x00#8] = .ok .search := by decide
theorem test_decode_abort : decode [0x0E#8, 0x00#8, 0x00#8, 0x00#8] = .ok .abort := by decide

/-! Illegal words (section 3.10). -/

theorem test_illegal_z : decode [0x01#8, 0x04#8, 0x00#8, 0x00#8] = .error .reservedZ := by decide
theorem test_illegal_aesrnd_window : decode [0x01#8, 0x00#8, 0x01#8, 0x00#8] = .error .strayWindow := by decide
theorem test_illegal_h256_lane : decode [0x02#8, 0x01#8, 0x00#8, 0x00#8] = .error .strayLane := by decide
theorem test_illegal_h512k_lane : decode [0x05#8, 0x01#8, 0x64#8, 0x00#8] = .error .strayLane := by decide
theorem test_illegal_first_op : decode [0x0F#8, 0x00#8, 0x00#8, 0x00#8] = .error .unassignedOp := by decide
theorem test_illegal_last_op : decode [0xFF#8, 0x00#8, 0x00#8, 0x00#8] = .error .unassignedOp := by decide
theorem test_table_word : decodeTableWord 32 0x00640005 = some (.h512k 100) := by decide
theorem test_encode_last_window : encode (.h256k 532) = 0x02140003#32 := by decide

/-! The AES round (sections 2.1, 2.3 and 3.1). -/

theorem test_sub_bytes : (subBytes (Lane.ofBytes (upTo 0 16))).bytes =
    [0x63#8, 0x7c#8, 0x77#8, 0x7b#8, 0xf2#8, 0x6b#8, 0x6f#8, 0xc5#8, 0x30#8, 0x01#8, 0x67#8, 0x2b#8, 0xfe#8, 0xd7#8,
      0xab#8, 0x76#8] := by decide +kernel

theorem test_mix_column : mixColumn ⟨0xDB#8, 0x13#8, 0x53#8, 0x45#8⟩ = ⟨0x8E#8, 0x4D#8, 0xA1#8, 0xBC#8⟩ := by
  decide +kernel

/-- FIPS-197 Appendix B, round 1, through the command (program P1). -/
theorem test_aesrnd_fips : bytesAfter (exec (.aesrnd 0) ((running (.aesrnd 0)).holding
    [(0x0080, [0x19#8, 0x3d#8, 0xe3#8, 0xbe#8, 0xa0#8, 0xf4#8, 0xe2#8, 0x2b#8, 0x9a#8, 0xc6#8, 0x8d#8, 0x2a#8, 0xe9#8,
        0xf8#8, 0x48#8, 0x08#8]),
      (0x0040, [0xa0#8, 0xfa#8, 0xfe#8, 0x17#8, 0x88#8, 0x54#8, 0x2c#8, 0xb1#8, 0x23#8, 0xa3#8, 0x39#8, 0x39#8, 0x2a#8,
        0x6c#8, 0x76#8, 0x05#8])])) 0x0080 16 =
    some [0xa4#8, 0x9c#8, 0x7f#8, 0xf2#8, 0x68#8, 0x9f#8, 0x35#8, 0x2b#8, 0x6b#8, 0x5b#8, 0xea#8, 0x43#8, 0x02#8,
      0x6a#8, 0x50#8, 0x49#8] := by decide +kernel

/-- Vector 3.1 g through the command, in lane 2. -/
theorem test_aesrnd_lane_two : bytesAfter (exec (.aesrnd 2) ((running (.aesrnd 2)).holding
    [(0x00A0, upTo 0 16), (0x0040, upTo 0xF0 16)])) 0x00A0 16 =
    some [0x9a#8, 0x9b#8, 0xae#8, 0xb6#8, 0xd8#8, 0x98#8, 0xc5#8, 0xa6#8, 0x48#8, 0x20#8, 0xa7#8, 0x9a#8, 0xdb#8,
      0x61#8, 0xdf#8, 0xa3#8] := by decide +kernel

/-! Haraka (sections 2.4 and 3.2). -/

/-- The lane shuffle of the second lane pair on `00 .. 3f`. -/
theorem test_mix4 : (mix4 (Block64.ofBytes (upTo 0 64))).l1.bytes =
    [0x20#8, 0x21#8, 0x22#8, 0x23#8, 0x00#8, 0x01#8, 0x02#8, 0x03#8, 0x30#8, 0x31#8, 0x32#8, 0x33#8, 0x10#8, 0x11#8,
      0x12#8, 0x13#8] := by decide +kernel

theorem test_h256 : bytesAfter (exec .h256 ((running .h256).holding [(0x0080, upTo 0 32)])) 0x00C0 32 =
    some [0x80#8, 0x27#8, 0xcc#8, 0xb8#8, 0x79#8, 0x49#8, 0x77#8, 0x4b#8, 0x78#8, 0xd0#8, 0x54#8, 0x5f#8, 0xb7#8,
      0x2b#8, 0xf7#8, 0x0c#8, 0x69#8, 0x5c#8, 0x2a#8, 0x09#8, 0x23#8, 0xcb#8, 0xd4#8, 0x7b#8, 0xba#8, 0x11#8, 0x59#8,
      0xef#8, 0xbf#8, 0x2b#8, 0x2c#8, 0x1c#8] := by decide +kernel

theorem test_h512 : bytesAfter (exec .h512 ((running .h512).holding [(0x0080, upTo 0 64)])) 0x00C0 32 =
    some [0xbe#8, 0x7f#8, 0x72#8, 0x3b#8, 0x4e#8, 0x80#8, 0xa9#8, 0x98#8, 0x13#8, 0xb2#8, 0x92#8, 0x28#8, 0x7f#8,
      0x30#8, 0x6f#8, 0x62#8, 0x5a#8, 0x6d#8, 0x57#8, 0x33#8, 0x1c#8, 0xae#8, 0x5f#8, 0x34#8, 0xdd#8, 0x92#8, 0x77#8,
      0xb0#8, 0x94#8, 0x5b#8, 0xe2#8, 0xaa#8] := by decide +kernel

/-- Vector i: `KB[k] = (7k + 3) mod 256`, window 5. -/
theorem test_h256k : bytesAfter (exec (.h256k 5) ((running (.h256k 5)).holding
    [(0x0080, upTo 0 32), (0x1050, (List.range 320).map (fun k => BitVec.ofNat 8 (7 * (80 + k) + 3)))])) 0x00C0 32 =
    some [0x78#8, 0x59#8, 0x21#8, 0xbb#8, 0x74#8, 0x2d#8, 0x8f#8, 0xa6#8, 0x0e#8, 0x28#8, 0x20#8, 0x8b#8, 0x5e#8,
      0x6b#8, 0xe6#8, 0x10#8, 0x19#8, 0xe6#8, 0x48#8, 0x8b#8, 0xe5#8, 0x79#8, 0xf2#8, 0x74#8, 0x1e#8, 0xe6#8, 0xf3#8,
      0x4a#8, 0xca#8, 0x9b#8, 0x30#8, 0x42#8] := by decide +kernel

/-- Vector k: the function of H512K on the bytes of the last legal window. -/
theorem test_h512k : (haraka512 (Block64.ofBytes (upTo 0 64))
    (window ((List.range 640).map (fun k => BitVec.ofNat 8 (7 * (8192 + k) + 3))) 0 40)).bytes =
    [0x15#8, 0x9a#8, 0x2f#8, 0x19#8, 0x82#8, 0x0e#8, 0x6e#8, 0xf0#8, 0x83#8, 0x49#8, 0x2a#8, 0xe4#8, 0xb9#8,
      0xdb#8, 0x80#8, 0xc3#8, 0x93#8, 0xcc#8, 0xbe#8, 0x88#8, 0x30#8, 0xdd#8, 0xa1#8, 0x0f#8, 0x1a#8, 0x3d#8, 0x0d#8,
      0x79#8, 0x59#8, 0xb1#8, 0xbb#8, 0x26#8] := by decide +kernel

/-- Vectors l and m: one window further is WINDOW_OOB. -/
theorem test_h256k_window_oob : statusAfter (exec (.h256k 533) idle) = some 0x00000204#32 := by decide +kernel
theorem test_h512k_window_oob : statusAfter (exec (.h512k 513) idle) = some 0x00000204#32 := by decide +kernel

/-! The sponge (section 3.4). -/

/-- `00 .. 20`, 33 bytes: two chunks. -/
theorem test_sponge_two_chunks : bytesAfter (exec .sponge { (running .sponge).holding [(0x4000, upTo 0 33)] with
    msgLen := 33#32 }) 0x0100 33 =
    some [0x10#8, 0x3a#8, 0xac#8, 0x09#8, 0x98#8, 0x34#8, 0x98#8, 0x93#8, 0x2d#8, 0x16#8, 0x08#8, 0x4f#8, 0x29#8,
      0xdb#8, 0xb2#8, 0xab#8, 0x14#8, 0x7c#8, 0xf4#8, 0xa7#8, 0x7c#8, 0x0e#8, 0xf5#8, 0x29#8, 0x5f#8, 0xeb#8, 0x5f#8,
      0x0d#8, 0xd0#8, 0x97#8, 0x9c#8, 0xaa#8, 0x00#8] := by decide +kernel

/-- The empty message, no byte of `MSG` read. -/
theorem test_sponge_empty : bytesAfter (exec .sponge (running .sponge)) 0x0100 4 =
    some [0x61#8, 0x65#8, 0x45#8, 0x4b#8] := by decide +kernel

/-! The mixer (section 3.3). -/

theorem test_clmul_keys : clmul64 0x0123456789ABCDEF#64 0xFEDCBA9876543210#64 = 0x40A0789828C810F0#64 := by
  decide +kernel

/-- "abc" with its sponge state in `S`. -/
theorem test_clmix_abc : bytesAfter (exec .clmix { (running .clmix).holding [(0x4000, [0x61#8, 0x62#8, 0x63#8]),
    (0x0100, [0x0b#8, 0x6c#8, 0x5e#8, 0x34#8, 0xcf#8, 0x8e#8, 0xb1#8, 0xa7#8, 0xfe#8, 0x43#8, 0xa0#8, 0x82#8, 0xce#8,
      0x98#8, 0x86#8, 0x4f#8, 0xf6#8, 0x1e#8, 0xf7#8, 0x90#8, 0x18#8, 0x55#8, 0x00#8, 0x29#8, 0xbe#8, 0xe5#8, 0xc0#8,
      0x98#8, 0x5a#8, 0x0f#8, 0x01#8, 0x8e#8] ++ zeros 32)] with msgLen := 3#32 }) 0x0010 8 =
    some [0x64#8, 0xac#8, 0x83#8, 0xee#8, 0xea#8, 0x38#8, 0xb0#8, 0xdd#8] := by decide +kernel

/-! The key stream (section 3.5), seed the sponge of the empty message. -/

/-- The sponge of the empty message. -/
def emptySponge : List Byte :=
  [0x61#8, 0x65#8, 0x45#8, 0x4b#8, 0x61#8, 0xda#8, 0xe9#8, 0xb5#8, 0x3d#8, 0x08#8, 0x6b#8, 0x1a#8, 0x01#8, 0xd6#8,
    0x76#8, 0x4a#8, 0x91#8, 0x1b#8, 0x2a#8, 0x47#8, 0x07#8, 0xcd#8, 0x23#8, 0x64#8, 0x0a#8, 0xb1#8, 0x48#8, 0xb3#8,
    0xdb#8, 0x65#8, 0xca#8, 0xf3#8]

/-- The last four bytes of block 0 and the first four of block 1. -/
theorem test_keygen_blocks :
    (((expandKey defaultRc (Block32.ofBytes emptySponge) 8832).drop 28).take 8) =
    [0x34#8, 0x84#8, 0x8c#8, 0x22#8, 0x41#8, 0x13#8, 0xe8#8, 0x84#8] := by decide +kernel

/-! The finalizer and the composed hash (section 3.6). -/

theorem test_window_index_wraps : windowIndex 0x0000000000000200#64 = 0 := by decide
theorem test_window_index_last : windowIndex 0xFFFFFFFFFFFFFFFF#64 = 511 := by decide

/-- The middle of the final state of "abc", least significant byte of `MIX` first. -/
theorem test_final_state : ((finalState emptySponge 0xDDB038EAEE83AC64#64).drop 32).take 9 =
    [0x64#8, 0xac#8, 0x83#8, 0xee#8, 0xea#8, 0x38#8, 0xb0#8, 0xdd#8, 0x00#8] := by decide +kernel

theorem test_final_done : statusAfter (exec .final (running .final)) = some 0x00000002#32 := by decide +kernel
theorem test_hash_done : statusAfter (exec .hash (running .hash)) = some 0x00000002#32 := by decide +kernel

/-! The target codec (section 3.7). -/

/-- `DIFF` = 12 through the command. -/
theorem test_target_twelve : bytesAfter (exec .target ((running .target).holding
    [(0x0018, [0x0C#8, 0x00#8, 0x00#8, 0x00#8, 0x00#8, 0x00#8, 0x00#8, 0x00#8])])) 0x0160 32 =
    some ([0x00#8, 0x0F#8] ++ List.replicate 30 0xFF#8) := by decide +kernel

theorem test_target_top : difficultyToTarget 0xFFFFFFFFFFFFFFFF#64 = zeros 32 := by decide +kernel

/-! Verification (section 3.8) and search (section 3.9). -/

/-- What a target of all ones accepts: everything (section 1.5). -/
theorem test_all_ones_accepts (dg : List Byte) (h : dg.length = 32) :
    meets dg (List.replicate 32 0xFF#8) = true := by
  have key : ∀ (n : Nat) (l : List Byte), l.length = n → lexAtMost l (List.replicate n 0xFF#8) = true := by
    intro n
    induction n with
    | zero =>
      intro l hl
      rw [List.length_eq_zero_iff.mp hl]
      rfl
    | succ n ih =>
      intro l hl
      obtain ⟨a, l', rfl, hl'⟩ := exists_cons_of_length hl
      rw [List.replicate_succ, lexAtMost]
      split
      · exact ih l' hl'
      · rename_i hne
        have ha := a.isLt
        rw [decide_eq_true_iff, BitVec.lt_def]
        have : a.toNat ≠ 255 := fun he => hne (BitVec.eq_of_toNat_eq he)
        show a.toNat < 255
        omega
  exact key 32 dg.reverse (by simpa using h)

/-- The digest of 64 zero bytes, section 3.6. -/
def zeroDigest : List Byte :=
  [0x94#8, 0xbb#8, 0x37#8, 0x02#8, 0x15#8, 0x46#8, 0xe2#8, 0x36#8, 0xf5#8, 0x5c#8, 0x94#8, 0xb1#8, 0x27#8, 0x1b#8,
    0x8a#8, 0x95#8, 0x1f#8, 0xa4#8, 0x59#8, 0xab#8, 0xe2#8, 0xb0#8, 0x4c#8, 0x7a#8, 0x4b#8, 0xec#8, 0x39#8, 0xef#8,
    0x91#8, 0x07#8, 0xc3#8, 0x0b#8]

/-- The whole pipeline on 64 zero bytes. -/
theorem test_hash_zeros : (hash testConfig (zeros 64)).bytes = zeroDigest := by decide +kernel

/-- VERIFY of 64 zero bytes against the reversed digest: equal passes (section 3.8). -/
theorem test_verify_equal : statusAfter (exec .verify { (running .verify).holding
    [(0x4000, zeros 64), (0x0160, zeroDigest.reverse)] with msgLen := 64#32 }) = some 0x0000000A#32 := by
  rw [exec_running ⟨rfl, rfl⟩ (by simp)]
  have hm : State.message { (running .verify).holding [(0x4000, zeros 64), (0x0160, zeroDigest.reverse)] with
      msgLen := 64#32 } = zeros 64 := by decide +kernel
  have ht : State.targetBytes { (running .verify).holding [(0x4000, zeros 64), (0x0160, zeroDigest.reverse)] with
      msgLen := 64#32 } = zeroDigest.reverse := by decide +kernel
  simp only [effectOf, verifyEffect, statusAfter, completeCommand_status, hm, ht, hashParts_digest]
  rw [show State.cfg { (running .verify).holding [(0x4000, zeros 64), (0x0160, zeroDigest.reverse)] with
      msgLen := 64#32 } = testConfig from rfl, test_hash_zeros]
  decide +kernel

/-- The same digest against a target one less: it fails. -/
theorem test_verify_one_less : meets zeroDigest (zeroDigest.reverse.take 31 ++ [0x93#8]) = false := by
  decide +kernel

/-- SEARCH from nonce 0 over 56 zero bytes at difficulty 4: found at once (`digest_be` = 0b c3 ..). -/
theorem test_search_passes : meets zeroDigest (difficultyToTarget 4#64) = true := by decide +kernel

/-- The same at difficulty 8: nonce 0 fails. -/
theorem test_search_fails : meets zeroDigest (difficultyToTarget 8#64) = false := by decide +kernel

theorem test_search_issued : statusAfter (exec .search idle) = some 0x00000001#32 := by decide +kernel

/-! Issue, faults and `STATUS` (section 3.10). -/

theorem test_nop_issued : statusAfter (exec .nop idle) = some 0x00000001#32 := by decide +kernel
theorem test_nop_done : statusAfter (exec .nop (running .nop)) = some 0x00000002#32 := by decide +kernel
theorem test_abort_of_search : statusAfter (exec .abort (running .search)) = some 0x00000012#32 := by decide +kernel
theorem test_abort_of_hash : pendingAfter (exec .abort (running .hash)) = some .hash := by decide +kernel
theorem test_msglen_range : statusAfter (exec .hash { idle with msgLen := 49153#32 }) = some 0x00000404#32 := by
  decide +kernel
theorem test_illegal_command : statusAfter (step (idle.withTurns
    [.host (.write 0x0000#16 [0x01#8, 0x04#8, 0x00#8, 0x00#8])])) = some 0x00000304#32 := by decide +kernel
theorem test_busy_command : statusAfter (step ((running .hash).withTurns
    [.host (.write 0x0000#16 [0x0A#8, 0x00#8, 0x00#8, 0x00#8])])) = some 0x00000504#32 := by decide +kernel
theorem test_read_cmd_while_busy : statusAfter (step ((running .hash).withTurns [.host (.read 0x0000#16 4)])) =
    some 0x00000604#32 := by decide +kernel
theorem test_write_crosses : statusAfter (step (idle.withTurns [.host (.write 0x00BE#16 (zeros 4))])) =
    some 0x00000604#32 := by decide +kernel
theorem test_half_mix : statusAfter (step (idle.withTurns [.host (.write 0x0010#16 (zeros 4))])) =
    some 0x00000604#32 := by decide +kernel
theorem test_placed_word_runs : pendingAfter (step (State.reset.withFetchWord 32 0x00640005)) = some (.h512k 100) := by
  decide +kernel

/-! Witnesses: the hypotheses of every obligation that has some, met together. -/

/-- The idle machine with a key buffer that is one byte too short (60_exceptions.md R253). -/
def shortIdle : State := { idle with cfg := { testConfig with keyBufLen := 8831 } }

/-- The machine in the fault state after an illegal command. -/
def faulted : State := raiseFault .illegalCmd idle

theorem idle_admitted : idle.cfg.admitted = true := by decide +kernel
theorem idle_Idle : idle.Idle := ⟨rfl, rfl⟩
theorem shortIdle_Idle : shortIdle.Idle := ⟨rfl, rfl⟩
theorem running_Running (i : Instr) : (running i).Running i := ⟨rfl, rfl⟩

theorem idle_inv (ts : List Turn) : (idle.withTurns ts).Inv where
  memWf := List.Pairwise.nil
  memInBuffers := by simp [State.withTurns, idle, State.reset]
  busyPending := rfl
  busyFlags := by simp [State.withTurns, idle, State.reset, Status.cleared]
  faultCode := by simp [State.withTurns, idle, State.reset, Status.cleared]
  faultDone := by simp [State.withTurns, idle, State.reset, Status.cleared]
  oneEnding := by simp [State.withTurns, idle, State.reset, Status.cleared]
  pendingChecked := by simp [State.withTurns, idle, State.reset]

theorem running_inv (i : Instr) (hw : i.wellFormed = true) (hf : operandFault i (running i) = none) :
    (running i).Inv where
  memWf := List.Pairwise.nil
  memInBuffers := by simp [running, idle, State.reset]
  busyPending := rfl
  busyFlags := by simp [running, Status.cleared]
  faultCode := by simp [running, Status.cleared]
  faultDone := by simp [running, Status.cleared]
  oneEnding := by simp [running, Status.cleared]
  pendingChecked := by
    intro j hj
    obtain rfl : i = j := by simpa [running] using hj
    exact ⟨hw, hf, fun hs => by simp [running, hs]⟩

theorem faulted_inv (ts : List Turn) : (faulted.withTurns ts).Inv where
  memWf := List.Pairwise.nil
  memInBuffers := by simp [State.withTurns, faulted, idle, State.reset]
  busyPending := rfl
  busyFlags := by simp [State.withTurns, faulted]
  faultCode := by simp [State.withTurns, faulted, idle, State.reset, Status.cleared, CoreFault.code]
  faultDone := by simp [State.withTurns, faulted]
  oneEnding := by simp [State.withTurns, faulted, idle, State.reset, Status.cleared]
  pendingChecked := by simp [State.withTurns, faulted]

/-- The four bytes of the word of HASH. -/
def hashWrite : Turn := .host (.write 0x0000#16 [0x0A#8, 0x00#8, 0x00#8, 0x00#8])

theorem witness_DecodeAndEncodeAgree :
    (Instr.h512k 65535).wellFormed = true ∧ decodeWord 0x00000301#32 = .ok (.aesrnd 3) := by decide

theorem witness_OperandsAreTheWordsFields :
    decodeWord 0x00000301#32 = .ok (.aesrnd 3) ∧ decodeWord 0xFFFF0003#32 = .ok (.h256k 65535) ∧
    decodeWord 0xFFFF0005#32 = .ok (.h512k 65535) ∧ decodeWord 0x0000000D#32 = .ok .search := by decide

theorem witness_IllegalWordsRaiseIllegalCmd :
    (idle.cfg.admitted = true ∧ idle.Idle ∧
      (idle.withTurns [.host (.write 0x0000#16 (le32Bytes 0x0000000F#32))]).turns =
        .host (.write 0x0000#16 (le32Bytes 0x0000000F#32)) :: [] ∧
      decodeWord 0x0000000F#32 = .error .unassignedOp) ∧
    (533 < 65536 ∧ idle.Idle ∧ idle.cfg.keyBufLen < 16 * 533 + 320) ∧
    (513 < 65536 ∧ idle.Idle ∧ idle.cfg.keyBufLen < 16 * 513 + 640) :=
  ⟨⟨idle_admitted, idle_Idle, rfl, by decide⟩, ⟨by decide, idle_Idle, by decide⟩, ⟨by decide, idle_Idle, by decide⟩⟩

theorem witness_WorkedEncodingsDecode : idle.Idle ∧ idle.cfg.keyBufLen = 8832 := ⟨idle_Idle, rfl⟩

theorem witness_CommandWordStepRunsTheCommand :
    idle.cfg.admitted = true ∧ (idle.withTurns [hashWrite]).Idle ∧
    (idle.withTurns [hashWrite]).turns = hashWrite :: [] ∧
    decode [0x0A#8, 0x00#8, 0x00#8, 0x00#8] = .ok .hash :=
  ⟨idle_admitted, ⟨rfl, rfl⟩, rfl, by decide⟩

theorem witness_SequencerStepRunsThePendingCommand :
    (running .hash).cfg.admitted = true ∧ (running .hash).Running .hash ∧ (running .hash).turns = [] ∧
    ((running .hash).withTurns [.sequencer]).turns = .sequencer :: [] :=
  ⟨idle_admitted, running_Running _, rfl, rfl⟩

theorem witness_PlacedWordRunsNext :
    idle.cfg.admitted = true ∧ decodeTableWord 32 0x00640005 = some (.h512k 100) := ⟨idle_admitted, by decide⟩

/-- R246: after the write of NOP and one of two sequencer turns the run has ended well; a WAIT still to come is a move. -/
theorem test_nop_run_ends_well :
    (match runSteps 2 (idle.withTurns [.host (.write 0x0000#16 (encodeBytes .nop)), .sequencer, .sequencer]) with
      | .next t => t.turns == [.sequencer] && t.endedWell && !(t.withTurns [.wait]).ended
      | .fault _ => false
      | .refused _ => false) = true := by decide +kernel

theorem witness_BusyIsNeverStuck :
    (((running .hash).withTurns [.sequencer]).Inv ∧ (running .hash).cfg.admitted = true ∧
      (∀ a ∈ ((running .hash).withTurns [.sequencer]).turns, a = .sequencer) ∧
      (running .hash).status.busy = true ∧ (running .hash).pending = some .hash ∧ Instr.hash ≠ .search) ∧
    ((running .hash).Inv ∧ ∀ a ∈ (running .hash).turns, a = .sequencer) ∧
    (idle.cfg.admitted = true ∧ (∀ a ∈ idle.turns, a = .sequencer) ∧ idle.status.busy = false) ∧
    (faulted.withTurns []).endedInFault = true :=
  have h := running_inv .hash rfl (by decide +kernel)
  ⟨⟨⟨h.1, h.2, h.3, h.4, h.5, h.6, h.7, h.8⟩, idle_admitted, by simp [State.withTurns], rfl, rfl, by decide⟩,
    ⟨h, fun _ ha => absurd ha List.not_mem_nil⟩, ⟨idle_admitted, fun _ ha => absurd ha List.not_mem_nil, rfl⟩, rfl⟩

/-- A step that goes on: the host asserts reset. -/
theorem step_reset_turn (s : State) (h : s.cfg.admitted = true) :
    step (s.withTurns [.host .reset]) = .next (resetCore (s.withTurns [])) := by
  simp [step, nextAct, State.withTurns, h, hostAct]

theorem witness_NoStepChangesTheTables : ∃ s t, step s = .next t := ⟨_, _, step_reset_turn idle idle_admitted⟩

/-- A step in the fault state: an ignored command word. -/
theorem step_faulted : step (faulted.withTurns [hashWrite]) = .next (faulted.withTurns []) := rfl

theorem witness_ResetClearsStatusPendingAndBuffers :
    (faulted.cfg.admitted = true ∧ (faulted.withTurns [.host .reset]).turns = .host .reset :: []) ∧
    ((faulted.withTurns [hashWrite]).Inv ∧ (faulted.withTurns [hashWrite]).status.fault = true ∧
      (faulted.withTurns [hashWrite]).turns.head? ≠ some (.host .reset) ∧
      ∃ t, step (faulted.withTurns [hashWrite]) = .next t) :=
  ⟨⟨idle_admitted, rfl⟩, faulted_inv _, rfl, by decide, _, step_faulted⟩

theorem witness_EveryStepKeepsTheInvariant : ∃ s t, s.Inv ∧ step s = .next t :=
  ⟨_, _, idle_inv _, step_reset_turn idle idle_admitted⟩

/-- Every case of the write of a command word. -/
theorem witness_CommandWriteIssues :
    (idle.cfg.admitted = true ∧ [0x0A#8, 0x00#8, 0x00#8, 0x00#8].length = 4) ∧
    (faulted.withTurns [hashWrite]).status.fault = true ∧
    ((running .hash).status.fault = false ∧ (running .hash).status.busy = true ∧
      le32 [0x0A#8, 0x00#8, 0x00#8, 0x00#8] ≠ 0x0000000E#32) ∧
    (le32 [0x0E#8, 0x00#8, 0x00#8, 0x00#8] = 0x0000000E#32 ∧ (running .search).pending = some .search ∧
      (running .hash).pending ≠ some .search) ∧
    (idle.Idle ∧ decodeWord (le32 [0x0F#8, 0x00#8, 0x00#8, 0x00#8]) = .error .unassignedOp ∧
      decodeWord (le32 [0x0A#8, 0x00#8, 0x00#8, 0x00#8]) = .ok .hash ∧
      operandFault .hash shortIdle = some .keybufTooSmall ∧ operandFault .hash idle = none) :=
  ⟨⟨idle_admitted, rfl⟩, rfl, ⟨rfl, rfl, by decide⟩, ⟨by decide, rfl, by decide⟩, idle_Idle, by decide, by decide,
    by decide +kernel, by decide +kernel⟩

theorem witness_IdleCommandIsAcceptedOrFaults :
    idle.Idle ∧ operandFault .verify idle = none ∧
    operandFault .verify { idle with msgLen := 49153#32 } = some .msglenRange ∧
    operandFault .verify { shortIdle with msgLen := 49153#32 } = some .msglenRange ∧
    operandFault .verify shortIdle = some .keybufTooSmall ∧ operandFault (.h512k 513) idle = some .windowOob :=
  ⟨idle_Idle, by decide +kernel, by decide +kernel, by decide +kernel, by decide +kernel, by decide +kernel⟩

theorem witness_WindowFaultOfKeyedHaraka :
    idle.Idle ∧ idle.cfg.keyBufLen < 16 * 533 + 16 * 20 ∧ idle.cfg.keyBufLen < 16 * 513 + 16 * 40 ∧
    idle.cfg.keyBufLen = 8832 ∧ 532 ≤ 532 ∧ 512 ≤ 512 ∧
    16 * 532 + 16 * 20 ≤ idle.cfg.keyBufLen ∧ 16 * 512 + 16 * 40 ≤ idle.cfg.keyBufLen :=
  ⟨idle_Idle, by decide, by decide, rfl, by decide, by decide, by decide, by decide⟩

theorem witness_KeyBufferTooSmallDependsOnConfigurationOnly :
    (Instr.verify ∈ [Instr.keygen, .final, .hash, .verify, .search] ∧ shortIdle.Idle ∧
      shortIdle.cfg.keyBufLen < 8832 ∧ (Instr.verify.readsMessage = true → shortIdle.msgLen.toNat ≤ shortIdle.cfg.msgMax)) ∧
    ∃ s t, s.Inv ∧ s.cfg.keyBufLen = 8832 ∧ s.status.fcode ≠ 1#8 ∧ step s = .next t :=
  ⟨⟨by decide, shortIdle_Idle, by decide, fun _ => Nat.zero_le _⟩, _, _, faulted_inv _, rfl, by decide, step_faulted⟩

theorem witness_CompletionRaisesNothing :
    ∃ t, (running .hash).Running .hash ∧ exec .hash (running .hash) = .next t ∧ Instr.hash ≠ .search :=
  ⟨_, running_Running _, exec_running (running_Running _) (by decide), by decide⟩

theorem witness_FaultStateIsTerminal :
    (faulted.withTurns [hashWrite]).Inv ∧ (faulted.withTurns [hashWrite]).status.fault = true ∧
    Turn.host .reset ∉ (faulted.withTurns [hashWrite]).turns ∧
    runSteps 1 (faulted.withTurns [hashWrite]) = .next (faulted.withTurns []) :=
  ⟨faulted_inv _, rfl, by decide, rfl⟩

/-- The last byte of `MSG`, the first address past it, a register's whole and half. -/
theorem witness_HostReadReturnsContentsOrFaults :
    idle.cfg.admitted = true ∧
    (Region.msg.readable = true ∧ AccessTo idle.cfg .msg 0xFFFF 1 ∧ Region.msg.isBuffer = true ∧
      idle.status.busy = false) ∧
    (Region.status.readable = true ∧ AccessTo idle.cfg .status (0x0004#16).toNat 4 ∧
      AccessTo idle.cfg .msgLen (0x0008#16).toNat 4) ∧
    (AccessTo (running .hash).cfg .p (0x0080#16).toNat 16 ∧ Region.p ≠ .status ∧
      (running .hash).status.fault = false ∧ (running .hash).status.busy = true) ∧
    (∀ r : Region, r.readable = true → ¬ AccessTo idle.cfg r (0x0000#16).toNat 4) := by
  refine ⟨idle_admitted, by unfold AccessTo; decide, by unfold AccessTo; decide, by unfold AccessTo; decide,
    fun r hr => ?_⟩
  cases r <;> simp_all [AccessTo, Region.readable, Region.whole, Region.base, Region.size]

/-- The last legal byte of `P` before `Y`, a range that crosses, `STATUS`, a busy machine, every scalar. -/
theorem witness_HostWriteStoresOrFaults :
    idle.cfg.admitted = true ∧ faulted.status.fault = true ∧
    (∀ r : Region, r.writable = true → ¬ AccessTo idle.cfg r (0x00BE#16).toNat 4) ∧
    (AccessTo (running .hash).cfg .cmd (0x0000#16).toNat 4 ∧ le32 [0x0A#8, 0x00#8, 0x00#8, 0x00#8] ≠ 0x0000000E#32 ∧
      (running .hash).status.busy = true ∧ (running .hash).status.fault = false) ∧
    (idle.Idle ∧ AccessTo idle.cfg .p (0x00BF#16).toNat 1 ∧ AccessTo idle.cfg .msgLen (0x0008#16).toNat 4 ∧
      AccessTo idle.cfg .mix (0x0010#16).toNat 8 ∧ AccessTo idle.cfg .diff (0x0018#16).toNat 8 ∧
      AccessTo idle.cfg .nonce (0x0020#16).toNat 8) := by
  refine ⟨idle_admitted, rfl, fun r hr => ?_, by unfold AccessTo; decide, idle_Idle, by unfold AccessTo; decide⟩
  cases r <;> simp_all [AccessTo, Region.writable, Region.whole, Region.base, Region.size]

theorem witness_AddressMapRangesAreDisjoint :
    idle.cfg.admitted = true ∧ AccessTo idle.cfg .msg 0xFFFF 1 ∧ AccessTo idle.cfg .msg 0x4000 49152 ∧
    0xFFFF < 0x4000 + 49152 :=
  ⟨idle_admitted, by unfold AccessTo; decide, by unfold AccessTo; decide, by decide⟩

theorem witness_RegistersAreLittleEndianOnTheBus :
    idle.cfg.admitted = true ∧ idle.Idle ∧
    ∀ m : HostMove, (idle.withTurns [.host m]).turns = .host m :: [] := ⟨idle_admitted, idle_Idle, fun _ => rfl⟩

theorem witness_SboxHasItsClosedForm : (0xFF#8 : Byte) ≠ 0#8 := by decide

theorem witness_ShiftRowsMovesRowsLeft : 3 < 4 ∧ 15 < 16 := by decide

theorem witness_AesrndTransformsItsLane : idle.Idle ∧ (running (.aesrnd 3)).Running (.aesrnd 3) :=
  ⟨idle_Idle, running_Running _⟩

/-- A lane whose byte n is n, as the byte in row j of the last column and, shifted, of column (3 + j) mod 4. -/
theorem witness_LaneShufflesFollowTheirMaps : 31 < 32 ∧ 15 < 16 ∧ 3 < 4 ∧
    (∀ j, j < 4 → (Lane.ofBytes (upTo 0 16)).bytes[4 * 3 + j]? = some (BitVec.ofNat 8 (4 * 3 + j))) ∧
    (∀ j, j < 4 →
      (Lane.ofBytes (upTo 0 16)).bytes[4 * ((3 + j) % 4) + j]? = some (BitVec.ofNat 8 (4 * ((3 + j) % 4) + j))) ∧
    (Lane.ofBytes (upTo 0xF0 16)).bytes[4 * 3 + 3]? = some 0xFF#8 := by decide +kernel

theorem witness_HarakaCommandsWriteTheirResult :
    (running .h256).Running .h256 ∧ (running (.h256k 532)).Running (.h256k 532) ∧ 16 * 532 + 320 ≤ 8832 ∧
    (running .h512).Running .h512 ∧ (running (.h512k 512)).Running (.h512k 512) ∧ 16 * 512 + 640 ≤ 8832 ∧
    (∃ k : Nat → Lane, ∀ j, j < 20 → (defaultRc.take 20)[j]? = some (k j)) ∧
    (∃ k : Nat → Lane, ∀ j, j < 40 → defaultRc[j]? = some (k j)) ∧
    (∀ x : Block32, ∃ a b, 31 < 32 ∧ (perm256 x defaultRc).bytes[31]? = some a ∧ x.bytes[31]? = some b) ∧
    (∀ x : Block64, ∃ a b, 31 < 32 ∧ 55 = [8, 24, 32, 48].getD (31 / 8) 0 + 31 % 8 ∧
      (perm512 x defaultRc).bytes[55]? = some a ∧ x.bytes[55]? = some b) :=
  ⟨running_Running _, running_Running _, by decide, running_Running _, running_Running _, by decide,
    ⟨fun j => defaultRc.getD j (Lane.fill 0), by decide⟩, ⟨fun j => defaultRc.getD j (Lane.fill 0), by decide⟩,
    fun _ => ⟨_, _, by decide, rfl, rfl⟩, fun _ => ⟨_, _, by decide, by decide, rfl, rfl⟩⟩

theorem witness_SpongeAbsorbsChunkByChunk :
    (upTo 0 32).length ≤ 32 ∧ upTo 0 32 ≠ [] ∧ upTo 0 64 ≠ [] ∧ (upTo 0 64).length % 32 = 0 := by decide +kernel

theorem witness_TrailingZerosAreInvisible :
    (1 ≤ (upTo 0 1).length ∧ ((upTo 0 1).length + 31) / 32 = ((upTo 0 1).length + 31 + 31) / 32) ∧
    (([] : List Byte) = [] ∧ 32 ≤ 32) := by decide

/-- The boundary of the message length check, and the running command, for SPONGE and CLMIX. -/
theorem witness_SpongeCommandWritesS :
    (State.Idle { idle with msgLen := 49152#32 } ∧ (49152#32).toNat ≤ idle.cfg.msgMax ∧
      idle.cfg.msgMax < (49153#32).toNat) ∧ (running .sponge).Running .sponge :=
  ⟨⟨⟨rfl, rfl⟩, by decide, by decide⟩, running_Running _⟩

theorem witness_ClmulBitsAreGf2Coefficients : 63 < 64 := by decide

theorem witness_ClmulLaws : 63 < 64 := by decide

theorem witness_ClmixConsequences :
    (∀ b ∈ (zeros 64 ++ upTo 1 3).take 64, b = 0#8) ∧
    (upTo 0 65).take 64 = (upTo 0 64 ++ upTo 7 9).take 64 := by decide +kernel

theorem witness_ClmixCommandWritesMix :
    (State.Idle { idle with msgLen := 49152#32 } ∧ (49152#32).toNat ≤ idle.cfg.msgMax ∧
      idle.cfg.msgMax < (49153#32).toNat) ∧ (running .clmix).Running .clmix :=
  ⟨⟨⟨rfl, rfl⟩, by decide, by decide⟩, running_Running _⟩

theorem witness_KeyStreamIsTheHarakaChain : 31 < 32 ∧ 32 * 275 + 31 < 8832 := by decide

theorem witness_KeygenCommandFillsKB :
    idle.Idle ∧ 8832 ≤ idle.cfg.keyBufLen ∧ shortIdle.Idle ∧ shortIdle.cfg.keyBufLen < 8832 ∧
    (running .keygen).Running .keygen := ⟨idle_Idle, by decide, shortIdle_Idle, by decide, running_Running _⟩

theorem witness_FinalCommandWritesKBAndDigest :
    idle.Idle ∧ 8832 ≤ idle.cfg.keyBufLen ∧ shortIdle.Idle ∧ shortIdle.cfg.keyBufLen < 8832 ∧
    (running .final).Running .final := ⟨idle_Idle, by decide, shortIdle_Idle, by decide, running_Running _⟩

/-- Bytes written at one address stand there. -/
theorem holds_of_writeCells {s : State} {m : Memory} {a : Nat} {bs : List Byte} (h : s.mem = writeCells m a bs) :
    s.Holds a bs := by
  intro k hk
  rw [h]
  exact readCell_writeCells_inside m a bs k hk

/-- Bytes written before other bytes elsewhere stand there. -/
theorem holds_of_writeCells_twice {s : State} {m : Memory} {a b : Nat} {bs cs : List Byte}
    (h : s.mem = writeCells (writeCells m a bs) b cs) (hd : b + cs.length ≤ a ∨ a + bs.length ≤ b) : s.Holds a bs := by
  intro k hk
  rw [h, readCell_writeCells_outside _ _ _ _ (by omega)]
  exact readCell_writeCells_inside m a bs k hk

/-- A running FINAL over `S` = 32 zeros and `MIX` = 511, and a running H512K 511 over the key stream of it. -/
theorem witness_FinalizerByHandGivesTheDigest :
    ∃ s s' t t' : State, ∃ (ps : List Byte) (mix : Word64), ps.length = 32 ∧ s.Running .final ∧ s.Holds 0x0100 ps ∧
      s.Holds 0x0010 (le64Bytes mix) ∧ s'.Running (.h512k (mix.toNat % 512)) ∧ s'.cfg = s.cfg ∧
      s'.Holds 0x1000 (expandKey s.cfg.rc (Block32.ofBytes ps) 8832) ∧
      s'.Holds 0x0080 (ps ++ le64Bytes mix ++ zeros 24) ∧
      exec .final s = .next t ∧ exec (.h512k (mix.toNat % 512)) s' = .next t' := by
  refine ⟨{ running .final with mem := writeCells (writeCells [] 0x0100 (zeros 32)) 0x0010 (le64Bytes 511#64) },
    { running (.h512k 511) with
      mem := writeCells (writeCells [] 0x1000 (expandKey testConfig.rc (Block32.ofBytes (zeros 32)) 8832)) 0x0080
        (zeros 32 ++ le64Bytes 511#64 ++ zeros 24) },
    _, _, zeros 32, 511#64, by simp, ⟨rfl, rfl⟩, holds_of_writeCells_twice rfl (by simp), holds_of_writeCells rfl,
    ⟨rfl, rfl⟩, rfl, holds_of_writeCells_twice rfl (by simp), holds_of_writeCells rfl,
    exec_running ⟨rfl, rfl⟩ (by decide), exec_running ⟨rfl, rfl⟩ (by simp)⟩

theorem witness_HashCommandWritesItsFourBuffers : (running .hash).Running .hash := running_Running _

/-- Two messages of three bytes. -/
def abcWritten : State := { idle with mem := writeCells [] 0x4000 (upTo 0x61 3), msgLen := 3#32 }

theorem abcWritten_written : abcWritten.Written 0x4000 abcWritten.msgLen.toNat := by
  intro k hk
  have hk : k < 3 := hk
  have h : abcWritten.Holds 0x4000 (upTo 0x61 3) := holds_of_writeCells rfl
  rw [h k (by simpa [upTo] using hk), List.getElem?_eq_getElem (by simpa [upTo] using hk)]
  rfl

theorem witness_HashEqualsSpongeClmixFinal :
    abcWritten.Idle ∧ 8832 ≤ abcWritten.cfg.keyBufLen ∧ abcWritten.msgLen.toNat ≤ abcWritten.cfg.msgMax ∧
    abcWritten.Written 0x4000 abcWritten.msgLen.toNat :=
  ⟨⟨rfl, rfl⟩, by decide, by decide, abcWritten_written⟩

/-- Zeros as the target, and with a byte of `MSG` past `MSGLEN` or of `TARGET` beside them. -/
def zeroTarget (i : Instr) : State := { running i with mem := writeCells [] 0x0160 (zeros 32) }

theorem zeroTarget_written (i : Instr) : (zeroTarget i).Written 0x0160 32 := by
  intro k hk
  have h : (zeroTarget i).Holds 0x0160 (zeros 32) := holds_of_writeCells rfl
  rw [h k (by simpa using hk), List.getElem?_eq_getElem (by simpa using hk)]
  rfl

/-- Two running VERIFY commands that differ in a byte of `MSG` past `MSGLEN`, and two running HASH commands of which one
has no byte of `TARGET` written and the other all of it. -/
theorem witness_HashForgetsWhatRanBefore :
    (∃ s s' t t' : State, s.Running .verify ∧ s'.Running .verify ∧ s'.cfg = s.cfg ∧ s'.msgLen = s.msgLen ∧
      s.Written 0x4000 s.msgLen.toNat ∧ s.Written 0x0160 32 ∧
      (∀ k, k < s.msgLen.toNat → readCell s'.mem (0x4000 + k) = readCell s.mem (0x4000 + k)) ∧
      (∀ k, k < 32 → readCell s'.mem (0x0160 + k) = readCell s.mem (0x0160 + k)) ∧
      exec .verify s = .next t ∧ exec .verify s' = .next t' ∧ s.mem ≠ s'.mem) ∧
    ∃ s s' t t' : State, s.Running .hash ∧ s'.Running .hash ∧ s'.cfg = s.cfg ∧ s'.msgLen = s.msgLen ∧
      s.Written 0x4000 s.msgLen.toNat ∧
      (∀ k, k < s.msgLen.toNat → readCell s'.mem (0x4000 + k) = readCell s.mem (0x4000 + k)) ∧
      Instr.hash ≠ .verify ∧ readCell s.mem 0x0160 ≠ readCell s'.mem 0x0160 ∧
      exec .hash s = .next t ∧ exec .hash s' = .next t' :=
  ⟨⟨zeroTarget .verify, { zeroTarget .verify with mem := writeCells (zeroTarget .verify).mem 0x4000 [0x07#8] },
    _, _, ⟨rfl, rfl⟩, ⟨rfl, rfl⟩, rfl, rfl, fun k hk => absurd hk (Nat.not_lt_zero k), zeroTarget_written _,
    fun k hk => absurd hk (Nat.not_lt_zero k), fun k hk => readCell_writeCells_outside _ _ _ _ (by simp; omega),
    exec_running ⟨rfl, rfl⟩ (by decide), exec_running ⟨rfl, rfl⟩ (by decide), by decide +kernel⟩,
   running .hash, zeroTarget .hash, _, _, ⟨rfl, rfl⟩, ⟨rfl, rfl⟩, rfl, rfl,
    fun k hk => absurd hk (Nat.not_lt_zero k), fun k hk => absurd hk (Nat.not_lt_zero k), by decide, by decide +kernel,
    exec_running ⟨rfl, rfl⟩ (by decide), exec_running ⟨rfl, rfl⟩ (by decide)⟩

theorem witness_TargetIsTheShiftedAllOnes :
    (255#64 : Word64).toNat ≤ (256#64 : Word64).toNat ∧ 256 ≤ (256#64 : Word64).toNat := by decide

theorem witness_TargetCommandWritesTarget : idle.Idle ∧ (running .target).Running .target :=
  ⟨idle_Idle, running_Running _⟩

theorem witness_MeetsComparesBigEndianNumbers : zeroDigest.length = 32 ∧ zeroDigest.reverse.length = 32 := by decide

theorem witness_VerifyProperties :
    (hash testConfig (zeros 64)).bytes ≠ zeros 32 ∧ zeroDigest.length = 32 := by
  rw [test_hash_zeros]
  exact ⟨by decide, by decide⟩

theorem witness_VerifyCommandSetsResult :
    (idle.Idle ∧ idle.msgLen.toNat ≤ idle.cfg.msgMax ∧ 8832 ≤ idle.cfg.keyBufLen) ∧
    (shortIdle.Idle ∧ operandFault .hash shortIdle = some .keybufTooSmall) ∧
    (running .verify).Running .verify ∧
    ∃ s : State, s.Running .verify ∧ s.bytesAt 0x0160 32 = List.replicate 32 0xFF#8 :=
  ⟨⟨idle_Idle, Nat.zero_le _, by decide⟩, ⟨shortIdle_Idle, by decide +kernel⟩, running_Running _,
    { running .verify with mem := writeCells [] 0x0160 (List.replicate 32 0xFF#8) }, ⟨rfl, rfl⟩,
    bytesAt_of_holds (bs := List.replicate 32 0xFF#8) (holds_of_writeCells rfl)⟩

theorem witness_SearchIssueSetsMessageLength :
    idle.Idle ∧ 8832 ≤ idle.cfg.keyBufLen ∧ shortIdle.Idle ∧ shortIdle.cfg.keyBufLen < 8832 :=
  ⟨idle_Idle, by decide, shortIdle_Idle, by decide⟩

/-- A configuration with both mixer keys 0, so that every digest takes window 0 of the key stream. -/
def zeroKeys : Config := { testConfig with kEven := 0#64, kOdd := 0#64 }

/-- The last candidate over 56 zero bytes fails against a target of zeros. -/
theorem lastCandidate_fails :
    meets (hash zeroKeys (zeros 56 ++ le64Bytes (BitVec.allOnes 64))).bytes (zeros 32) = false := by decide +kernel

/-- A running SEARCH over 56 zero bytes with a nonce and a target. -/
def searching (c : Config) (nonce : Word64) (tgt : List Byte) : State :=
  { running .search with
    cfg := c
    mem := writeCells (writeCells (writeCells [] 0x4000 (zeros 56)) 0x0020 (le64Bytes nonce)) 0x0160 tgt }

theorem searching_holds (c : Config) (nonce : Word64) (tgt : List Byte) (h : tgt.length = 32) :
    (searching c nonce tgt).Holds 0x4000 (zeros 56) ∧ (searching c nonce tgt).Holds 0x0020 (le64Bytes nonce) ∧
    (searching c nonce tgt).Holds 0x0160 tgt := by
  refine ⟨fun k hk => ?_, holds_of_writeCells_twice rfl (by simp), holds_of_writeCells rfl⟩
  have hk' : k < 56 := by simpa using hk
  simp only [searching]
  rw [readCell_writeCells_outside _ _ _ _ (by rw [h]; omega), readCell_writeCells_outside _ _ _ _ (by simp; omega)]
  exact readCell_writeCells_inside _ _ _ _ hk

theorem searching_bytes (c : Config) (nonce : Word64) (tgt : List Byte) (h : tgt.length = 32) :
    (searching c nonce tgt).bytesAt 0x4000 56 = zeros 56 ∧
    le64 ((searching c nonce tgt).bytesAt 0x0020 8) = nonce ∧
    (searching c nonce tgt).bytesAt 0x0160 32 = tgt := by
  obtain ⟨h1, h2, h3⟩ := searching_holds c nonce tgt h
  have e1 := bytesAt_of_holds h1
  have e2 := bytesAt_of_holds h2
  have e3 := bytesAt_of_holds h3
  rw [zeros_length] at e1
  rw [le64Bytes_length] at e2
  rw [h] at e3
  exact ⟨e1, by rw [e2, le64_le64Bytes], e3⟩

/-- The three ways on: found at difficulty 4, exhausted at the last candidate, on to the next at difficulty 8. -/
theorem witness_SearchIterationTestsOneNonce :
    (∃ s : State, s.Running .search ∧ le64 (s.bytesAt 0x0020 8) = 0#64 ∧
      meets (hash s.cfg (s.bytesAt 0x4000 56 ++ le64Bytes 0#64)).bytes (s.bytesAt 0x0160 32) = true) ∧
    (∃ s : State, s.Running .search ∧ le64 (s.bytesAt 0x0020 8) = BitVec.allOnes 64 ∧
      meets (hash s.cfg (s.bytesAt 0x4000 56 ++ le64Bytes (BitVec.allOnes 64))).bytes (s.bytesAt 0x0160 32) = false) ∧
    (∃ s : State, s.Running .search ∧ le64 (s.bytesAt 0x0020 8) = 0#64 ∧ (0#64 : Word64) ≠ BitVec.allOnes 64 ∧
      meets (hash s.cfg (s.bytesAt 0x4000 56 ++ le64Bytes 0#64)).bytes (s.bytesAt 0x0160 32) = false) := by
  have hz : zeros 56 ++ le64Bytes 0#64 = zeros 64 := by decide +kernel
  refine ⟨⟨searching testConfig 0#64 (difficultyToTarget 4#64), ⟨rfl, rfl⟩, ?_⟩,
    ⟨searching zeroKeys (BitVec.allOnes 64) (zeros 32), ⟨rfl, rfl⟩, ?_⟩,
    ⟨searching testConfig 0#64 (difficultyToTarget 8#64), ⟨rfl, rfl⟩, ?_⟩⟩
  · obtain ⟨h1, h2, h3⟩ := searching_bytes testConfig 0#64 (difficultyToTarget 4#64) (by simp)
    refine ⟨h2, ?_⟩
    rw [h1, h3, hz, show (searching testConfig 0#64 (difficultyToTarget 4#64)).cfg = testConfig from rfl,
      test_hash_zeros]
    exact test_search_passes
  · obtain ⟨h1, h2, h3⟩ := searching_bytes zeroKeys (BitVec.allOnes 64) (zeros 32) (by simp)
    refine ⟨h2, ?_⟩
    rw [h1, h3, show (searching zeroKeys (BitVec.allOnes 64) (zeros 32)).cfg = zeroKeys from rfl]
    exact lastCandidate_fails
  · obtain ⟨h1, h2, h3⟩ := searching_bytes testConfig 0#64 (difficultyToTarget 8#64) (by simp)
    refine ⟨h2, by decide, ?_⟩
    rw [h1, h3, hz, show (searching testConfig 0#64 (difficultyToTarget 8#64)).cfg = testConfig from rfl,
      test_hash_zeros]
    exact test_search_fails

/-- Over 56 zero bytes with both keys 0, candidate 1 fails at difficulty 4 and candidate 2 passes. -/
theorem secondCandidate_passes :
    verify zeroKeys (zeros 56 ++ le64Bytes (BitVec.ofNat 64 1)) (difficultyToTarget 4#64) = false ∧
    verify zeroKeys (zeros 56 ++ le64Bytes (BitVec.ofNat 64 2)) (difficultyToTarget 4#64) = true := by decide +kernel

/-- What a search left alone asks of its start, its candidates and its target. -/
def SearchPremises (s : State) (pre tgt : List Byte) (start k : Nat) : Prop :=
  s.cfg.wellFormed = true ∧ s.Idle ∧ pre.length = 56 ∧ tgt.length = 32 ∧ start + k < 2 ^ 64 ∧ s.Holds 0x4000 pre ∧
  s.Holds 0x0160 tgt ∧ s.Holds 0x0020 (le64Bytes (BitVec.ofNat 64 start)) ∧
  (∀ j, j < k → verify s.cfg (pre ++ le64Bytes (BitVec.ofNat 64 (start + j))) tgt = false) ∧
  verify s.cfg (pre ++ le64Bytes (BitVec.ofNat 64 (start + k))) tgt = true

/-- The last nonce against a target of all ones, which passes at once, and a start that fails before the next passes. -/
theorem witness_SearchFindsTheLeastPassingNonce :
    (∃ s, SearchPremises s (zeros 56) (List.replicate 32 0xFF#8) (2 ^ 64 - 1) 0) ∧
    ∃ s, SearchPremises s (zeros 56) (difficultyToTarget 4#64) 1 1 := by
  constructor
  · obtain ⟨h1, h2, h3⟩ :=
      searching_holds testConfig (BitVec.ofNat 64 (2 ^ 64 - 1)) (List.replicate 32 0xFF#8) (by simp)
    exact ⟨{ idle with mem := (searching testConfig (BitVec.ofNat 64 (2 ^ 64 - 1)) (List.replicate 32 0xFF#8)).mem },
      test_config_accepts, ⟨rfl, rfl⟩, by simp, by simp, by decide,
      h1, h3, h2, fun j hj => absurd hj (Nat.not_lt_zero j), test_all_ones_accepts _ (Block32.bytes_length _)⟩
  · obtain ⟨h1, h2, h3⟩ := searching_holds zeroKeys (BitVec.ofNat 64 1) (difficultyToTarget 4#64) (by simp)
    refine ⟨{ idle with cfg := zeroKeys, mem := (searching zeroKeys (BitVec.ofNat 64 1) (difficultyToTarget 4#64)).mem },
      test_config_accepts, ⟨rfl, rfl⟩, by simp, by simp, by decide, h1, h3, h2, fun j hj => ?_,
      secondCandidate_passes.2⟩
    obtain rfl : j = 0 := by omega
    exact secondCandidate_passes.1

theorem witness_NopWritesNoBuffer :
    idle.Idle ∧ (faulted.status.fault = true ∧ faulted.status.busy = false) ∧ (running .nop).Running .nop :=
  ⟨idle_Idle, ⟨rfl, rfl⟩, running_Running _⟩

theorem witness_AbortEndsOnlyASearch :
    (faulted.status.fault = true ∧ faulted.status.busy = false) ∧
    ((running .search).status.fault = false ∧ (running .search).Running .search) ∧
    ((running .hash).status.fault = false ∧ (running .hash).Running .hash ∧ Instr.hash ≠ .search ∧ Instr.hash ≠ .abort) ∧
    ((running .abort).cfg.admitted = true ∧ (running .abort).status.fault = false ∧ (running .abort).Running .abort) ∧
    idle.Idle :=
  ⟨⟨rfl, rfl⟩, ⟨rfl, running_Running _⟩, ⟨rfl, running_Running _, by decide, by decide⟩,
    ⟨idle_admitted, rfl, running_Running _⟩, idle_Idle⟩

theorem witness_CommandsWriteOnlyTheirBuffers : ∃ t, exec .search idle = .next t := exec_next _ _

theorem witness_OperandsSurviveHashVerifySearch :
    (∃ t, exec .hash (running .hash) = .next t) ∧ (∃ t, exec .verify (running .verify) = .next t) ∧
    (∃ t, exec .search (running .search) = .next t) ∧ 55 < 56 :=
  ⟨exec_next _ _, exec_next _ _, exec_next _ _, by decide⟩

end Sys2Proof.Machine
end

section
/-! SUPPORT. The word `STATUS`, bit by bit (10_state.md R37), and the machine right after reset (R43, R291). -/

namespace Sys2Proof.Machine

theorem flagBit_eq_toNat (k : Nat) (b : Bool) : flagBit k b = 2 ^ k * b.toNat := by
  cases b <;> simp [flagBit]

/-- The word as a number: the flags are its binary digits 0 to 5 and the code stands from bit 8 on. -/
theorem toWord_toNat (t : Status) :
    t.toWord.toNat = t.busy.toNat + 2 * t.done.toNat + 4 * t.fault.toNat + 8 * t.result.toNat
      + 16 * t.aborted.toNat + 32 * t.exh.toNat + 256 * t.fcode.toNat := by
  have hb := t.busy.toNat_le
  have hd := t.done.toNat_le
  have hf := t.fault.toNat_le
  have hr := t.result.toNat_le
  have ha := t.aborted.toNat_le
  have he := t.exh.toNat_le
  have hc := t.fcode.isLt
  simp only [Status.toWord, flagBit_eq_toNat, BitVec.toNat_ofNat]
  omega

/-- A bit of a word is the binary digit at its place. -/
theorem getLsbD_eq_of_digit {x : BitVec 32} {k : Nat} {b : Bool} (h : x.toNat / 2 ^ k % 2 = b.toNat) :
    x.getLsbD k = b := by
  rw [← BitVec.testBit_toNat, Nat.testBit_eq_decide_div_mod_eq, h]
  cases b <;> rfl

/-- A field of a word is the number its digits spell. -/
theorem extractLsb'_eq_of_digits {x : BitVec 32} {start len : Nat} {v : BitVec len}
    (h : x.toNat / 2 ^ start % 2 ^ len = v.toNat) : x.extractLsb' start len = v := by
  apply BitVec.eq_of_toNat_eq
  rw [BitVec.extractLsb'_toNat, Nat.shiftRight_eq_div_pow, h]

/-- Settles O25: each field is read off the number that the word is. -/
theorem statusWordLayout : Obligations.StatusWordLayout := by
  unfold Obligations.StatusWordLayout
  intro t
  have hw := toWord_toNat t
  have hb := t.busy.toNat_le
  have hd := t.done.toNat_le
  have hf := t.fault.toNat_le
  have hr := t.result.toNat_le
  have ha := t.aborted.toNat_le
  have he := t.exh.toNat_le
  have hc := t.fcode.isLt
  refine ⟨getLsbD_eq_of_digit ?_, getLsbD_eq_of_digit ?_, getLsbD_eq_of_digit ?_, getLsbD_eq_of_digit ?_,
    getLsbD_eq_of_digit ?_, getLsbD_eq_of_digit ?_, extractLsb'_eq_of_digits ?_, extractLsb'_eq_of_digits ?_,
    extractLsb'_eq_of_digits ?_⟩
  all_goals simp only [hw, BitVec.toNat_ofNat]; omega

theorem defaultRc_length : defaultRc.length = 40 := rfl

/-- The chip's configuration is well formed, whatever its open parameters are (log 4). -/
theorem ofChip_wellFormed : Config.ofChip.wellFormed = true := by
  simp [Config.wellFormed, Config.ofChip, defaultRc_length]

/-- Settles O12: the fields of `State.reset`, one by one. -/
theorem stateAfterReset : Obligations.StateAfterReset := by
  unfold Obligations.StateAfterReset
  exact ⟨by decide, rfl, rfl, fun _ => rfl, ofChip_wellFormed⟩

end Sys2Proof.Machine
end

section
/-! SUPPORT. The frame of every command (10_state.md R45) and of every step (R27, R28). -/

namespace Sys2Proof.Machine

theorem sameOutside_of_mem_eq {s t : State} (h : t.mem = s.mem) (R : List (Nat × Nat)) : SameOutside s t R :=
  sameOutside_of_mem h fun _ _ => rfl

/-! What acceptance leaves in each field, SEARCH or not. -/

@[simp] theorem acceptOf_mem (i : Instr) (s : State) : (acceptOf i s).mem = s.mem := by
  unfold acceptOf; split <;> rfl

@[simp] theorem acceptOf_msgLen (i : Instr) (s : State) :
    (acceptOf i s).msgLen = if i = .search then 64#32 else s.msgLen := by
  unfold acceptOf; split <;> rfl

@[simp] theorem acceptOf_status (i : Instr) (s : State) : (acceptOf i s).status = s.status.issued := by
  unfold acceptOf; split <;> rfl

@[simp] theorem acceptOf_pending (i : Instr) (s : State) : (acceptOf i s).pending = some i := by
  unfold acceptOf; split
  case isTrue hi => rw [hi]; rfl
  case isFalse => rfl

@[simp] theorem acceptOf_cfg (i : Instr) (s : State) : (acceptOf i s).cfg = s.cfg := by
  unfold acceptOf; split <;> rfl

@[simp] theorem acceptOf_turns (i : Instr) (s : State) : (acceptOf i s).turns = s.turns := by
  unfold acceptOf; split <;> rfl

@[simp] theorem acceptOf_bus (i : Instr) (s : State) : (acceptOf i s).bus = s.bus := by
  unfold acceptOf; split <;> rfl

/-- Settles O59: the ways a command can go, each with its frame. -/
theorem commandsWriteOnlyTheirBuffers : Obligations.CommandsWriteOnlyTheirBuffers := by
  unfold Obligations.CommandsWriteOnlyTheirBuffers
  intro i s t h
  rcases exec_cases h with ⟨-, hi, rfl⟩ | ⟨-, rfl, rfl⟩ | ⟨-, -, rfl⟩ | ⟨-, -, -, -, rfl⟩ | ⟨-, -, -, rfl⟩ |
    ⟨f, -, -, rfl⟩ | ⟨-, -, rfl⟩
  case inl => -- completion
    obtain ⟨hlen, hcfg, hturns, hbus, -, -⟩ := effectOf_rest i s
    exact ⟨effectOf_sameOutside i s hi, hcfg, hturns, hbus, .inl hlen⟩
  case inr.inl => -- an iteration of SEARCH
    obtain ⟨hlen, hcfg, hturns, hbus⟩ := searchIteration_rest s
    exact ⟨searchIteration_sameOutside s, hcfg, hturns, hbus, .inl hlen⟩
  case inr.inr.inr.inr.inr.inr => -- acceptance
    have hlen : (acceptOf i s).msgLen = s.msgLen ∨ (i = .search ∧ (acceptOf i s).msgLen = 64#32) := by
      by_cases hi : i = .search <;> simp [hi]
    exact ⟨sameOutside_of_mem_eq (acceptOf_mem i s) _, acceptOf_cfg i s, acceptOf_turns i s, acceptOf_bus i s, hlen⟩
  all_goals exact ⟨sameOutside_of_mem_eq rfl _, rfl, rfl, rfl, .inl rfl⟩

/-- No command changes the configuration. -/
theorem exec_cfg {i : Instr} {s t : State} (h : exec i s = .next t) : t.cfg = s.cfg :=
  (commandsWriteOnlyTheirBuffers i s t h).2.1

@[simp] theorem storePort_cfg (r : Region) (addr : Nat) (v : List Byte) (s : State) :
    (storePort r addr v s).cfg = s.cfg := by
  cases r <;> rfl

/-- Settles O10: no way a step can go on changes the configuration. -/
theorem noStepChangesTheTables : Obligations.NoStepChangesTheTables := by
  unfold Obligations.NoStepChangesTheTables
  intro s t h
  obtain ⟨-, rest, u, hu, -, hm⟩ := step_moves h
  have hcfg : u.cfg = s.cfg := by rw [hu]
  rw [← hcfg]
  rcases hm with ⟨i, -, he⟩ | ⟨i, w, -, -, he⟩ | ⟨-, -, -, he⟩ | rfl | ⟨bs, rfl⟩ | ⟨bs, f, -, rfl, -⟩ |
    ⟨f, -, rfl, -⟩ | ⟨r, addr, v, -, -, -, rfl⟩ | ⟨-, rfl⟩
  case inl | inr.inl | inr.inr.inl => exact exec_cfg he
  all_goals simp

end Sys2Proof.Machine
end

section
/-! SUPPORT. A word decodes to well-formed commands only (30_encoding.md R92, R93). -/

namespace Sys2Proof

theorem plainCommand_wellFormed {i j : Instr} {w : BitVec 32} (hi : i.wellFormed = true)
    (h : plainCommand i w = .ok j) : j.wellFormed = true := by
  rw [plainCommand] at h
  split at h
  · cases h
  · split at h
    · cases h
    · cases h; exact hi

theorem laneCommand_wellFormed {j : Instr} {w : BitVec 32} (h : laneCommand w = .ok j) : j.wellFormed = true := by
  rw [laneCommand] at h
  split at h
  · cases h
  · cases h; rfl

theorem windowCommand_wellFormed {f : Nat → Instr} {j : Instr} {w : BitVec 32}
    (hf : ∀ v, v < 65536 → (f v).wellFormed = true) (h : windowCommand f w = .ok j) : j.wellFormed = true := by
  rw [windowCommand] at h
  split at h
  · cases h
  · cases h; exact hf _ (windowField w).isLt

theorem decodeWord_wellFormed {w : BitVec 32} {i : Instr} (h : decodeWord w = .ok i) : i.wellFormed = true := by
  rw [decodeWord] at h
  split at h
  · cases h
  · split at h
    case h_2 => exact laneCommand_wellFormed h
    case h_4 | h_6 => exact windowCommand_wellFormed (fun v hv => by simpa [Instr.wellFormed] using hv) h
    case h_16 => cases h
    all_goals exact plainCommand_wellFormed rfl h

end Sys2Proof
end

section
/-! SUPPORT. What the invariant says of memory, and that a write inside data buffers keeps it (20_memory.md R63). -/

namespace Sys2Proof.Machine

/-- A byte has been written exactly where memory lists a cell. -/
theorem readCell_isSome_iff (m : Memory) (a : Nat) : (readCell m a).isSome = true ↔ ∃ c ∈ m, c.1 = a := by
  induction m with
  | nil => simp [readCell]
  | cons c m ih =>
    obtain ⟨k, b⟩ := c
    by_cases hk : k = a <;> simp [readCell, hk, ih]

/-- The part of `State.Inv` that speaks of memory. -/
def State.MemoryInv (s : State) : Prop := Memory.wf s.mem ∧ ∀ c ∈ s.mem, inBuffer s.cfg c.1

theorem State.Inv.memoryInv {s : State} (h : s.Inv) : s.MemoryInv := ⟨h.memWf, h.memInBuffers⟩

theorem State.MemoryInv.congr {s t : State} (h : s.MemoryInv) (hmem : t.mem = s.mem) (hcfg : t.cfg = s.cfg) :
    t.MemoryInv := by
  rwa [State.MemoryInv, hmem, hcfg]

theorem Region.mem_all (r : Region) : r ∈ Region.all := by cases r <;> decide

/-- `[a, a+n)` lies inside one data buffer. -/
def InsideBuffer (c : Config) (a n : Nat) : Prop :=
  ∃ r : Region, r.isBuffer = true ∧ r.base ≤ a ∧ a + n ≤ r.base + r.size c

theorem InsideBuffer.inBuffer {c : Config} {a n x : Nat} (h : InsideBuffer c a n) (hx : a ≤ x ∧ x < a + n) :
    inBuffer c x := by
  obtain ⟨r, hb, hlo, hhi⟩ := h
  exact ⟨r, r.mem_all, hb, by omega, by omega⟩

/-- A change of memory inside data buffers keeps memory inside data buffers: a listed byte is an old one or lies in the
changed ranges. -/
theorem State.MemoryInv.of_sameOutside {s t : State} {R : List (Nat × Nat)} (h : s.MemoryInv)
    (hwf : Memory.wf t.mem) (hcfg : t.cfg = s.cfg) (hst : SameOutside s t R)
    (hR : ∀ r ∈ R, InsideBuffer s.cfg r.1 r.2) : t.MemoryInv := by
  refine ⟨hwf, fun c hc => ?_⟩
  rw [hcfg]
  by_cases hin : ∃ r ∈ R, r.1 ≤ c.1 ∧ c.1 < r.1 + r.2
  · obtain ⟨r, hr, hcr⟩ := hin
    exact (hR r hr).inBuffer hcr
  · have hsame : readCell t.mem c.1 = readCell s.mem c.1 := hst c.1 fun r hr hcr => hin ⟨r, hr, hcr⟩
    have hlisted := (readCell_isSome_iff t.mem c.1).mpr ⟨c, hc, rfl⟩
    obtain ⟨d, hd, hdc⟩ := (readCell_isSome_iff s.mem c.1).mp (hsame ▸ hlisted)
    exact hdc ▸ h.2 d hd

/-- A key-stream command whose checks passed has a whole key buffer (60_exceptions.md R253). -/
theorem keyBufLen_of_operandFault_none {i : Instr} {s : State} (hk : i.makesKeys = true)
    (h : operandFault i s = none) : 8832 ≤ s.cfg.keyBufLen := by
  rw [operandFault] at h
  split at h
  · cases h
  · split at h
    · cases h
    · rename_i hc
      exact Nat.le_of_not_lt fun hlt => hc ⟨hk, hlt⟩

/-- Every range a checked command writes lies inside one data buffer (10_state.md R45). -/
theorem writeRanges_insideBuffer {i : Instr} {s : State} (h : operandFault i s = none) :
    ∀ r ∈ i.writeRanges, InsideBuffer s.cfg r.1 r.2 := by
  have hs : InsideBuffer s.cfg 0x0100 64 := ⟨.s, rfl, Nat.le_refl _, Nat.le_refl _⟩
  have hmix : InsideBuffer s.cfg 0x0010 8 := ⟨.mix, rfl, Nat.le_refl _, Nat.le_refl _⟩
  have hdigest : InsideBuffer s.cfg 0x0140 32 := ⟨.digest, rfl, Nat.le_refl _, Nat.le_refl _⟩
  have hy : InsideBuffer s.cfg 0x00C0 32 := ⟨.y, rfl, Nat.le_refl _, Nat.le_refl _⟩
  have hkb (hk : i.makesKeys = true) : InsideBuffer s.cfg 0x1000 8832 :=
    ⟨.kb, rfl, Nat.le_refl _, Nat.add_le_add_left (keyBufLen_of_operandFault_none hk h) _⟩
  cases i with
  | nop | abort => simp [Instr.writeRanges]
  | aesrnd l =>
    have hp : InsideBuffer s.cfg (0x0080 + 16 * l.val) 16 :=
      ⟨.p, rfl, by simp [Region.base], by simp only [Region.base, Region.size]; omega⟩
    simpa [Instr.writeRanges] using hp
  | h256 | h256k w | h512 | h512k w => simpa [Instr.writeRanges] using hy
  | sponge => simpa [Instr.writeRanges] using hs
  | clmix => simpa [Instr.writeRanges] using hmix
  | keygen => simpa [Instr.writeRanges] using hkb rfl
  | final => simpa [Instr.writeRanges] using ⟨hkb rfl, hdigest⟩
  | hash | verify => simpa [Instr.writeRanges] using ⟨hs, hmix, hkb rfl, hdigest⟩
  | target =>
    have htarget : InsideBuffer s.cfg 0x0160 32 := ⟨.target, rfl, Nat.le_refl _, Nat.le_refl _⟩
    simpa [Instr.writeRanges] using htarget
  | search =>
    have hnonce : InsideBuffer s.cfg 0x0020 8 := ⟨.nonce, rfl, Nat.le_refl _, Nat.le_refl _⟩
    have hmsg : InsideBuffer s.cfg 0x4038 8 :=
      ⟨.msg, rfl, by decide, by have := s.cfg.msgMax_bounds; simp only [Region.base, Region.size]; omega⟩
    simpa [Instr.writeRanges] using ⟨hmsg, hnonce, hs, hmix, hkb rfl, hdigest⟩

/-- An access that a data buffer admits lies inside it (20_memory.md R61, R62). -/
theorem insideBuffer_of_admits {c : Config} {r : Region} {addr n : Nat} (hb : r.isBuffer = true)
    (h : r.admits c addr n = true) : InsideBuffer c addr n := by
  rw [Region.admits] at h
  split at h
  · obtain ⟨rfl, rfl⟩ : addr = r.base ∧ n = r.size c := by simpa using h
    exact ⟨r, hb, Nat.le_refl _, Nat.le_refl _⟩
  · obtain ⟨⟨-, hlo⟩, hhi⟩ : (1 ≤ n ∧ r.base ≤ addr) ∧ addr - r.base + n ≤ r.size c := by simpa using h
    exact ⟨r, hb, hlo, by omega⟩

end Sys2Proof.Machine
end

section
/-! SUPPORT. The invariant of every run (10_state.md R37 to R39, 30_encoding.md R91, 60_exceptions.md R251, R259): it
holds at reset, and each way a step can go on keeps it. -/

namespace Sys2Proof.Machine

/-! How a state is shown to meet the invariant. -/

/-- The operand checks read the configuration and `MSGLEN` only. -/
theorem operandFault_congr {s t : State} (hcfg : t.cfg = s.cfg) (hlen : t.msgLen = s.msgLen) (i : Instr) :
    operandFault i t = operandFault i s := by
  simp only [operandFault, hcfg, hlen]

/-- Where only memory may differ, the memory part is all there is to show. -/
theorem State.Inv.of_memoryInv {s t : State} (h : s.Inv) (hm : t.MemoryInv) (hstatus : t.status = s.status)
    (hpending : t.pending = s.pending) (hlen : t.msgLen = s.msgLen) (hcfg : t.cfg = s.cfg) : t.Inv where
  memWf := hm.1
  memInBuffers := hm.2
  busyPending := by rw [hstatus, hpending]; exact h.busyPending
  busyFlags := by rw [hstatus]; exact h.busyFlags
  faultCode := by rw [hstatus]; exact h.faultCode
  faultDone := by rw [hstatus]; exact h.faultDone
  oneEnding := by rw [hstatus]; exact h.oneEnding
  pendingChecked := by
    intro i hi
    rw [operandFault_congr hcfg hlen, hlen]
    exact h.pendingChecked i (hpending ▸ hi)

/-- The invariant reads memory, `STATUS`, `PENDING`, `MSGLEN` and the configuration only. -/
theorem State.Inv.congr {s t : State} (h : s.Inv) (hmem : t.mem = s.mem) (hstatus : t.status = s.status)
    (hpending : t.pending = s.pending) (hlen : t.msgLen = s.msgLen) (hcfg : t.cfg = s.cfg) : t.Inv :=
  h.of_memoryInv (h.memoryInv.congr hmem hcfg) hstatus hpending hlen hcfg

/-- A command ended in at most one way (46_target_verify_search.md R226). -/
def Status.OneEnding (f : Status) : Prop :=
  ¬ (f.result = true ∧ f.aborted = true) ∧ ¬ (f.result = true ∧ f.exh = true) ∧
    ¬ (f.aborted = true ∧ f.exh = true)

/-- With nothing pending the invariant speaks of memory, the fault fields and the ending alone. -/
theorem inv_of_nothing_pending {t : State} (hm : t.MemoryInv) (hpending : t.pending = none)
    (hbusy : t.status.busy = false)
    (hcode : t.status.fault = decide (t.status.fcode ≠ 0#8) ∧ t.status.fcode.toNat ≤ 6)
    (hdone : t.status.fault = true → t.status.done = false) (hone : t.status.OneEnding) : t.Inv where
  memWf := hm.1
  memInBuffers := hm.2
  busyPending := by rw [hbusy, hpending]; rfl
  busyFlags := by simp [hbusy]
  faultCode := hcode
  faultDone := hdone
  oneEnding := hone
  pendingChecked := by simp [hpending]

/-- The running command has passed its operand checks. -/
theorem State.Inv.operandFault_of_running {s : State} {i : Instr} (h : s.Inv) (hr : s.Running i) :
    operandFault i s = none := (h.pendingChecked i hr.2).2.1

/-- A command that ends, in at most one way, leaves the invariant: no fault can stand while it runs. -/
theorem State.Inv.of_ended {s t : State} (h : s.Inv) (hbusy : s.status.busy = true) (hm : t.MemoryInv)
    (hpending : t.pending = none) (hb : t.status.busy = false) (hfault : t.status.fault = s.status.fault)
    (hfcode : t.status.fcode = s.status.fcode) (hone : t.status.OneEnding) : t.Inv := by
  have hnofault : s.status.fault = false := (h.busyFlags hbusy).2.1
  refine inv_of_nothing_pending hm hpending hb ?_ ?_ hone
  · rw [hfault, hfcode]; exact h.faultCode
  · simp [hfault, hnofault]

/-! Each way a step can go on. -/

/-- Settles O13: nothing is written, pending or set. -/
theorem invariantHoldsAtReset : Obligations.InvariantHoldsAtReset := by
  unfold Obligations.InvariantHoldsAtReset
  exact inv_of_nothing_pending ⟨reset_memory_wf, by simp [State.reset]⟩ rfl rfl (by decide) (by decide)
    (by simp [Status.OneEnding, State.reset, Status.cleared])

theorem inv_resetCore (s : State) : (resetCore s).Inv :=
  inv_of_nothing_pending ⟨resetCore_memory_wf s, by simp⟩ rfl rfl (by simp [Status.cleared])
    (by simp [Status.cleared]) (by simp [Status.OneEnding, Status.cleared])

theorem CoreFault.code_ne_zero (f : CoreFault) : f.code ≠ 0#8 := by cases f <;> decide
theorem CoreFault.code_le_six (f : CoreFault) : f.code.toNat ≤ 6 := by cases f <;> decide

theorem inv_raiseFault {s : State} (h : s.Inv) (f : CoreFault) : (raiseFault f s).Inv := by
  refine inv_of_nothing_pending (h.memoryInv.congr rfl rfl) rfl rfl ?_ (by simp) h.oneEnding
  by_cases hc : s.status.fcode = 0#8
  · simp [hc, f.code_ne_zero, f.code_le_six]
  · simpa [hc] using h.faultCode.2

theorem inv_returning {s : State} (h : s.Inv) (bs : List Byte) : (s.returning bs).Inv :=
  h.congr rfl rfl rfl rfl rfl

/-- An acceptance clears the flags, and the checks that passed read nothing it changes: SEARCH, which writes `MSGLEN`,
does not read the message. -/
theorem inv_acceptOf {s : State} {i : Instr} (h : s.Inv) (hidle : s.Idle) (hw : i.wellFormed = true)
    (hf : operandFault i s = none) : (acceptOf i s).Inv where
  memWf := by simpa using h.memWf
  memInBuffers := by simpa using h.memInBuffers
  busyPending := by simp [Status.issued]
  busyFlags := by simp [Status.issued, hidle.2]
  faultCode := by simpa using h.faultCode
  faultDone := by simp [Status.issued]
  oneEnding := by simp [Status.issued]
  pendingChecked := by
    intro j hj
    obtain rfl : i = j := by simpa using hj
    by_cases hs : i = .search
    · subst hs
      have hcheck : operandFault .search (acceptOf .search s) = operandFault .search s := by
        simp [operandFault, Instr.readsMessage]
      exact ⟨rfl, hcheck.trans hf, by simp⟩
    · rw [operandFault_congr (acceptOf_cfg i s) (by simp [hs])]
      exact ⟨hw, hf, fun hi => absurd hi hs⟩

/-- A running command other than SEARCH ends with at most a verdict. -/
theorem inv_completeCommand_effectOf {s : State} {i : Instr} (h : s.Inv) (hr : s.Running i) (hi : i ≠ .search) :
    (completeCommand (effectOf i s)).Inv := by
  obtain ⟨-, hcfg, -, -, -, b, hstatus, -⟩ := effectOf_rest i s
  obtain ⟨-, -, -, haborted, hexh⟩ := h.busyFlags hr.1
  have hm : (effectOf i s).MemoryInv :=
    h.memoryInv.of_sameOutside (effectOf_wf i h.memWf) hcfg (effectOf_sameOutside i s hi)
      (writeRanges_insideBuffer (h.operandFault_of_running hr))
  exact h.of_ended hr.1 (hm.congr rfl rfl) rfl rfl (by simp [hstatus]) (by simp [hstatus])
    (by simp [Status.OneEnding, Status.completed, hstatus, haborted, hexh])

/-- An iteration of SEARCH ends it found or exhausted, or leaves it running with only memory changed. -/
theorem inv_searchIteration {s : State} (h : s.Inv) (hr : s.Running .search) : (searchIteration s).Inv := by
  obtain ⟨-, -, hresult, haborted, hexh⟩ := h.busyFlags hr.1
  have hm : (searchIteration s).MemoryInv :=
    h.memoryInv.of_sameOutside (searchIteration_wf h.memWf) (searchIteration_rest s).2.1
      (searchIteration_sameOutside s) (writeRanges_insideBuffer (h.operandFault_of_running hr))
  rcases searchIteration_cases s with ⟨-, he⟩ | ⟨-, -, he⟩ | ⟨-, -, he⟩ <;> rw [he] at hm ⊢
  · exact h.of_ended hr.1 hm rfl rfl rfl rfl
      (by simp [Status.OneEnding, Status.completed, Status.verdict, haborted, hexh])
  · exact h.of_ended hr.1 hm rfl rfl rfl rfl
      (by simp [Status.OneEnding, Status.completed, Status.exhausted, haborted])
  · exact h.of_memoryInv hm rfl rfl rfl rfl

/-- ABORT ends a running SEARCH as aborted. -/
theorem inv_endSearch {s : State} (h : s.Inv) (hr : s.Running .search) : (endSearch s).Inv := by
  obtain ⟨-, -, -, -, hexh⟩ := h.busyFlags hr.1
  exact h.of_ended hr.1 (h.memoryInv.congr rfl rfl) rfl rfl rfl rfl
    (by simp [Status.OneEnding, Status.abortedSearch, hexh])

/-- Every way a command can go keeps the invariant, if the command has an encoding. -/
theorem inv_exec {s t : State} {i : Instr} (h : s.Inv) (hw : i.wellFormed = true) (he : exec i s = .next t) :
    t.Inv := by
  rcases exec_cases he with ⟨hr, hi, rfl⟩ | ⟨hr, rfl, rfl⟩ | ⟨-, -, rfl⟩ | ⟨-, -, -, -, rfl⟩ | ⟨-, -, hr, rfl⟩ |
    ⟨f, -, -, rfl⟩ | ⟨hidle, hf, rfl⟩
  · exact inv_completeCommand_effectOf h hr hi
  · exact inv_searchIteration h hr
  · exact h
  · exact inv_raiseFault h .busyAccess
  · exact inv_endSearch h hr
  · exact inv_raiseFault h f
  · exact inv_acceptOf h hidle hw hf

/-- A host write that `writeTarget` lets through lies in a writable range that admits it (20_memory.md R62). -/
theorem writeTarget_some {c : Config} {addr n : Nat} {r : Region} (h : writeTarget c addr n = some r) :
    r.writable = true ∧ r.admits c addr n = true := by
  simpa using List.find?_some h

/-- A stored write changes memory inside one data buffer, or `MSGLEN` while nothing is pending. -/
theorem inv_storePort {s : State} {r : Region} {addr : Nat} {v : List Byte} (h : s.Inv) (hidle : s.Idle)
    (hr : writeTarget s.cfg addr v.length = some r) : (storePort r addr v s).Inv := by
  obtain ⟨-, hadmits⟩ := writeTarget_some hr
  have hpending : s.pending = none := by simpa [hidle.1] using h.busyPending
  have hbuffer (hb : r.isBuffer = true) : State.Inv { s with mem := writeCells s.mem addr v } :=
    h.of_memoryInv
      (h.memoryInv.of_sameOutside (R := [(addr, v.length)]) (writeCells_wf h.memWf addr v) rfl
        (fun a ha => readCell_writeCells_outside _ _ _ _ (ha _ (List.mem_singleton.mpr rfl)))
        (by simpa using insideBuffer_of_admits hb hadmits))
      rfl rfl rfl rfl
  cases r with
  | cmd | status => exact h
  | msgLen =>
    exact inv_of_nothing_pending (h.memoryInv.congr rfl rfl) hpending hidle.1 h.faultCode h.faultDone h.oneEnding
  | mix | diff | nonce | rk | p | y | s | digest | target | kb | msg => exact hbuffer rfl

/-- Settles O14: each way a step can go on keeps the invariant. -/
theorem everyStepKeepsTheInvariant : Obligations.EveryStepKeepsTheInvariant := by
  unfold Obligations.EveryStepKeepsTheInvariant
  intro s t hs h
  obtain ⟨-, rest, u, hu, -, hm⟩ := step_moves h
  have hcfg : u.cfg = s.cfg := by rw [hu]
  have hinv : u.Inv := by rw [hu]; exact hs.congr rfl rfl rfl rfl rfl
  rcases hm with ⟨i, hr, he⟩ | ⟨i, w, -, hw, he⟩ | ⟨-, -, -, he⟩ | rfl | ⟨bs, rfl⟩ | ⟨bs, f, -, rfl, -⟩ |
    ⟨f, -, rfl, -⟩ | ⟨r, addr, v, hidle, hr, -, rfl⟩ | ⟨-, rfl⟩
  · exact inv_exec hinv (hinv.pendingChecked i hr.2).1 he
  · exact inv_exec hinv (decodeWord_wellFormed hw) he
  · exact inv_exec hinv rfl he
  · exact hinv
  · exact inv_returning hinv bs
  · exact inv_raiseFault (inv_returning hinv bs) f
  · exact inv_raiseFault hinv f
  · exact inv_storePort hinv hidle (hcfg ▸ hr)
  · exact inv_resetCore u

end Sys2Proof.Machine
end

section
/-! SUPPORT. The host address map (20_memory.md R63, R66): its ranges stand one after another, so an access falls into at
most one of them. -/

namespace Sys2Proof.Machine

/-- The two readings of an admissible access agree: the check of the model and the statement of Safety. -/
theorem admits_iff (c : Config) (r : Region) (addr n : Nat) : r.admits c addr n = true ↔ AccessTo c r addr n := by
  rw [Region.admits, AccessTo]
  cases r.whole with
  | true => simp
  | false =>
    simp only [Bool.false_eq_true, if_false, Bool.and_eq_true, decide_eq_true_eq]
    omega

theorem Region.size_pos_of_whole {c : Config} {r : Region} (hw : r.whole = true) : 0 < r.size c := by
  cases r <;> simp [Region.whole, Region.size] at hw ⊢

theorem AccessTo.bounds {c : Config} {r : Region} {addr n : Nat} (h : AccessTo c r addr n) :
    0 < n ∧ r.base ≤ addr ∧ addr + n ≤ r.base + r.size c := by
  rw [AccessTo] at h
  split at h
  case isTrue hw =>
    obtain ⟨rfl, rfl⟩ := h
    exact ⟨Region.size_pos_of_whole hw, Nat.le_refl _, Nat.le_refl _⟩
  case isFalse => exact h

theorem keyBufLen_le_of_admitted {c : Config} (hc : c.admitted = true) : c.keyBufLen ≤ 8832 := by
  simp only [Config.admitted, Bool.and_eq_true, decide_eq_true_eq] at hc
  exact hc.1

/-- The ranges as R63 lists them: each ends before the later ones begin. -/
theorem regions_in_address_order {c : Config} (hc : c.admitted = true) :
    Region.all.Pairwise (fun r r' => r.base + r.size c ≤ r'.base) := by
  have hkb := keyBufLen_le_of_admitted hc
  simp [Region.all, Region.base, Region.size]
  omega

/-- One range ends before the other begins. -/
def Region.Apart (c : Config) (r r' : Region) : Prop :=
  r.base + r.size c ≤ r'.base ∨ r'.base + r'.size c ≤ r.base

theorem apart_of_ne {c : Config} (hc : c.admitted = true) {r r' : Region} (hne : r ≠ r') : r.Apart c r' := by
  have hsymm : Std.Symm (Region.Apart c) := ⟨fun _ _ => Or.symm⟩
  have hapart : Region.all.Pairwise (Region.Apart c) := (regions_in_address_order hc).imp Or.inl
  exact hapart.forall r.mem_all r'.mem_all hne

/-- Two ranges that share an address are the same. -/
theorem region_eq_of_common_address {c : Config} (hc : c.admitted = true) {r r' : Region} {a : Nat}
    (h : r.base ≤ a ∧ a < r.base + r.size c) (h' : r'.base ≤ a ∧ a < r'.base + r'.size c) : r = r' := by
  by_contra hne
  rcases apart_of_ne hc hne with hlt | hlt <;> omega

theorem region_end_le {c : Config} (hc : c.admitted = true) (r : Region) : r.base + r.size c ≤ 0x10000 := by
  have hkb := keyBufLen_le_of_admitted hc
  have hmsg := c.msgMax_bounds
  cases r <;> simp only [Region.base, Region.size] <;> omega

/-- Settles O23: both accesses lie in their ranges, and the ranges share no address. -/
theorem addressMapRangesAreDisjoint : Obligations.AddressMapRangesAreDisjoint := by
  unfold Obligations.AddressMapRangesAreDisjoint
  intro c r r' addr n addr' n' a hc h h'
  obtain ⟨-, hlo, hhi⟩ := h.bounds
  obtain ⟨-, hlo', hhi'⟩ := h'.bounds
  refine ⟨hhi.trans (region_end_le hc r), fun h1 h2 h3 h4 => ?_⟩
  exact region_eq_of_common_address hc (a := a) ⟨by omega, by omega⟩ ⟨by omega, by omega⟩

end Sys2Proof.Machine
end

section
/-! SUPPORT. The host's accesses (20_memory.md R61, R62, R257): which range an access goes to, and what a move of the host
does in each case. -/

namespace Sys2Proof.Machine

/-! The range of an access. -/

/-- A search of the map finds the one range that admits the access, since no other does (R66). -/
theorem find?_admits_eq_some_iff {c : Config} (hc : c.admitted = true) (p : Region → Bool) {addr n : Nat} {r : Region} :
    Region.all.find? (fun r => p r && r.admits c addr n) = some r ↔ p r = true ∧ AccessTo c r addr n := by
  have sound {q : Region} (hq : Region.all.find? (fun r => p r && r.admits c addr n) = some q) :
      p q = true ∧ AccessTo c q addr n := by
    simpa [admits_iff] using List.find?_some hq
  refine ⟨sound, fun ⟨hp, h⟩ => ?_⟩
  have hsome : (Region.all.find? (fun r => p r && r.admits c addr n)).isSome = true :=
    List.find?_isSome.mpr ⟨r, r.mem_all, by simp [hp, (admits_iff c r addr n).mpr h]⟩
  obtain ⟨q, hq⟩ := Option.isSome_iff_exists.mp hsome
  obtain ⟨hpos, hlo, hhi⟩ := h.bounds
  obtain ⟨-, hlo', hhi'⟩ := (sound hq).2.bounds
  rw [hq, region_eq_of_common_address hc (r := q) (r' := r) (a := addr) (by omega) (by omega)]

theorem find?_admits_eq_none {c : Config} {p : Region → Bool} {addr n : Nat}
    (h : ∀ r : Region, p r = true → ¬ AccessTo c r addr n) :
    Region.all.find? (fun r => p r && r.admits c addr n) = none := by
  simpa [admits_iff] using fun r (_ : r ∈ Region.all) => h r

theorem readTarget_eq_some {c : Config} (hc : c.admitted = true) {addr n : Nat} {r : Region}
    (hr : r.readable = true) (h : AccessTo c r addr n) : readTarget c addr n = some r :=
  (find?_admits_eq_some_iff hc _).mpr ⟨hr, h⟩

theorem readTarget_eq_none {c : Config} {addr n : Nat}
    (h : ∀ r : Region, r.readable = true → ¬ AccessTo c r addr n) : readTarget c addr n = none :=
  find?_admits_eq_none h

theorem writeTarget_eq_some {c : Config} (hc : c.admitted = true) {addr n : Nat} {r : Region}
    (hr : r.writable = true) (h : AccessTo c r addr n) : writeTarget c addr n = some r :=
  (find?_admits_eq_some_iff hc _).mpr ⟨hr, h⟩

theorem writeTarget_eq_none {c : Config} {addr n : Nat}
    (h : ∀ r : Region, r.writable = true → ¬ AccessTo c r addr n) : writeTarget c addr n = none :=
  find?_admits_eq_none h

/-- A register is accessed whole (R66). -/
theorem AccessTo.of_whole {c : Config} {r : Region} {addr n : Nat} (h : AccessTo c r addr n)
    (hw : r.whole = true) : addr = r.base ∧ n = r.size c := by
  rwa [AccessTo, if_pos hw] at h

theorem accessTo_whole {r : Region} (hw : r.whole = true) (c : Config) : AccessTo c r r.base (r.size c) := by
  rw [AccessTo, if_pos hw]
  exact ⟨rfl, rfl⟩

/-- The registers held in memory, `MIX`, `DIFF` and `NONCE`, have 64 bits (R63). -/
theorem Region.size_of_scalar {c : Config} {r : Region} (hb : r.isBuffer = true) (hw : r.whole = true) :
    r.size c = 8 := by
  cases r with
  | cmd | status | msgLen => cases hb
  | mix | diff | nonce => rfl
  | rk | p | y | s | digest | target | kb | msg => cases hw

/-! The host's move as the machine's step. -/

theorem nextAct_host {s : State} {m : HostMove} {rest : List Turn} (hc : s.cfg.admitted = true)
    (ht : s.turns = .host m :: rest) : nextAct s = hostAct m { s with turns := rest } := by
  simp [nextAct, hc, ht]

theorem step_host_read {s : State} {addr : BitVec 16} {n : Nat} {rest : List Turn} (hc : s.cfg.admitted = true)
    (ht : s.turns = .host (.read addr n) :: rest) :
    step s = .next (hostRead addr.toNat n { s with turns := rest }) := by
  rw [step, nextAct_host hc ht, hostAct]

theorem step_host_write {s t : State} {addr : BitVec 16} {v : List Byte} {rest : List Turn}
    (hc : s.cfg.admitted = true) (ht : s.turns = .host (.write addr v) :: rest)
    (h : hostWrite addr.toNat v { s with turns := rest } = .settle t) : step s = .next t := by
  rw [step, nextAct_host hc ht, hostAct, h]

/-- What `raise X` does is what R259 says. -/
theorem tookFault_raiseFault (f : CoreFault) (s : State) : TookFault f s (raiseFault f s) :=
  ⟨rfl, rfl, rfl, rfl, rfl, rfl⟩

/-! HostRead, case by case (R61). -/

theorem hostRead_contents {s : State} {addr n : Nat} {r : Region} (hr : readTarget s.cfg addr n = some r)
    (h : s.status.fault = true ∨ s.status.busy = false ∨ r = .status) :
    hostRead addr n s = s.returning (s.portBytes r addr n) := by
  rcases h with h | h | h <;> simp [hostRead, hr, h]

theorem hostRead_busy {s : State} {addr n : Nat} {r : Region} (hr : readTarget s.cfg addr n = some r)
    (hs : r ≠ .status) (hf : s.status.fault = false) (hb : s.status.busy = true) :
    hostRead addr n s = raiseFault .busyAccess (s.returning (zeros n)) := by
  simp [hostRead, hr, hs, hf, hb]

theorem hostRead_illegal {s : State} {addr n : Nat} (hr : readTarget s.cfg addr n = none)
    (hf : s.status.fault = false) : hostRead addr n s = raiseFault .badAccess (s.returning (zeros n)) := by
  simp [hostRead, hr, hf]

theorem portBytes_of_isBuffer {r : Region} (hb : r.isBuffer = true) (s : State) (addr n : Nat) :
    s.portBytes r addr n = s.bytesAt addr n := by
  cases r with
  | cmd | status | msgLen => cases hb
  | mix | diff | nonce | rk | p | y | s | digest | target | kb | msg => rfl

/-- A legal read returns as many bytes as were asked for. -/
theorem portBytes_length {s : State} {r : Region} {addr n : Nat} (h : AccessTo s.cfg r addr n) :
    (s.portBytes r addr n).length = n := by
  cases r with
  | cmd => exact zeros_length n
  | status | msgLen => rw [(h.of_whole rfl).2]; exact le32Bytes_length _
  | mix | diff | nonce | rk | p | y | s | digest | target | kb | msg =>
    rw [portBytes_of_isBuffer rfl, bytesAt_length]

/-- Settles O21: a legal read that no running command bars, a barred one, and an illegal one. -/
theorem hostReadReturnsContentsOrFaults : Obligations.HostReadReturnsContentsOrFaults := by
  unfold Obligations.HostReadReturnsContentsOrFaults
  rintro s s0 addr n rest hc ht rfl
  rw [step_host_read hc ht]
  refine ⟨fun r hr h hopen => ?contents, fun r hr h hs hf hb => ?busy, fun h hf => ?illegal⟩
  case contents =>
    rw [hostRead_contents (s := { s with turns := rest }) (readTarget_eq_some hc hr h) hopen]
    refine ⟨_, rfl, rfl, rfl, rfl, rfl, rfl, rfl, portBytes_length h, fun hs => ?_, fun hm => ?_, fun hb k b hk hcell => ?_⟩
    · subst hs; rfl
    · subst hm; rfl
    · rw [returning_bus, portBytes_of_isBuffer hb, bytesAt_getElem? _ _ _ _ hk]
      exact congrArg some (byteAt_of_listed hcell)
  case busy =>
    rw [hostRead_busy (s := { s with turns := rest }) (readTarget_eq_some hc hr h) hs hf hb]
    exact ⟨_, rfl, rfl, tookFault_raiseFault .busyAccess _⟩
  case illegal =>
    rw [hostRead_illegal (s := { s with turns := rest }) (readTarget_eq_none h) hf]
    exact ⟨_, rfl, rfl, tookFault_raiseFault .badAccess _⟩

/-! HostWrite, case by case (R62). -/

theorem hostWrite_faulted {s : State} (hf : s.status.fault = true) (addr : Nat) (v : List Byte) :
    hostWrite addr v s = .settle s := by
  simp [hostWrite, hf]

theorem hostWrite_illegal {s : State} {addr : Nat} {v : List Byte} (hw : writeTarget s.cfg addr v.length = none)
    (hf : s.status.fault = false) : hostWrite addr v s = .settle (raiseFault .badAccess s) := by
  simp [hostWrite, hw, hf]

theorem hostWrite_cmd {s : State} {addr : Nat} {v : List Byte} (hw : writeTarget s.cfg addr v.length = some .cmd)
    (hf : s.status.fault = false) : hostWrite addr v s = hostCommand (le32 v) s := by
  simp [hostWrite, hw, hf]

theorem hostWrite_not_cmd {s : State} {addr : Nat} {v : List Byte} {r : Region}
    (hw : writeTarget s.cfg addr v.length = some r) (hr : r ≠ .cmd) (hf : s.status.fault = false) :
    hostWrite addr v s =
      if s.status.busy then .settle (raiseFault .busyAccess s) else .settle (storePort r addr v s) := by
  rw [hostWrite, if_neg (by simp [hf]), hw]
  cases r with
  | cmd => exact absurd rfl hr
  | status | msgLen | mix | diff | nonce | rk | p | y | s | digest | target | kb | msg => rfl

/-- While a command runs, a word other than that of ABORT is turned away (30_encoding.md R91). -/
theorem hostCommand_busy {s : State} {w : BitVec 32} (hf : s.status.fault = false) (hb : s.status.busy = true)
    (hw : w ≠ abortWord) : hostCommand w s = .settle (raiseFault .busyAccess s) := by
  simp [hostCommand, hf, hb, hw]

/-- While a command runs, no legal write but that of the ABORT word is let through (R62). -/
theorem hostWrite_busy {s : State} {addr : Nat} {v : List Byte} {r : Region}
    (hw : writeTarget s.cfg addr v.length = some r) (hf : s.status.fault = false) (hb : s.status.busy = true)
    (habort : r = .cmd → le32 v ≠ abortWord) : hostWrite addr v s = .settle (raiseFault .busyAccess s) := by
  by_cases hr : r = .cmd
  · rw [hostWrite_cmd (hr ▸ hw) hf, hostCommand_busy hf hb (habort hr)]
  · rw [hostWrite_not_cmd hw hr hf, if_pos hb]

theorem hostWrite_idle {s : State} {addr : Nat} {v : List Byte} {r : Region}
    (hw : writeTarget s.cfg addr v.length = some r) (hr : r ≠ .cmd) (hidle : s.Idle) :
    hostWrite addr v s = .settle (storePort r addr v s) := by
  rw [hostWrite_not_cmd hw hr hidle.2, if_neg (by simp [hidle.1])]

/-! What a stored write leaves. -/

@[simp] theorem storePort_status (r : Region) (addr : Nat) (v : List Byte) (s : State) :
    (storePort r addr v s).status = s.status := by
  cases r <;> rfl

@[simp] theorem storePort_pending (r : Region) (addr : Nat) (v : List Byte) (s : State) :
    (storePort r addr v s).pending = s.pending := by
  cases r <;> rfl

@[simp] theorem storePort_turns (r : Region) (addr : Nat) (v : List Byte) (s : State) :
    (storePort r addr v s).turns = s.turns := by
  cases r <;> rfl

@[simp] theorem storePort_bus (r : Region) (addr : Nat) (v : List Byte) (s : State) :
    (storePort r addr v s).bus = s.bus := by
  cases r <;> rfl

theorem storePort_of_isBuffer {r : Region} (hb : r.isBuffer = true) (addr : Nat) (v : List Byte) (s : State) :
    storePort r addr v s = { s with mem := writeCells s.mem addr v } := by
  cases r with
  | cmd | status | msgLen => cases hb
  | mix | diff | nonce | rk | p | y | s | digest | target | kb | msg => rfl

theorem holds_storePort {r : Region} (hb : r.isBuffer = true) (addr : Nat) (v : List Byte) (s : State) :
    (storePort r addr v s).Holds addr v := by
  rw [storePort_of_isBuffer hb]
  exact readCell_writeCells_inside s.mem addr v

theorem sameOutside_storePort {r : Region} (hb : r.isBuffer = true) (addr : Nat) (v : List Byte) (s : State) :
    SameOutside s (storePort r addr v s) [(addr, v.length)] := by
  rw [storePort_of_isBuffer hb]
  exact fun a ha => readCell_writeCells_outside s.mem addr v a (ha _ (List.mem_singleton.mpr rfl))

/-- A scalar register reads as the little-endian value that was written (R64). -/
theorem le64_bytesAt_storePort {s : State} {r : Region} {addr : Nat} {v : List Byte} (hb : r.isBuffer = true)
    (hw : r.whole = true) (h : AccessTo s.cfg r addr v.length) :
    le64 ((storePort r addr v s).bytesAt r.base 8) = le64 v := by
  obtain ⟨rfl, hlen⟩ := h.of_whole hw
  have hlen : v.length = 8 := by rw [hlen, Region.size_of_scalar hb hw]
  rw [← hlen, bytesAt_of_holds (holds_storePort hb r.base v s)]

/-- Settles O22: an ignored write, an illegal one, one that a running command bars, and a stored one. -/
theorem hostWriteStoresOrFaults : Obligations.HostWriteStoresOrFaults := by
  unfold Obligations.HostWriteStoresOrFaults
  rintro s s0 addr v rest hc ht rfl
  refine ⟨fun hf => ?ignored, fun h hf => ?illegal, fun r hr h hf hb habort => ?busy, fun r hr h hidle hcmd => ?stored⟩
  case ignored => exact step_host_write hc ht (hostWrite_faulted (s := { s with turns := rest }) hf _ _)
  case illegal =>
    exact ⟨_, step_host_write hc ht (hostWrite_illegal (writeTarget_eq_none h) hf), tookFault_raiseFault _ _, rfl⟩
  case busy =>
    exact ⟨_, step_host_write hc ht (hostWrite_busy (writeTarget_eq_some hc hr h) hf hb habort),
      tookFault_raiseFault _ _, rfl⟩
  case stored =>
    refine ⟨_, step_host_write hc ht (hostWrite_idle (writeTarget_eq_some hc hr h) hcmd hidle), by simp, by simp,
      by simp, by simp, by simp, fun hm => ?_, fun hb => ⟨?_, holds_storePort hb _ _ _, sameOutside_storePort hb _ _ _⟩,
      fun hm => ?_, fun hd => ?_, fun hn => ?_⟩
    · subst hm; exact ⟨rfl, rfl⟩
    · rw [storePort_of_isBuffer hb]
    · subst hm; exact le64_bytesAt_storePort rfl rfl h
    · subst hd; exact le64_bytesAt_storePort rfl rfl h
    · subst hn; exact le64_bytesAt_storePort rfl rfl h

end Sys2Proof.Machine
end

section
/-! SUPPORT. Byte order on the bus (20_memory.md R64): the writes and reads of the registers follow from what a
HostWrite and a HostRead do. -/

namespace Sys2Proof.Machine

/-- The first of the little-endian bytes of a word is its least significant one. -/
theorem leBytes_head {w : Nat} (n : Nat) (v : BitVec w) :
    (leBytes (n + 1) v.toNat)[0]? = some (v.extractLsb' 0 8) := rfl

/-- The write of the little-endian bytes of `v` to `MIX`, `DIFF` or `NONCE`, the registers held in memory. -/
theorem step_write_scalar {s : State} {rest : List Turn} {v : Word64} {r : Region} (hc : s.cfg.admitted = true)
    (hidle : s.Idle) (hb : r.isBuffer = true) (hw : r.whole = true) (hr : r.writable = true)
    (ht : s.turns = .host (.write (BitVec.ofNat 16 r.base) (le64Bytes v)) :: rest) :
    ∃ t, step s = .next t ∧ le64 (t.bytesAt r.base 8) = v ∧ readCell t.mem r.base = some (v.extractLsb' 0 8) := by
  have haddr : (BitVec.ofNat 16 r.base).toNat = r.base := by cases r <;> rfl
  have haccess : AccessTo s.cfg r r.base (le64Bytes v).length := by
    rw [le64Bytes_length, ← Region.size_of_scalar (c := s.cfg) hb hw]
    exact accessTo_whole hw s.cfg
  have hcmd : r ≠ .cmd := fun h => by cases h; cases hb
  obtain ⟨-, -, -, hstored⟩ := hostWriteStoresOrFaults s _ _ _ rest hc ht rfl
  rw [haddr] at hstored
  obtain ⟨t, hstep, -, -, -, -, -, -, hbuffer, -⟩ := hstored r hr haccess hidle hcmd
  obtain ⟨-, hholds, -⟩ := hbuffer hb
  refine ⟨t, hstep, ?_, ?_⟩
  · rw [← le64Bytes_length v, bytesAt_of_holds hholds, le64_le64Bytes]
  · exact (hholds 0 (by simp)).trans (leBytes_head 7 v)

/-- Settles O24: the scalars by one lemma, `MSGLEN` and `STATUS` by what HostWrite and HostRead do. -/
theorem registersAreLittleEndianOnTheBus : Obligations.RegistersAreLittleEndianOnTheBus := by
  unfold Obligations.RegistersAreLittleEndianOnTheBus
  intro s rest hc hidle
  refine ⟨fun v ht => step_write_scalar (r := .mix) hc hidle rfl rfl rfl ht,
    fun v ht => step_write_scalar (r := .diff) hc hidle rfl rfl rfl ht,
    fun v ht => step_write_scalar (r := .nonce) hc hidle rfl rfl rfl ht, fun v ht => ?msgLen, fun ht => ?readMsgLen,
    fun ht => ?readStatus⟩
  case msgLen =>
    obtain ⟨-, -, -, hstored⟩ := hostWriteStoresOrFaults s _ _ _ rest hc ht rfl
    obtain ⟨t, hstep, -, -, -, -, -, hlen, -⟩ := hstored .msgLen rfl ⟨rfl, rfl⟩ hidle (by decide)
    exact ⟨t, hstep, by simpa using (hlen rfl).1⟩
  case readMsgLen =>
    obtain ⟨hread, -, -⟩ := hostReadReturnsContentsOrFaults s _ _ _ rest hc ht rfl
    obtain ⟨t, hstep, -, -, -, -, -, -, -, -, hbus, -⟩ := hread .msgLen rfl ⟨rfl, rfl⟩ (.inr (.inl hidle.1))
    exact ⟨t, hstep, by rw [hbus rfl]; exact leBytes_head 3 _, by rw [hbus rfl]; exact le32_le32Bytes _⟩
  case readStatus =>
    obtain ⟨hread, -, -⟩ := hostReadReturnsContentsOrFaults s _ _ _ rest hc ht rfl
    obtain ⟨t, hstep, -, -, -, -, -, -, -, hbus, -⟩ := hread .status rfl ⟨rfl, rfl⟩ (.inr (.inl hidle.1))
    exact ⟨t, hstep, by rw [hbus rfl]; exact leBytes_head 3 _, by rw [hbus rfl]; exact le32_le32Bytes _⟩

end Sys2Proof.Machine
end

section
/-! SUPPORT. The command word (30_encoding.md R90 to R94): a word decodes to a command exactly when its four fields are
the command's, and a word is its four fields, so decoding and encoding agree. -/

namespace Sys2Proof

/-! A word and its fields (R90). -/

theorem opField_toNat (w : BitVec 32) : (opField w).toNat = w.toNat % 256 := by
  simp [opField]

theorem laneField_toNat (w : BitVec 32) : (laneField w).toNat = w.toNat / 256 % 4 := by
  simp [laneField, Nat.shiftRight_eq_div_pow]

theorem zField_toNat (w : BitVec 32) : (zField w).toNat = w.toNat / 1024 % 64 := by
  simp [zField, Nat.shiftRight_eq_div_pow]

theorem windowField_toNat (w : BitVec 32) : (windowField w).toNat = w.toNat / 65536 := by
  rw [windowField, BitVec.extractLsb'_toNat, Nat.shiftRight_eq_div_pow]
  omega

/-- The number of a word, from its fields. -/
theorem toNat_eq_fields (w : BitVec 32) :
    w.toNat = (opField w).toNat + 256 * (laneField w).toNat + 1024 * (zField w).toNat
      + 65536 * (windowField w).toNat := by
  rw [opField_toNat, laneField_toNat, zField_toNat, windowField_toNat]
  omega

theorem word_eq_iff_fields (v w : BitVec 32) :
    v = w ↔ opField v = opField w ∧ laneField v = laneField w ∧ zField v = zField w ∧
      windowField v = windowField w := by
  refine ⟨fun h => by simp [h], fun ⟨hop, hlane, hz, hwindow⟩ => BitVec.eq_of_toNat_eq ?_⟩
  rw [toNat_eq_fields v, toNat_eq_fields w, hop, hlane, hz, hwindow]

/-! The mask of a row acts field by field. -/

@[simp] theorem opField_and (v w : BitVec 32) : opField (v &&& w) = opField v &&& opField w :=
  BitVec.extractLsb'_and

@[simp] theorem laneField_and (v w : BitVec 32) : laneField (v &&& w) = laneField v &&& laneField w :=
  BitVec.extractLsb'_and

@[simp] theorem zField_and (v w : BitVec 32) : zField (v &&& w) = zField v &&& zField w :=
  BitVec.extractLsb'_and

@[simp] theorem windowField_and (v w : BitVec 32) : windowField (v &&& w) = windowField v &&& windowField w :=
  BitVec.extractLsb'_and

/-! The decoder. -/

/-- The fields of the word are those of the command (R90, R92). -/
def HasFields (w : BitVec 32) (i : Instr) : Prop :=
  (opField w).toNat = i.opcode ∧ (laneField w).toNat = i.laneBits ∧ zField w = 0#6 ∧
    (windowField w).toNat = i.windowBits

theorem plainCommand_eq_ok_iff {i j : Instr} {w : BitVec 32} :
    plainCommand i w = .ok j ↔ laneField w = 0#2 ∧ windowField w = 0#16 ∧ i = j := by
  by_cases hl : laneField w = 0#2 <;> by_cases hw : windowField w = 0#16 <;> simp [plainCommand, hl, hw]

theorem laneCommand_eq_ok_iff {j : Instr} {w : BitVec 32} :
    laneCommand w = .ok j ↔ windowField w = 0#16 ∧ .aesrnd (laneField w).toFin = j := by
  by_cases hw : windowField w = 0#16 <;> simp [laneCommand, hw]

theorem windowCommand_eq_ok_iff {f : Nat → Instr} {j : Instr} {w : BitVec 32} :
    windowCommand f w = .ok j ↔ laneField w = 0#2 ∧ f (windowField w).toNat = j := by
  by_cases hl : laneField w = 0#2 <;> simp [windowCommand, hl]

theorem hasFields_of_decodeWord {w : BitVec 32} {i : Instr} (h : decodeWord w = .ok i) : HasFields w i := by
  rw [decodeWord] at h
  split at h
  case isTrue => cases h
  case isFalse hz =>
    have hz : zField w = 0#6 := Decidable.of_not_not hz
    split at h
    case h_2 hop =>
      obtain ⟨hwindow, rfl⟩ := laneCommand_eq_ok_iff.mp h
      exact ⟨hop, rfl, hz, by rw [hwindow]; rfl⟩
    case h_4 hop | h_6 hop =>
      obtain ⟨hlane, rfl⟩ := windowCommand_eq_ok_iff.mp h
      exact ⟨hop, by rw [hlane]; rfl, hz, rfl⟩
    case h_16 => cases h
    all_goals
      rename_i hop
      obtain ⟨hlane, hwindow, rfl⟩ := plainCommand_eq_ok_iff.mp h
      exact ⟨hop, by rw [hlane]; rfl, hz, by rw [hwindow]; rfl⟩

theorem decodeWord_of_hasFields {w : BitVec 32} {i : Instr} (h : HasFields w i) : decodeWord w = .ok i := by
  obtain ⟨hop, hlane, hz, hwindow⟩ := h
  rw [decodeWord, if_neg (not_not_intro hz), hop]
  cases i with
  | aesrnd l =>
    exact laneCommand_eq_ok_iff.mpr ⟨BitVec.eq_of_toNat_eq hwindow, congrArg Instr.aesrnd (Fin.ext hlane)⟩
  | h256k v | h512k v =>
    exact windowCommand_eq_ok_iff.mpr ⟨BitVec.eq_of_toNat_eq hlane, by rw [hwindow]; rfl⟩
  | nop | h256 | h512 | sponge | clmix | keygen | final | hash | target | verify | search | abort =>
    exact plainCommand_eq_ok_iff.mpr ⟨BitVec.eq_of_toNat_eq hlane, BitVec.eq_of_toNat_eq hwindow, rfl⟩

theorem decodeWord_eq_ok_iff {w : BitVec 32} {i : Instr} : decodeWord w = .ok i ↔ HasFields w i :=
  ⟨hasFields_of_decodeWord, decodeWord_of_hasFields⟩

theorem decode_eq_ok_iff {v : List Byte} {i : Instr} :
    decode v = .ok i ↔ v.length = 4 ∧ decodeWord (le32 v) = .ok i := by
  by_cases hv : v.length = 4 <;> simp [decode, hv]

@[simp] theorem decode_le32Bytes (w : BitVec 32) : decode (le32Bytes w) = decodeWord w := by
  simp [decode]

/-! The encoder. -/

theorem encode_hasFields {i : Instr} (hi : i.wellFormed = true) : HasFields (encode i) i := by
  cases i with
  | nop => exact Laws.EncodeFields.nop hi
  | aesrnd l => exact Laws.EncodeFields.aesrnd l hi
  | h256 => exact Laws.EncodeFields.h256 hi
  | h256k v => exact Laws.EncodeFields.h256k v hi
  | h512 => exact Laws.EncodeFields.h512 hi
  | h512k v => exact Laws.EncodeFields.h512k v hi
  | sponge => exact Laws.EncodeFields.sponge hi
  | clmix => exact Laws.EncodeFields.clmix hi
  | keygen => exact Laws.EncodeFields.keygen hi
  | final => exact Laws.EncodeFields.final hi
  | hash => exact Laws.EncodeFields.hash hi
  | target => exact Laws.EncodeFields.target hi
  | verify => exact Laws.EncodeFields.verify hi
  | search => exact Laws.EncodeFields.search hi
  | abort => exact Laws.EncodeFields.abort hi

theorem decodeWord_encode {i : Instr} (hi : i.wellFormed = true) : decodeWord (encode i) = .ok i :=
  decodeWord_of_hasFields (encode_hasFields hi)

/-- A word with a command's fields is the command's word: it has no other bits. -/
theorem encode_eq_of_hasFields {w : BitVec 32} {i : Instr} (h : HasFields w i) : encode i = w := by
  obtain ⟨hop, hlane, hz, hwindow⟩ := h
  have hw : w.toNat = i.opcode + 256 * i.laneBits + 65536 * i.windowBits := by
    rw [toNat_eq_fields w, hop, hlane, hz, hwindow]; rfl
  rw [encode, ← hw, BitVec.ofNat_toNat, BitVec.setWidth_eq]

theorem decodeWord_eq_ok_iff_eq_encode {w : BitVec 32} {i : Instr} (hi : i.wellFormed = true) :
    decodeWord w = .ok i ↔ w = encode i :=
  ⟨fun h => (encode_eq_of_hasFields (hasFields_of_decodeWord h)).symm, fun h => h ▸ decodeWord_encode hi⟩

/-- Settles O1: the fields of a command's word are the command's, and they leave no other word. -/
theorem decodeAndEncodeAgree : Obligations.DecodeAndEncodeAgree := by
  unfold Obligations.DecodeAndEncodeAgree
  refine ⟨fun i hi => ?decodes, fun w i h => ?encodes⟩
  case decodes => rw [encodeBytes, decode_le32Bytes, decodeWord_encode hi]
  case encodes => exact ⟨decodeWord_wellFormed h, encode_eq_of_hasFields (hasFields_of_decodeWord h)⟩

/-! The rows of the opcode map, one lemma for each kind of mask (R93). -/

/-- A row without operands: the mask keeps every bit. -/
theorem decodeWord_plain_iff_row {w k : BitVec 32} {i : Instr} (hi : i.wellFormed = true) (hk : encode i = k) :
    decodeWord w = .ok i ↔ w &&& 0xFFFFFFFF#32 = k := by
  have hmask : w &&& 0xFFFFFFFF#32 = w := BitVec.and_allOnes
  rw [decodeWord_eq_ok_iff_eq_encode hi, hk, hmask]

theorem and_laneMask_eq_one_iff {w : BitVec 32} :
    w &&& 0xFFFFFCFF#32 = 0x00000001#32 ↔ opField w = 1#8 ∧ zField w = 0#6 ∧ windowField w = 0#16 := by
  have hop : opField w &&& opField 0xFFFFFCFF#32 = opField w := BitVec.and_allOnes
  have hlane : laneField w &&& laneField 0xFFFFFCFF#32 = 0#2 := BitVec.and_zero
  have hz : zField w &&& zField 0xFFFFFCFF#32 = zField w := BitVec.and_allOnes
  have hwindow : windowField w &&& windowField 0xFFFFFCFF#32 = windowField w := BitVec.and_allOnes
  rw [word_eq_iff_fields, opField_and, laneField_and, zField_and, windowField_and, hop, hlane, hz, hwindow]
  exact ⟨fun ⟨ho, _, h⟩ => ⟨ho, h⟩, fun ⟨ho, h⟩ => ⟨ho, rfl, h⟩⟩

/-- The row of AESRND: the mask leaves out `LANE`, which is the operand. -/
theorem decodeWord_lane_iff_row {w : BitVec 32} :
    (∃ l, decodeWord w = .ok (.aesrnd l)) ↔ w &&& 0xFFFFFCFF#32 = 0x00000001#32 := by
  simp only [decodeWord_eq_ok_iff, and_laneMask_eq_one_iff]
  constructor
  · rintro ⟨l, hop, -, hz, hwindow⟩
    exact ⟨BitVec.eq_of_toNat_eq hop, hz, BitVec.eq_of_toNat_eq hwindow⟩
  · rintro ⟨hop, hz, hwindow⟩
    exact ⟨(laneField w).toFin, by rw [hop]; rfl, rfl, hz, by rw [hwindow]; rfl⟩

theorem and_windowMask_eq_iff {w k : BitVec 32} (hk : k.toNat < 256) :
    w &&& 0x0000FFFF#32 = k ↔ (opField w).toNat = k.toNat ∧ laneField w = 0#2 ∧ zField w = 0#6 := by
  have hop : opField w &&& opField 0x0000FFFF#32 = opField w := BitVec.and_allOnes
  have hlane : laneField w &&& laneField 0x0000FFFF#32 = laneField w := BitVec.and_allOnes
  have hz : zField w &&& zField 0x0000FFFF#32 = zField w := BitVec.and_allOnes
  have hwindow : windowField w &&& windowField 0x0000FFFF#32 = 0#16 := BitVec.and_zero
  have hkop : (opField k).toNat = k.toNat := by rw [opField_toNat]; omega
  have hklane : laneField k = 0#2 := BitVec.eq_of_toNat_eq (by rw [laneField_toNat, BitVec.toNat_ofNat]; omega)
  have hkz : zField k = 0#6 := BitVec.eq_of_toNat_eq (by rw [zField_toNat, BitVec.toNat_ofNat]; omega)
  have hkwindow : windowField k = 0#16 := BitVec.eq_of_toNat_eq (by rw [windowField_toNat, BitVec.toNat_ofNat]; omega)
  rw [word_eq_iff_fields, opField_and, laneField_and, zField_and, windowField_and, hop, hlane, hz, hwindow,
    hklane, hkz, hkwindow, ← BitVec.toNat_inj, hkop]
  exact ⟨fun ⟨ho, hl, hz, _⟩ => ⟨ho, hl, hz⟩, fun ⟨ho, hl, hz⟩ => ⟨ho, hl, hz, rfl⟩⟩

/-- The rows of H256K and H512K: the mask leaves out `W`, which is the operand. -/
theorem decodeWord_window_iff_row {w k : BitVec 32} {f : Nat → Instr} (hk : k.toNat < 256)
    (hf : ∀ v, (f v).opcode = k.toNat ∧ (f v).laneBits = 0 ∧ (f v).windowBits = v) :
    (∃ v, decodeWord w = .ok (f v)) ↔ w &&& 0x0000FFFF#32 = k := by
  simp only [decodeWord_eq_ok_iff, HasFields, hf, and_windowMask_eq_iff hk]
  constructor
  · rintro ⟨v, hop, hlane, hz, -⟩
    exact ⟨hop, BitVec.eq_of_toNat_eq hlane, hz⟩
  · rintro ⟨hop, hlane, hz⟩
    exact ⟨_, hop, by rw [hlane]; rfl, hz, rfl⟩

/-- Settles O2: fifteen rows of three kinds. -/
theorem wordSpellsCommandIffRowMatches : Obligations.WordSpellsCommandIffRowMatches := by
  unfold Obligations.WordSpellsCommandIffRowMatches
  intro w
  exact ⟨decodeWord_plain_iff_row rfl rfl, decodeWord_lane_iff_row, decodeWord_plain_iff_row rfl rfl,
    decodeWord_window_iff_row (by decide) fun _ => ⟨rfl, rfl, rfl⟩, decodeWord_plain_iff_row rfl rfl,
    decodeWord_window_iff_row (by decide) fun _ => ⟨rfl, rfl, rfl⟩, decodeWord_plain_iff_row rfl rfl,
    decodeWord_plain_iff_row rfl rfl, decodeWord_plain_iff_row rfl rfl, decodeWord_plain_iff_row rfl rfl,
    decodeWord_plain_iff_row rfl rfl, decodeWord_plain_iff_row rfl rfl, decodeWord_plain_iff_row rfl rfl,
    decodeWord_plain_iff_row rfl rfl, decodeWord_plain_iff_row rfl rfl⟩

/-! The operands (R92). -/

theorem laneBits_eq_zero {i : Instr} (h : i.opcode ≠ 0x01) : i.laneBits = 0 := by
  cases i with
  | aesrnd l => exact absurd rfl h
  | nop | h256 | h256k v | h512 | h512k v | sponge | clmix | keygen | final | hash | target | verify | search | abort =>
    rfl

theorem windowBits_eq_zero {i : Instr} (h : i.opcode ≠ 0x03) (h' : i.opcode ≠ 0x05) : i.windowBits = 0 := by
  cases i with
  | h256k v => exact absurd rfl h
  | h512k v => exact absurd rfl h'
  | nop | aesrnd l | h256 | h512 | sponge | clmix | keygen | final | hash | target | verify | search | abort => rfl

/-- The fields of the word of a command, as digits of its number. -/
theorem HasFields.digits {w : BitVec 32} {i : Instr} (h : HasFields w i) :
    w.toNat % 256 = i.opcode ∧ w.toNat / 256 % 4 = i.laneBits ∧ w.toNat / 1024 % 64 = 0 ∧
      w.toNat / 65536 = i.windowBits := by
  obtain ⟨hop, hlane, hz, hwindow⟩ := h
  rw [← opField_toNat, ← laneField_toNat, ← zField_toNat, ← windowField_toNat]
  exact ⟨hop, hlane, by rw [hz]; rfl, hwindow⟩

/-- Settles O3: the digits of the word against the fields of the command. -/
theorem operandsAreTheWordsFields : Obligations.OperandsAreTheWordsFields := by
  unfold Obligations.OperandsAreTheWordsFields
  intro w i h
  obtain ⟨hop, hlane, hz, hwindow⟩ := (hasFields_of_decodeWord h).digits
  rw [hop, hlane, hwindow]
  refine ⟨?lane, ?window, hz, laneBits_eq_zero, windowBits_eq_zero⟩
  case lane => rintro l rfl; rfl
  case window =>
    have hw := w.isLt
    rintro v (rfl | rfl) <;> exact ⟨rfl, by simp only [Instr.windowBits] at hwindow; omega⟩

/-! The illegal words (R94). -/

theorem plainCommand_eq_error_iff {i : Instr} {w : BitVec 32} :
    (∃ e, plainCommand i w = .error e) ↔ laneField w ≠ 0#2 ∨ windowField w ≠ 0#16 := by
  by_cases hl : laneField w = 0#2 <;> by_cases hw : windowField w = 0#16 <;> simp [plainCommand, hl, hw]

theorem laneCommand_eq_error_iff {w : BitVec 32} : (∃ e, laneCommand w = .error e) ↔ windowField w ≠ 0#16 := by
  by_cases hw : windowField w = 0#16 <;> simp [laneCommand, hw]

theorem windowCommand_eq_error_iff {f : Nat → Instr} {w : BitVec 32} :
    (∃ e, windowCommand f w = .error e) ↔ laneField w ≠ 0#2 := by
  by_cases hl : laneField w = 0#2 <;> simp [windowCommand, hl]

/-- The words that spell no command: the opcode is not assigned, or a field that the command leaves unused is set. -/
theorem decodeWord_eq_error_iff {w : BitVec 32} : (∃ e, decodeWord w = .error e) ↔
    0x0F ≤ (opField w).toNat ∨ zField w ≠ 0#6 ∨ (laneField w ≠ 0#2 ∧ (opField w).toNat ≠ 0x01) ∨
      (windowField w ≠ 0#16 ∧ (opField w).toNat ≠ 0x03 ∧ (opField w).toNat ≠ 0x05) := by
  rw [decodeWord]
  split
  case isTrue hz => exact ⟨fun _ => .inr (.inl hz), fun _ => ⟨_, rfl⟩⟩
  case isFalse hz =>
    split
    case h_2 hop => simp [laneCommand_eq_error_iff, hop, Decidable.of_not_not hz]
    case h_4 hop | h_6 hop => simp [windowCommand_eq_error_iff, hop, Decidable.of_not_not hz]
    case h_16 => -- no row has this opcode
      refine ⟨fun _ => .inl ?_, fun _ => ⟨_, rfl⟩⟩
      simp only [imp_false] at *
      omega
    all_goals
      rename_i hop
      simp [plainCommand_eq_error_iff, hop, Decidable.of_not_not hz]

end Sys2Proof
end

section
/-! SUPPORT. The write of a command word (30_encoding.md R91): it is the issue of the decoded command, by which
the command is accepted or its first failing operand check is raised. -/

namespace Sys2Proof.Machine

/-! The command in the idle state. -/

theorem accepted_acceptOf (i : Instr) (s : State) : Accepted i s (acceptOf i s) :=
  ⟨acceptOf_pending i s, acceptOf_status i s, acceptOf_msgLen i s, acceptOf_mem i s, acceptOf_cfg i s,
    acceptOf_turns i s, acceptOf_bus i s⟩

/-- Settles O16: by what `exec` answers in the idle state. -/
theorem idleCommandIsAcceptedOrFaults : Obligations.IdleCommandIsAcceptedOrFaults := by
  unfold Obligations.IdleCommandIsAcceptedOrFaults
  intro i s hidle
  exact ⟨fun hf => ⟨_, exec_idle_accept hidle hf, accepted_acceptOf i s⟩,
    fun f hf => ⟨_, exec_idle_fault hidle hf, tookFault_raiseFault f s, rfl⟩⟩

/-! ABORT written while another command runs (47_system_commands.md R241). -/

theorem exec_abort_ends_search {s : State} (hf : s.status.fault = false) (hr : s.Running .search) :
    exec .abort s = .next (endSearch s) := by
  simp [exec, execAbort, State.isRunning, hf, hr.1, hr.2]

theorem exec_abort_ignored {s : State} (hf : s.status.fault = false) (hb : s.status.busy = true)
    (hs : s.pending ≠ some .search) (ha : s.pending ≠ some .abort) : exec .abort s = .next s := by
  simp [exec, execAbort, State.isRunning, hf, hb, hs, ha]

/-! The word that is written, case by case. -/

theorem hostCommand_faulted {s : State} (hf : s.status.fault = true) (w : BitVec 32) :
    hostCommand w s = .settle s := by
  simp [hostCommand, hf]

theorem hostCommand_abort_runs {s : State} (hf : s.status.fault = false) (hb : s.status.busy = true)
    (ha : s.pending ≠ some .abort) : hostCommand abortWord s = .run .abort s := by
  simp [hostCommand, hf, hb, ha]

theorem hostCommand_abort_meets_abort {s : State} (hf : s.status.fault = false) (hb : s.status.busy = true)
    (ha : s.pending = some .abort) : hostCommand abortWord s = .settle s := by
  simp [hostCommand, hf, hb, ha]

theorem hostCommand_illegal {s : State} {w : BitVec 32} {e : DecodeError} (hidle : s.Idle)
    (hw : decodeWord w = .error e) : hostCommand w s = .settle (raiseFault .illegalCmd s) := by
  simp [hostCommand, hidle.1, hidle.2, hw]

theorem hostCommand_runs {s : State} {w : BitVec 32} {i : Instr} (hidle : s.Idle) (hw : decodeWord w = .ok i) :
    hostCommand w s = .run i s := by
  simp [hostCommand, hidle.1, hidle.2, hw]

/-- A four-byte write to `CMD` is legal in every configuration, so the word decides what happens. -/
theorem hostWrite_command {s : State} {v : List Byte} (hc : s.cfg.admitted = true) (hv : v.length = 4) :
    hostWrite Region.cmd.base v s = hostCommand (le32 v) s := by
  cases hf : s.status.fault with
  | true => rw [hostWrite_faulted hf, hostCommand_faulted hf]
  | false => exact hostWrite_cmd (writeTarget_eq_some hc rfl ⟨rfl, hv⟩) hf

/-! The write as the machine's step. -/

theorem step_of_settle {s t : State} (h : nextAct s = .settle t) : step s = .next t := by
  rw [step, h]

theorem step_of_run {s u : State} {i : Instr} (h : nextAct s = .run i u) : step s = exec i u := by
  rw [step, h]

theorem nextAct_command_write {s : State} {v : List Byte} {rest : List Turn} (hc : s.cfg.admitted = true)
    (ht : s.turns = .host (.write 0x0000#16 v) :: rest) (hv : v.length = 4) :
    nextAct s = hostCommand (le32 v) { s with turns := rest } :=
  (nextAct_host hc ht).trans (hostWrite_command hc hv)

/-- Settles O6: the word decodes, so the write runs its command. -/
theorem commandWordStepRunsTheCommand : Obligations.CommandWordStepRunsTheCommand := by
  unfold Obligations.CommandWordStepRunsTheCommand
  intro s v i rest hc hidle ht hd
  obtain ⟨hv, hw⟩ := decode_eq_ok_iff.mp hd
  exact step_of_run ((nextAct_command_write hc ht hv).trans (hostCommand_runs hidle hw))

/-- Settles O15: the cases of the write, each by what the word does there. -/
theorem commandWriteIssues : Obligations.CommandWriteIssues := by
  unfold Obligations.CommandWriteIssues
  rintro s s0 v rest hc ht hv rfl
  have hact : nextAct s = hostCommand (le32 v) { s with turns := rest } := nextAct_command_write hc ht hv
  have hrun (hidle : s.Idle) {i : Instr} (hd : decodeWord (le32 v) = .ok i) :
      step s = exec i { s with turns := rest } :=
    step_of_run (hact.trans (hostCommand_runs hidle hd))
  refine ⟨fun hf => ?faulted, fun hf hb hw => ?busy, fun hf hb hw hp => ?search, fun hf hb hw hp => ?other,
    fun hidle e he => ?illegal, fun hidle i f hd hf => ?fault, fun hidle i hd hf => ?accepted⟩
  case faulted => exact step_of_settle (hact.trans (hostCommand_faulted (s := { s with turns := rest }) hf _))
  case busy => exact ⟨_, step_of_settle (hact.trans (hostCommand_busy hf hb hw)), tookFault_raiseFault _ _⟩
  case search =>
    rw [hw] at hact
    have hstep := step_of_run (hact.trans (hostCommand_abort_runs hf hb (by simp [hp])))
    exact ⟨_, hstep.trans (exec_abort_ends_search hf ⟨hb, hp⟩), rfl, rfl, ⟨rfl, rfl, rfl, rfl⟩, rfl⟩
  case other =>
    rw [hw] at hact
    by_cases ha : s.pending = some .abort
    · exact step_of_settle (hact.trans (hostCommand_abort_meets_abort hf hb ha))
    · exact (step_of_run (hact.trans (hostCommand_abort_runs hf hb ha))).trans (exec_abort_ignored hf hb hp ha)
  case illegal => exact ⟨_, step_of_settle (hact.trans (hostCommand_illegal hidle he)), tookFault_raiseFault _ _⟩
  case fault =>
    obtain ⟨-, hfaults⟩ := idleCommandIsAcceptedOrFaults i { s with turns := rest } hidle
    obtain ⟨t, ht, htook, -⟩ := hfaults f ((operandFault_congr rfl rfl i).trans hf)
    exact ⟨t, (hrun hidle hd).trans ht, htook⟩
  case accepted =>
    obtain ⟨haccepts, -⟩ := idleCommandIsAcceptedOrFaults i { s with turns := rest } hidle
    obtain ⟨t, ht, haccepted⟩ := haccepts ((operandFault_congr rfl rfl i).trans hf)
    exact ⟨t, (hrun hidle hd).trans ht, haccepted⟩

/-! The loader (log 8). -/

theorem decodeTableWord_eq_some_iff {nbits w : Nat} {i : Instr} :
    decodeTableWord nbits w = some i ↔ decode (le32Bytes (BitVec.ofNat 32 (w % 2 ^ nbits))) = .ok i := by
  rw [decodeTableWord]
  cases decode (le32Bytes (BitVec.ofNat 32 (w % 2 ^ nbits))) <;> simp [Except.toOption]

/-- Settles O8: the placed word is the next turn of an idle state. -/
theorem placedWordRunsNext : Obligations.PlacedWordRunsNext := by
  unfold Obligations.PlacedWordRunsNext
  intro s nbits w i hc hd
  exact ⟨{ s.withFetchWord nbits w with turns := s.turns },
    commandWordStepRunsTheCommand _ _ i s.turns hc ⟨rfl, rfl⟩ rfl (decodeTableWord_eq_some_iff.mp hd),
    ⟨rfl, rfl⟩, rfl, rfl, rfl, rfl, rfl⟩

end Sys2Proof.Machine
end

section
/-! SUPPORT. The illegal words and the windows that are too large (30_encoding.md R94), and the worked encodings
(R97). -/

namespace Sys2Proof.Machine

/-- A keyed Haraka command whose window leaves the key buffer decodes from its word, and its issue raises WINDOW_OOB
(60_exceptions.md R254). -/
theorem window_decodes_and_faults {i : Instr} {s : State} (hi : i.wellFormed = true) (hm : i.readsMessage = false)
    (hk : i.makesKeys = false) (hidle : s.Idle) (hw : s.cfg.keyBufLen < i.windowEnd) :
    decodeWord (encode i) = .ok i ∧ ∃ t, exec i s = .next t ∧ TookFault .windowOob s t := by
  have hf : operandFault i s = some .windowOob := by simp [operandFault, hm, hk, hw]
  obtain ⟨-, hfaults⟩ := idleCommandIsAcceptedOrFaults i s hidle
  obtain ⟨t, ht, htook, -⟩ := hfaults _ hf
  exact ⟨decodeWord_encode hi, t, ht, htook⟩

/-- Settles O4: the words by their fields, the step by the write of a command word, the windows by the
operand checks. -/
theorem illegalWordsRaiseIllegalCmd : Obligations.IllegalWordsRaiseIllegalCmd := by
  unfold Obligations.IllegalWordsRaiseIllegalCmd
  refine ⟨fun w => ?words, fun s w e rest hc hidle ht he => ?step, fun s w hw hidle hlen => ?h256k,
    fun s w hw hidle hlen => ?h512k⟩
  case words =>
    rw [decodeWord_eq_error_iff, ← opField_toNat, ← laneField_toNat, ← zField_toNat, ← windowField_toNat]
    simp only [ne_eq, ← BitVec.toNat_inj, BitVec.toNat_ofNat, Nat.zero_mod]
  case step =>
    obtain ⟨-, -, -, -, hillegal, -, -⟩ := commandWriteIssues s _ _ rest hc ht (le32Bytes_length w) rfl
    exact hillegal hidle e (by rw [le32_le32Bytes, he])
  case h256k => exact window_decodes_and_faults (i := .h256k w) (decide_eq_true hw) rfl rfl hidle hlen
  case h512k => exact window_decodes_and_faults (i := .h512k w) (decide_eq_true hw) rfl rfl hidle hlen

/-- Settles O5: the words are evaluated, and the window 513 ends at byte 8848. -/
theorem workedEncodingsDecode : Obligations.WorkedEncodingsDecode := by
  unfold Obligations.WorkedEncodingsDecode
  refine ⟨by decide, by decide, by decide, by decide, by decide, by decide, by decide, by decide,
    fun s hidle hlen => ?_⟩
  have hend : s.cfg.keyBufLen < (Instr.h512k 513).windowEnd := by rw [hlen]; decide
  exact (window_decodes_and_faults rfl rfl rfl hidle hend).2

end Sys2Proof.Machine
end

section
/-! SUPPORT. The table `SBOX` (40_aes_round.md R122): it is the affine map of the rule after the inverse of the field of
R121, and that inverse is an involution, so the table is a permutation. -/

namespace Sys2Proof.Machine

/-- The affine map of the closed form of R122. -/
def sboxAffine (b : Byte) : Byte :=
  b ^^^ b.rotateLeft 1 ^^^ b.rotateLeft 2 ^^^ b.rotateLeft 3 ^^^ b.rotateLeft 4 ^^^ 0x63#8

/-- The map that the affine map undoes. -/
def sboxAffineInv (y : Byte) : Byte := y.rotateLeft 1 ^^^ y.rotateLeft 3 ^^^ y.rotateLeft 6 ^^^ 0x05#8

/-- The inverse in the field of R121, read off the table; 0 at 0. -/
def gfInv (x : Byte) : Byte := sboxAffineInv (sbox x)

theorem sboxAffine_sboxAffineInv (y : Byte) : sboxAffine (sboxAffineInv y) = y := by
  revert y; decide +kernel

theorem sbox_eq_sboxAffine_gfInv (x : Byte) : sbox x = sboxAffine (gfInv x) :=
  (sboxAffine_sboxAffineInv (sbox x)).symm

theorem gfMul_gfInv (x : Byte) : x ≠ 0#8 → gfMul x (gfInv x) = 1#8 := by
  revert x; decide +kernel

theorem gfInv_involutive : Function.Involutive gfInv := by
  unfold Function.Involutive; decide +kernel

theorem sbox_bijective : Function.Bijective sbox := by
  refine Function.Injective.bijective_of_finite fun x y hxy => gfInv_involutive.injective ?_
  rw [gfInv, gfInv, hxy]

theorem sbox_ne_self (x : Byte) : sbox x ≠ x := by
  revert x; decide +kernel

/-- Settles O26: `b` is `gfInv x`, and the table is injective since `gfInv`, which is read off it, is an involution. -/
theorem sboxHasItsClosedForm : Obligations.SboxHasItsClosedForm := by
  unfold Obligations.SboxHasItsClosedForm
  exact ⟨sbox_bijective, sbox_ne_self, rfl, fun x hx => ⟨gfInv x, gfMul_gfInv x hx, sbox_eq_sboxAffine_gfInv x⟩⟩

end Sys2Proof.Machine
end

section
/-! SUPPORT. The AES round (40_aes_round.md R123 to R128): what each of its four steps does to a lane, and that each
is a bijection. ShiftRows four times is the identity, and so is the column mix: the circulant matrix 2 3 1 1 squared is
5 0 4 0, and that squared is 1 0 0 0. -/

namespace Sys2Proof.Machine

/-! Maps of a lane, column by column and byte by byte. -/

/-- The same map on each byte of a column. -/
def mapQuad (f : Byte → Byte) (q : Quad) : Quad := ⟨f q.b0, f q.b1, f q.b2, f q.b3⟩

/-- The same map on each column of a lane. -/
def mapLane (f : Quad → Quad) (s : Lane) : Lane := ⟨f s.w0, f s.w1, f s.w2, f s.w3⟩

theorem subBytes_eq_mapLane : subBytes = mapLane (mapQuad sbox) := rfl

theorem mixColumns_eq_mapLane : mixColumns = mapLane mixColumn := rfl

theorem mapQuad_bijective {f : Byte → Byte} (h : Function.Bijective f) : Function.Bijective (mapQuad f) := by
  obtain ⟨g, hgf, hfg⟩ := Function.bijective_iff_has_inverse.mp h
  refine Function.bijective_iff_has_inverse.mpr ⟨mapQuad g, fun q => ?_, fun q => ?_⟩
  · simp only [mapQuad, hgf _]
  · simp only [mapQuad, hfg _]

theorem mapLane_bijective {f : Quad → Quad} (h : Function.Bijective f) : Function.Bijective (mapLane f) := by
  obtain ⟨g, hgf, hfg⟩ := Function.bijective_iff_has_inverse.mp h
  refine Function.bijective_iff_has_inverse.mpr ⟨mapLane g, fun s => ?_, fun s => ?_⟩
  · simp only [mapLane, hgf _]
  · simp only [mapLane, hfg _]

/-- A map that gives the identity when applied four times is a bijection. -/
theorem bijective_of_involutive_comp_self {α : Type} {f : α → α} (h : Function.Involutive (f ∘ f)) :
    Function.Bijective f :=
  ⟨h.injective.of_comp, h.surjective.of_comp⟩

/-! SubBytes (R123) and ShiftRows (R124). -/

theorem subBytes_bijective : Function.Bijective subBytes :=
  subBytes_eq_mapLane ▸ mapLane_bijective (mapQuad_bijective sbox_bijective)

theorem shiftRows_bijective : Function.Bijective shiftRows :=
  bijective_of_involutive_comp_self fun _ => rfl

theorem subBytes_shiftRows (s : Lane) : subBytes (shiftRows s) = shiftRows (subBytes s) := rfl

theorem subBytes_fill (v : Byte) : subBytes (Lane.fill v) = Lane.fill (sbox v) := rfl

theorem shiftRows_fill (v : Byte) : shiftRows (Lane.fill v) = Lane.fill v := rfl

/-- The byte of row `i % 4` in column `i / 4` comes from the column that many places to the right. -/
theorem shiftRows_bytes_getElem? (s : Lane) {i : Nat} (hi : i < 16) :
    (shiftRows s).bytes[i]? = s.bytes[4 * ((i / 4 + i % 4) % 4) + i % 4]? := by
  interval_cases i <;> rfl

/-- The index list of R124 is the rotation, row by row. -/
theorem shiftRows_indices : ∀ i < 16,
    [0, 5, 10, 15, 4, 9, 14, 3, 8, 13, 2, 7, 12, 1, 6, 11].getD i 0 = 4 * ((i / 4 + i % 4) % 4) + i % 4 := by
  decide

/-- Settles O27: both forms of the rule are the one lemma about byte i, at `i = 4c + r` and with the list's index. -/
theorem shiftRowsMovesRowsLeft : Obligations.ShiftRowsMovesRowsLeft := by
  unfold Obligations.ShiftRowsMovesRowsLeft
  refine ⟨fun s r c hr hc => ?rotation, fun s i hi => ?list⟩
  case rotation =>
    have hcol : (4 * c + r) / 4 = c := by omega
    have hrow : (4 * c + r) % 4 = r := by omega
    rw [shiftRows_bytes_getElem? s (by omega), hcol, hrow]
  case list => rw [shiftRows_bytes_getElem? s hi, shiftRows_indices i hi]

/-! The column mix (R121, R125). -/

theorem and_0x80_ne_zero_iff (a : Byte) : a &&& 0x80#8 ≠ 0#8 ↔ a.msb = true := by
  revert a; decide +kernel

theorem bitVec_xor_cancel_left {w : Nat} (a b : BitVec w) : a ^^^ (a ^^^ b) = b := by
  rw [← BitVec.xor_assoc, BitVec.xor_self, BitVec.zero_xor]

theorem bitVec_xor_left_comm {w : Nat} (a b c : BitVec w) : a ^^^ (b ^^^ c) = b ^^^ (a ^^^ c) := by
  rw [← BitVec.xor_assoc, BitVec.xor_comm a, BitVec.xor_assoc]

/-- Multiplication by 2 distributes over the addition of the field. -/
theorem xtime_xor (a b : Byte) : xtime (a ^^^ b) = xtime a ^^^ xtime b := by
  simp only [xtime, and_0x80_ne_zero_iff, BitVec.msb_xor, BitVec.shiftLeft_xor_distrib]
  cases a.msb <;> cases b.msb <;>
    simp [BitVec.xor_assoc, BitVec.xor_comm, bitVec_xor_left_comm]

/-- A row of the matrix: the bytes of a column times 2, 3, 1, 1, from the byte on the diagonal. -/
def mixByte (a b c d : Byte) : Byte := mul2 a ^^^ mul3 b ^^^ c ^^^ d

theorem mixColumn_eq_mixByte (q : Quad) :
    mixColumn q = ⟨mixByte q.b0 q.b1 q.b2 q.b3, mixByte q.b1 q.b2 q.b3 q.b0, mixByte q.b2 q.b3 q.b0 q.b1,
      mixByte q.b3 q.b0 q.b1 q.b2⟩ := by
  simp only [mixColumn, mixByte, Quad.mk.injEq, true_and]
  refine ⟨?_, ?_, ?_⟩ <;> ac_rfl

/-- A row of the matrix squared: 5, 0, 4, 0. -/
theorem mixByte_mixByte (a b c d : Byte) :
    mixByte (mixByte a b c d) (mixByte b c d a) (mixByte c d a b) (mixByte d a b c) =
      xtime (xtime a) ^^^ a ^^^ xtime (xtime c) := by
  simp only [mixByte, mul2, mul3, xtime_xor, BitVec.xor_assoc, BitVec.xor_comm, bitVec_xor_left_comm,
    bitVec_xor_cancel_left]

/-- The square of the matrix is its own inverse: 5 * 5 ^ 4 * 4 = 1. -/
theorem mixByte_square_square (a c : Byte) :
    xtime (xtime (xtime (xtime a) ^^^ a ^^^ xtime (xtime c))) ^^^ (xtime (xtime a) ^^^ a ^^^ xtime (xtime c)) ^^^
      xtime (xtime (xtime (xtime c) ^^^ c ^^^ xtime (xtime a))) = a := by
  simp only [xtime_xor, BitVec.xor_assoc, BitVec.xor_comm, bitVec_xor_left_comm, bitVec_xor_cancel_left,
    BitVec.xor_self, BitVec.xor_zero]

theorem mixColumn_comp_mixColumn_involutive : Function.Involutive (mixColumn ∘ mixColumn) := by
  intro q
  simp only [Function.comp_apply, mixColumn_eq_mixByte, mixByte_mixByte, mixByte_square_square]

theorem mixColumns_bijective : Function.Bijective mixColumns :=
  mixColumns_eq_mapLane ▸ mapLane_bijective
    (bijective_of_involutive_comp_self mixColumn_comp_mixColumn_involutive)

/-- A column of four equal bytes is unchanged: 2 ^ 3 ^ 1 ^ 1 = 1 (R125). -/
theorem mixColumn_fill (v : Byte) : mixColumn (Quad.fill v) = Quad.fill v := by
  simp only [mixColumn, Quad.fill, mul2, mul3, BitVec.xor_comm, bitVec_xor_left_comm, bitVec_xor_cancel_left,
    BitVec.xor_self, BitVec.xor_zero]

theorem mixColumns_fill (v : Byte) : mixColumns (Lane.fill v) = Lane.fill v := by
  simp only [mixColumns, Lane.fill, mixColumn_fill]

/-! The round key (R126) and the round (R127). -/

theorem addRoundKey_involutive (rk : Lane) : Function.Involutive (fun s => addRoundKey s rk) := by
  intro s
  simp only [addRoundKey, Lane.xor, Quad.xor, BitVec.xor_assoc, BitVec.xor_self, BitVec.xor_zero]

theorem addRoundKey_zero (s : Lane) : addRoundKey s (Lane.fill 0) = s := by
  simp only [addRoundKey, Lane.xor, Quad.xor, Lane.fill, Quad.fill, BitVec.ofNat_eq_ofNat, BitVec.xor_zero]

theorem aesRound_bijective (rk : Lane) : Function.Bijective (fun s => aesRound s rk) :=
  (addRoundKey_involutive rk).bijective.comp
    (mixColumns_bijective.comp (shiftRows_bijective.comp subBytes_bijective))

theorem aesRound_eq_xor (s rk : Lane) : aesRound s rk = (aesRound s (Lane.fill 0)).xor rk := by
  rw [aesRound, aesRound, addRoundKey_zero, addRoundKey]

theorem aesRound_fill (v : Byte) : aesRound (Lane.fill v) (Lane.fill 0) = Lane.fill (sbox v) := by
  rw [aesRound, addRoundKey_zero, subBytes_fill, shiftRows_fill, mixColumns_fill]

/-- Settles O28: the round is its four steps, each with its own lemma. -/
theorem aesRoundFacts : Obligations.AesRoundFacts := by
  unfold Obligations.AesRoundFacts
  exact ⟨subBytes_shiftRows, aesRound_bijective, aesRound_eq_xor, aesRound_fill⟩

end Sys2Proof.Machine
end

section
/-! SUPPORT. The command AESRND (40_aes_round.md R129), and the completion of a command in general (60_exceptions.md
R251). -/

namespace Sys2Proof.Machine

/-- The completion of a command without a verdict: the common updates of R251, its effect on memory inside the
ranges of its row in R45, nothing else. -/
theorem completion_of_running {i : Instr} {s : State} (h : s.Running i) (hs : i ≠ .search) (hv : i ≠ .verify) :
    ∃ t, exec i s = .next t ∧ Finished s t ∧ SameRest s t ∧ t.mem = (effectOf i s).mem ∧
      SameOutside s t i.writeRanges := by
  obtain ⟨hlen, hcfg, hturns, hbus, -, b, hstatus, hb⟩ := effectOf_rest i s
  refine ⟨_, exec_running h hs, ⟨rfl, ?_⟩, ⟨hlen, hcfg, hturns, hbus⟩, rfl, effectOf_sameOutside i s hs⟩
  rw [completeCommand_status, hstatus, hb hv, Status.completed]

/-- The word of AESRND l as R92 and R95 write it. -/
theorem encode_aesrnd (l : Fin 4) : encode (.aesrnd l) = BitVec.ofNat 32 (0x01 + 256 * l.val) := rfl

/-- Settles O29: the word by the encoder, the issue by the operand checks, of which AESRND has none, the completion by
that of any command, and the lane by what stands where it was put. -/
theorem aesrndTransformsItsLane : Obligations.AesrndTransformsItsLane := by
  unfold Obligations.AesrndTransformsItsLane
  intro l
  refine ⟨?word, fun s hidle => ?issue, fun s hrun => ?completion⟩
  case word => rw [← encode_aesrnd, decodeWord_encode rfl]
  case issue =>
    exact ⟨_, exec_idle_accept hidle (operandFault_none _ _ rfl rfl rfl), accepted_acceptOf _ s⟩
  case completion =>
    obtain ⟨t, ht, hfin, hrest, hmem, hout⟩ := completion_of_running hrun (by simp) (by simp)
    refine ⟨t, ht, hfin, hrest, fun k hk => ?_, hout⟩
    rw [hmem]
    exact holds_put s .p (16 * l.val) _ k hk

end Sys2Proof.Machine
end

section
/-! SUPPORT. The words of lanes and blocks (00_scope.md R12): a byte array is its words one after another, so a map of
words is a map of bytes. And `^` byte by byte (R10). -/

namespace Sys2Proof

/-- Words 0 to 3 of a lane (R12). -/
def Lane.words (l : Lane) : List Quad := [l.w0, l.w1, l.w2, l.w3]

/-- The words of a 32-byte block in index order. -/
def Block32.words (x : Block32) : List Quad := x.l0.words ++ x.l1.words

/-- The words of a 64-byte block in index order. -/
def Block64.words (x : Block64) : List Quad := x.l0.words ++ x.l1.words ++ x.l2.words ++ x.l3.words

/-! The bytes of an array are those of its words, one word after another. -/

theorem Lane.bytes_eq_flatMap (l : Lane) : l.bytes = l.words.flatMap Quad.bytes := rfl
theorem Block32.bytes_eq_flatMap (x : Block32) : x.bytes = x.words.flatMap Quad.bytes := rfl

theorem Block64.bytes_eq_flatMap (x : Block64) : x.bytes = x.words.flatMap Quad.bytes := rfl

/-- Byte `4j + k` is byte k of word j. -/
theorem flatMap_quadBytes_getElem? (ws : List Quad) (j : Nat) {k : Nat} (hk : k < 4) :
    (ws.flatMap Quad.bytes)[4 * j + k]? = ws[j]?.bind fun q => q.bytes[k]? := by
  induction ws generalizing j with
  | nil => rfl
  | cons q ws ih =>
    cases j with
    | zero => rw [List.flatMap_cons, List.getElem?_append_left (by simpa using hk)]; simp
    | succ j =>
      have hidx : 4 * (j + 1) + k - q.bytes.length = 4 * j + k := by rw [Quad.bytes_length]; omega
      rw [List.flatMap_cons, List.getElem?_append_right (by rw [Quad.bytes_length]; omega), hidx, ih,
        List.getElem?_cons_succ]

/-- Where word j of one array is word i of another, so are their bytes. -/
theorem flatMap_quadBytes_getElem?_of_word {ws vs : List Quad} {i j k : Nat} (hw : ws[j]? = vs[i]?) (hk : k < 4) :
    (ws.flatMap Quad.bytes)[4 * j + k]? = (vs.flatMap Quad.bytes)[4 * i + k]? := by
  rw [flatMap_quadBytes_getElem? ws j hk, flatMap_quadBytes_getElem? vs i hk, hw]

/-- The same for byte j, which stands in word `j / 4`. -/
theorem flatMap_quadBytes_getElem?_of_word_div {ws vs : List Quad} {i j : Nat} (hw : ws[j / 4]? = vs[i]?) :
    (ws.flatMap Quad.bytes)[j]? = (vs.flatMap Quad.bytes)[4 * i + j % 4]? := by
  rw [← flatMap_quadBytes_getElem?_of_word hw (Nat.mod_lt j (by decide)), Nat.div_add_mod]

theorem Lane.bytes_xor (a b : Lane) : (a.xor b).bytes = List.zipWith (· ^^^ ·) a.bytes b.bytes := rfl
theorem Block32.bytes_xor (x y : Block32) : (x.xor y).bytes = List.zipWith (· ^^^ ·) x.bytes y.bytes := rfl
theorem Block64.bytes_xor (x y : Block64) : (x.xor y).bytes = List.zipWith (· ^^^ ·) x.bytes y.bytes := rfl

theorem zipWith_xor_getElem? {as bs : List Byte} {j : Nat} {a b : Byte} (ha : as[j]? = some a) (hb : bs[j]? = some b) :
    (List.zipWith (· ^^^ ·) as bs)[j]? = some (a ^^^ b) := by
  rw [List.getElem?_zipWith, ha, hb]

end Sys2Proof
end

section
/-! SUPPORT. The layers of the data path, byte by byte: the shuffles move words (41_haraka.md R142, R143), the column
mix and the round compute in the field of R121 (40_aes_round.md R123 to R127). -/

namespace Sys2Proof.Machine

/-! The shuffles. -/

/-- The words of lanes 0 and 1 in turn (R142). -/
theorem mix2_words_getElem? (x : Block32) {j : Nat} (hj : j < 8) :
    (mix2 x).words[j]? = x.words[[0, 4, 1, 5, 2, 6, 3, 7].getD j 0]? := by
  interval_cases j <;> rfl

/-- The index list of R142, word by word. -/
theorem mix2_indices : ∀ j < 32,
    [0, 1, 2, 3, 16, 17, 18, 19, 4, 5, 6, 7, 20, 21, 22, 23, 8, 9, 10, 11, 24, 25, 26, 27,
      12, 13, 14, 15, 28, 29, 30, 31].getD j 0 = 4 * [0, 4, 1, 5, 2, 6, 3, 7].getD (j / 4) 0 + j % 4 := by
  decide

theorem mix4_words_getElem? (x : Block64) {j : Nat} (hj : j < 16) :
    (mix4 x).words[j]? = x.words[[3, 11, 7, 15, 8, 0, 12, 4, 9, 1, 13, 5, 2, 10, 6, 14].getD j 0]? := by
  interval_cases j <;> rfl

/-! The column mix. -/

theorem gfMul_two (a : Byte) : gfMul 2#8 a = mul2 a := by
  revert a; decide +kernel

theorem gfMul_three (a : Byte) : gfMul 3#8 a = mul3 a := by
  revert a; decide +kernel

/-- A row of the matrix of R125, in the field of R121. -/
theorem mixByte_eq_gfMul (a b c d : Byte) : mixByte a b c d = gfMul 2#8 a ^^^ gfMul 3#8 b ^^^ c ^^^ d := by
  rw [mixByte, gfMul_two, gfMul_three]

theorem mixColumn_bytes_getElem? (a : Nat → Byte) {r : Nat} (hr : r < 4) :
    (mixColumn ⟨a 0, a 1, a 2, a 3⟩).bytes[r]? =
      some (mixByte (a r) (a ((r + 1) % 4)) (a ((r + 2) % 4)) (a ((r + 3) % 4))) := by
  rw [mixColumn_eq_mixByte]
  interval_cases r <;> rfl

/-- The bytes of a column fix it as a word. -/
theorem words_getElem?_of_bytes {s : Lane} {a : Nat → Byte} {c : Nat} (hc : c < 4)
    (h : ∀ j, j < 4 → s.bytes[4 * c + j]? = some (a j)) : s.words[c]? = some ⟨a 0, a 1, a 2, a 3⟩ := by
  obtain ⟨q, hq⟩ : ∃ q, s.words[c]? = some q := ⟨_, List.getElem?_eq_getElem hc⟩
  have hbyte (j : Nat) (hj : j < 4) : q.bytes[j]? = some (a j) := by
    rw [← h j hj, Lane.bytes_eq_flatMap, flatMap_quadBytes_getElem? _ _ hj, hq, Option.bind_some]
  have h0 : q.b0 = a 0 := Option.some.inj (hbyte 0 (by decide))
  have h1 : q.b1 = a 1 := Option.some.inj (hbyte 1 (by decide))
  have h2 : q.b2 = a 2 := Option.some.inj (hbyte 2 (by decide))
  have h3 : q.b3 = a 3 := Option.some.inj (hbyte 3 (by decide))
  rw [hq, ← h0, ← h1, ← h2, ← h3]

theorem mixColumns_words (s : Lane) : (mixColumns s).words = s.words.map mixColumn := rfl

theorem mixColumns_bytes_getElem? {s : Lane} {a : Nat → Byte} {c r : Nat} (hc : c < 4) (hr : r < 4)
    (h : ∀ j, j < 4 → s.bytes[4 * c + j]? = some (a j)) :
    (mixColumns s).bytes[4 * c + r]? =
      some (gfMul 2#8 (a r) ^^^ gfMul 3#8 (a ((r + 1) % 4)) ^^^ a ((r + 2) % 4) ^^^ a ((r + 3) % 4)) := by
  rw [Lane.bytes_eq_flatMap, flatMap_quadBytes_getElem? _ _ hr, mixColumns_words, List.getElem?_map,
    words_getElem?_of_bytes hc h, Option.map_some, Option.bind_some, mixColumn_bytes_getElem? a hr, mixByte_eq_gfMul]

/-! The round. -/

theorem subBytes_bytes (s : Lane) : (subBytes s).bytes = s.bytes.map sbox := rfl

/-- Column c after SubBytes and ShiftRows. -/
theorem shiftRows_subBytes_getElem? {s : Lane} {a : Byte} {c j : Nat} (hc : c < 4) (hj : j < 4)
    (h : s.bytes[4 * ((c + j) % 4) + j]? = some a) :
    (shiftRows (subBytes s)).bytes[4 * c + j]? = some (sbox a) := by
  obtain ⟨hrotation, -⟩ := shiftRowsMovesRowsLeft
  rw [hrotation _ j c hj hc, subBytes_bytes, List.getElem?_map, h, Option.map_some]

/-- Settles O30: the shuffles word by word, the column mix by its rows, the round as the column mix of what SubBytes and
ShiftRows leave, exclusive-or the round key. -/
theorem laneShufflesFollowTheirMaps : Obligations.LaneShufflesFollowTheirMaps := by
  unfold Obligations.LaneShufflesFollowTheirMaps
  refine ⟨fun x j hj => ?mix2, fun x j k hj hk => ?mix4, fun s a c r hc hr h => mixColumns_bytes_getElem? hc hr h,
    fun s rk => rfl, fun s rk a k c r hc hr h hk => ?round⟩
  case mix2 =>
    rw [mix2_indices j hj, Block32.bytes_eq_flatMap, Block32.bytes_eq_flatMap]
    exact flatMap_quadBytes_getElem?_of_word_div (mix2_words_getElem? x (by omega))
  case mix4 =>
    rw [Block64.bytes_eq_flatMap, Block64.bytes_eq_flatMap]
    exact flatMap_quadBytes_getElem?_of_word (mix4_words_getElem? x hj) hk
  case round =>
    have hcol (j : Nat) (hj : j < 4) := shiftRows_subBytes_getElem? hc hj (h j hj)
    rw [aesRound, addRoundKey, Lane.bytes_xor]
    exact zipWith_xor_getElem? (mixColumns_bytes_getElem? (a := fun j => sbox (a j)) hc hr hcol) hk

end Sys2Proof.Machine
end

section
/-! SUPPORT. Both Haraka permutations are bijections (41_haraka.md R148): a round is two passes, each lane by lane a
bijective AES round, and a shuffle of words, which has an inverse. -/

namespace Sys2Proof.Machine

/-! Maps of a block, lane by lane. -/

/-- Lane l of a 32-byte block mapped by `f l`. -/
def mapBlock32 (f : Nat → Lane → Lane) (x : Block32) : Block32 := ⟨f 0 x.l0, f 1 x.l1⟩

/-- Lane l of a 64-byte block mapped by `f l`. -/
def mapBlock64 (f : Nat → Lane → Lane) (x : Block64) : Block64 := ⟨f 0 x.l0, f 1 x.l1, f 2 x.l2, f 3 x.l3⟩

section
variable {f : Nat → Lane → Lane} (hf : ∀ l, Function.Bijective (f l))
include hf

theorem exists_lanewise_inverse :
    ∃ g : Nat → Lane → Lane, (∀ l s, g l (f l s) = s) ∧ ∀ l s, f l (g l s) = s := by
  choose g hgf hfg using fun l => Function.bijective_iff_has_inverse.mp (hf l)
  exact ⟨g, hgf, hfg⟩

theorem mapBlock32_bijective : Function.Bijective (mapBlock32 f) := by
  obtain ⟨g, hgf, hfg⟩ := exists_lanewise_inverse hf
  refine Function.bijective_iff_has_inverse.mpr ⟨mapBlock32 g, fun x => ?_, fun x => ?_⟩
  · simp only [mapBlock32, hgf]
  · simp only [mapBlock32, hfg]

theorem mapBlock64_bijective : Function.Bijective (mapBlock64 f) := by
  obtain ⟨g, hgf, hfg⟩ := exists_lanewise_inverse hf
  refine Function.bijective_iff_has_inverse.mpr ⟨mapBlock64 g, fun x => ?_, fun x => ?_⟩
  · simp only [mapBlock64, hgf]
  · simp only [mapBlock64, hfg]

end

/-! The passes and the shuffles. -/

theorem pass256_eq_mapBlock32 (C : List Lane) (r p : Nat) :
    pass256 C r p = mapBlock32 fun l s => aesRound s (constantAt C (4 * r + 2 * p + l)) := rfl

theorem pass512_eq_mapBlock64 (C : List Lane) (r p : Nat) :
    pass512 C r p = mapBlock64 fun l s => aesRound s (constantAt C (8 * r + 4 * p + l)) := rfl

theorem pass256_bijective (C : List Lane) (r p : Nat) : Function.Bijective (pass256 C r p) :=
  pass256_eq_mapBlock32 C r p ▸ mapBlock32_bijective fun _ => aesRound_bijective _

theorem pass512_bijective (C : List Lane) (r p : Nat) : Function.Bijective (pass512 C r p) :=
  pass512_eq_mapBlock64 C r p ▸ mapBlock64_bijective fun _ => aesRound_bijective _

/-- The words put back where `mix2` took them from. -/
def unmix2 (y : Block32) : Block32 :=
  ⟨⟨y.l0.w0, y.l0.w2, y.l1.w0, y.l1.w2⟩, ⟨y.l0.w1, y.l0.w3, y.l1.w1, y.l1.w3⟩⟩

/-- The words put back where `mix4` took them from. -/
def unmix4 (y : Block64) : Block64 :=
  ⟨⟨y.l1.w1, y.l2.w1, y.l3.w0, y.l0.w0⟩, ⟨y.l1.w3, y.l2.w3, y.l3.w2, y.l0.w2⟩,
   ⟨y.l1.w0, y.l2.w0, y.l3.w1, y.l0.w1⟩, ⟨y.l1.w2, y.l2.w2, y.l3.w3, y.l0.w3⟩⟩

theorem mix2_bijective : Function.Bijective mix2 :=
  Function.bijective_iff_has_inverse.mpr ⟨unmix2, fun _ => rfl, fun _ => rfl⟩

theorem mix4_bijective : Function.Bijective mix4 :=
  Function.bijective_iff_has_inverse.mpr ⟨unmix4, fun _ => rfl, fun _ => rfl⟩

/-! The rounds and the permutations. -/

theorem round256_bijective (C : List Lane) (r : Nat) : Function.Bijective fun x => round256 C x r :=
  mix2_bijective.comp ((pass256_bijective C r 1).comp (pass256_bijective C r 0))

theorem round512_bijective (C : List Lane) (r : Nat) : Function.Bijective fun x => round512 C x r :=
  mix4_bijective.comp ((pass512_bijective C r 1).comp (pass512_bijective C r 0))

/-- Bijective rounds one after another are a bijection. -/
theorem foldl_bijective {α β : Type} {f : α → β → α} (hf : ∀ b, Function.Bijective fun a => f a b)
    (l : List β) : Function.Bijective fun a => l.foldl f a := by
  induction l with
  | nil => exact Function.bijective_id
  | cons b l ih => exact ih.comp (hf b)

/-- Settles O31: five bijective rounds. -/
theorem harakaPermutationsAreBijective : Obligations.HarakaPermutationsAreBijective := by
  unfold Obligations.HarakaPermutationsAreBijective
  exact fun C => ⟨foldl_bijective (round256_bijective C) _, foldl_bijective (round512_bijective C) _⟩

end Sys2Proof.Machine
end

section
/-! SUPPORT. The operand check of H256K and H512K (41_haraka.md R150). -/

namespace Sys2Proof.Machine

section
variable {i : Instr} {s : State} (hm : i.readsMessage = false) (hk : i.makesKeys = false) (hidle : s.Idle)
include hm hk hidle

/-- A command whose only operand check is the window faults at issue where the window leaves the key buffer. -/
theorem exec_window_faults (hw : s.cfg.keyBufLen < i.windowEnd) :
    ∃ t, exec i s = .next t ∧ TookFault .windowOob s t :=
  ⟨_, exec_idle_fault hidle (by simp [operandFault, hm, hk, hw]), tookFault_raiseFault _ _⟩

/-- A command whose only operand check is the window is accepted where the window lies inside the key buffer. -/
theorem exec_window_accepted (hw : i.windowEnd ≤ s.cfg.keyBufLen) :
    ∃ t, exec i s = .next t ∧ Accepted i s t :=
  ⟨_, exec_idle_accept hidle (by simp [operandFault, hm, hk, hw]), accepted_acceptOf i s⟩

end

/-- The window index has 9 bits (45_finalizer_hash.md R201). -/
theorem windowIndex_lt (mix : Word64) : windowIndex mix < 512 := by
  rw [windowIndex, BitVec.toNat_and]
  exact Nat.lt_succ_of_le Nat.and_le_right

/-- Settles O17: the window's end against the key buffer. -/
theorem windowFaultOfKeyedHaraka : Obligations.WindowFaultOfKeyedHaraka := by
  unfold Obligations.WindowFaultOfKeyedHaraka
  intro s w hidle
  have accepted256 : 16 * w + 16 * 20 ≤ s.cfg.keyBufLen →
      ∃ t, exec (.h256k w) s = .next t ∧ Accepted (.h256k w) s t :=
    exec_window_accepted (i := .h256k w) rfl rfl hidle
  have accepted512 : 16 * w + 16 * 40 ≤ s.cfg.keyBufLen →
      ∃ t, exec (.h512k w) s = .next t ∧ Accepted (.h512k w) s t :=
    exec_window_accepted (i := .h512k w) rfl rfl hidle
  refine ⟨exec_window_faults (i := .h256k w) rfl rfl hidle, exec_window_faults (i := .h512k w) rfl rfl hidle,
    fun hlen hw => accepted256 (by omega), fun hlen hw => accepted512 (by omega), accepted256, accepted512,
    fun mix => ?_⟩
  have := windowIndex_lt mix
  omega

end Sys2Proof.Machine
end

section
/-! SUPPORT. The commands H256, H256K, H512 and H512K (41_haraka.md R149, R151 to R154) and what their result is: the
rounds (R141, R144, R146), the feed-forward and the truncation (R145, R147). -/

namespace Sys2Proof.Machine

/-! The commands. -/

/-- The window a keyed command reads is the slice of `KB` that R140 names, where it lies inside the buffer. -/
theorem windowKB_eq_window (s : State) {w n : Nat} (h : 16 * w + 16 * n ≤ 8832) :
    s.windowKB w n = window (s.bytesAt Region.kb.base 8832) w n := by
  refine List.map_congr_left fun k hk => ?_
  have hk := List.mem_range.mp hk
  rw [bytesAt_drop, Lane.ofBytes_take, bytesAt_take _ _ _ _ (by omega), State.laneAt, Nat.add_assoc]

/-- The completion of a command whose effect is the write of a value to `Y`. -/
theorem completion_writes_y {i : Instr} {s : State} {v : Block32} (hrun : s.Running i) (hs : i ≠ .search)
    (hv : i ≠ .verify) (hrow : i.writeRanges = [(0x00C0, 32)]) (heffect : effectOf i s = s.putY v) :
    ∃ t, exec i s = .next t ∧ Finished s t ∧ SameRest s t ∧ t.Holds 0x00C0 v.bytes ∧
      SameOutside s t [(0x00C0, 32)] := by
  obtain ⟨t, ht, hfin, hrest, hmem, hout⟩ := completion_of_running hrun hs hv
  refine ⟨t, ht, hfin, hrest, fun k hk => ?_, hrow ▸ hout⟩
  rw [hmem, heffect]
  exact holds_put s .y 0 v.bytes k hk

/-! The rounds. -/

theorem constantAt_eq {C : List Lane} {j : Nat} {l : Lane} (h : C[j]? = some l) : constantAt C j = l := by
  rw [constantAt, List.getD_eq_getElem?_getD, h, Option.getD_some]

/-- Round r of Haraka-256 (R144): two AES rounds a lane, then the shuffle. -/
theorem round256_eq {C : List Lane} {k : Nat → Lane} (hC : ∀ j, j < 20 → C[j]? = some (k j)) {r : Nat}
    (hr : r < 5) (y : Block32) :
    round256 C y r = mix2
      ⟨aesRound (aesRound y.l0 (k (4 * r))) (k (4 * r + 2)),
       aesRound (aesRound y.l1 (k (4 * r + 1))) (k (4 * r + 3))⟩ := by
  have hconst (j : Nat) (hj : j < 20) : constantAt C j = k j := constantAt_eq (hC j hj)
  simp (disch := omega) only [round256, pass256, hconst, Nat.mul_zero, Nat.mul_one, Nat.add_zero, Nat.add_assoc,
    Nat.reduceAdd]

/-- Round r of Haraka-512 (R146): two AES rounds a lane, then the shuffle. -/
theorem round512_eq {C : List Lane} {k : Nat → Lane} (hC : ∀ j, j < 40 → C[j]? = some (k j)) {r : Nat}
    (hr : r < 5) (y : Block64) :
    round512 C y r = mix4
      ⟨aesRound (aesRound y.l0 (k (8 * r))) (k (8 * r + 4)),
       aesRound (aesRound y.l1 (k (8 * r + 1))) (k (8 * r + 5)),
       aesRound (aesRound y.l2 (k (8 * r + 2))) (k (8 * r + 6)),
       aesRound (aesRound y.l3 (k (8 * r + 3))) (k (8 * r + 7))⟩ := by
  have hconst (j : Nat) (hj : j < 40) : constantAt C j = k j := constantAt_eq (hC j hj)
  simp (disch := omega) only [round512, pass512, hconst, Nat.mul_zero, Nat.mul_one, Nat.add_zero, Nat.add_assoc,
    Nat.reduceAdd]

/-! The truncation. -/

/-- Word j of the truncation: the high halves of lanes 0 and 1, the low halves of lanes 2 and 3 (R147). -/
theorem trunc512_words_getElem? (t : Block64) {j : Nat} (hj : j < 8) :
    (trunc512 t).words[j]? = t.words[[2, 3, 6, 7, 8, 9, 12, 13].getD j 0]? := by
  interval_cases j <;> rfl

/-- The bytes of R147, word by word. -/
theorem trunc512_indices : ∀ j < 32,
    [8, 24, 32, 48].getD (j / 8) 0 + j % 8 = 4 * [2, 3, 6, 7, 8, 9, 12, 13].getD (j / 4) 0 + j % 4 := by
  decide

theorem trunc512_bytes_getElem? (t : Block64) {j : Nat} (hj : j < 32) :
    (trunc512 t).bytes[j]? = t.bytes[[8, 24, 32, 48].getD (j / 8) 0 + j % 8]? := by
  rw [trunc512_indices j hj, Block32.bytes_eq_flatMap, Block64.bytes_eq_flatMap]
  exact flatMap_quadBytes_getElem?_of_word_div (trunc512_words_getElem? t (by omega))

/-- Settles O32: each command by the completion that writes `Y`, its result by the rounds, the feed-forward and the
truncation. -/
theorem harakaCommandsWriteTheirResult : Obligations.HarakaCommandsWriteTheirResult := by
  unfold Obligations.HarakaCommandsWriteTheirResult
  refine ⟨fun s hrun => ?h256, fun s w hrun hw => ?h256k, fun s hrun => ?h512, fun s w hrun hw => ?h512k,
    fun x C k hC => ?rounds256, fun x C k hC => ?rounds512, fun x C j a b hj ha hb => ?feed256,
    fun x C j m a b hj hm ha hb => ?feed512⟩
  case h256 => exact completion_writes_y hrun (by simp) (by simp) rfl rfl
  case h256k =>
    exact completion_writes_y hrun (by simp) (by simp) rfl
      (congrArg (fun C => s.putY (haraka256 s.operand256 C)) (windowKB_eq_window s hw))
  case h512 => exact completion_writes_y hrun (by simp) (by simp) rfl rfl
  case h512k =>
    exact completion_writes_y hrun (by simp) (by simp) rfl
      (congrArg (fun C => s.putY (haraka512 s.operand512 C)) (windowKB_eq_window s hw))
  case rounds256 => exact List.foldl_ext _ _ _ fun y r hr => round256_eq hC (List.mem_range.mp hr) y
  case rounds512 => exact List.foldl_ext _ _ _ fun y r hr => round512_eq hC (List.mem_range.mp hr) y
  case feed256 =>
    rw [haraka256, Block32.bytes_xor]
    exact zipWith_xor_getElem? ha hb
  case feed512 =>
    rw [haraka512, trunc512_bytes_getElem? _ hj, ← hm, Block64.bytes_xor]
    exact zipWith_xor_getElem? ha hb

end Sys2Proof.Machine
end

section
/-! SUPPORT. Zero padding of byte arrays (00_scope.md R10): zero bytes appended before the padding cannot be told from
it. -/

namespace Sys2Proof

theorem zeros_append_zeros (j k : Nat) : zeros j ++ zeros k = zeros (j + k) := List.replicate_append_replicate

theorem zeros_take (j k : Nat) : (zeros k).take j = zeros (min j k) := List.take_replicate

theorem zeros_drop (j k : Nat) : (zeros k).drop j = zeros (k - j) := List.drop_replicate

theorem padTo_append_zeros {n k : Nat} {bs : List Byte} (h : bs.length + k ≤ n) :
    padTo n (bs ++ zeros k) = padTo n bs := by
  have hk : k + (n - (bs.length + k)) = n - bs.length := by omega
  rw [padTo, padTo, List.append_assoc, List.length_append, zeros_length, zeros_append_zeros, hk]

/-- Zero bytes after an array, as many as there may be, change none of its first `n` bytes padded to `n`. -/
theorem padTo_take_append_zeros (n k : Nat) (bs : List Byte) :
    padTo n ((bs ++ zeros k).take n) = padTo n (bs.take n) := by
  rw [List.take_append, zeros_take]
  exact padTo_append_zeros (by rw [List.length_take]; omega)

end Sys2Proof
end

section
/-! SUPPORT. The sponge (42_sponge.md R170 to R173): the loop of R171 round by round, and the chunks its rounds read. -/

namespace Sys2Proof.Machine

/-! The loop. -/

/-- The state of the loop of R171 after `n` rounds. -/
def spongeRounds (rc : List Lane) (m : List Byte) (n : Nat) : Block64 :=
  (List.range n).foldl (fun st i => absorb rc st (Block32.ofBytes (chunkAt m i))) (Block64.fill 0)

theorem sponge_eq_spongeRounds (rc : List Lane) (m : List Byte) :
    sponge rc m = spongeRounds rc m (chunkCount m) := rfl

theorem spongeRounds_zero (rc : List Lane) (m : List Byte) : spongeRounds rc m 0 = Block64.fill 0 := rfl

theorem spongeRounds_succ (rc : List Lane) (m : List Byte) (n : Nat) :
    spongeRounds rc m (n + 1) = absorb rc (spongeRounds rc m n) (Block32.ofBytes (chunkAt m n)) := by
  rw [spongeRounds, List.range_succ, List.foldl_append, List.foldl_cons, List.foldl_nil, spongeRounds]

/-- The rounds read nothing of a message but its chunks. -/
theorem spongeRounds_congr (rc : List Lane) {m m' : List Byte} {n : Nat} (h : ∀ i, i < n → chunkAt m i = chunkAt m' i) :
    spongeRounds rc m n = spongeRounds rc m' n :=
  List.foldl_ext _ _ _ fun st i hi => by rw [h i (List.mem_range.mp hi)]

theorem chunkCount_pos (m : List Byte) : 0 < chunkCount m := Nat.le_max_left 1 _

/-- Every sponge ends with a round, since even the empty message has a chunk. -/
theorem exists_sponge_eq_absorb (rc : List Lane) (m : List Byte) :
    ∃ (st : Block64) (chunk : Block32), sponge rc m = absorb rc st chunk := by
  obtain ⟨n, hn⟩ := Nat.exists_eq_succ_of_ne_zero (chunkCount_pos m).ne'
  exact ⟨_, _, by rw [sponge_eq_spongeRounds, hn, spongeRounds_succ]⟩

/-- What a round leaves (R172): the output of the permutation, then 32 zero bytes. -/
theorem absorb_bytes (rc : List Lane) (st : Block64) (chunk : Block32) :
    (absorb rc st chunk).bytes =
      (haraka512 ⟨st.l0, st.l1, st.l2.xor chunk.l0, st.l3.xor chunk.l1⟩ (rc.take 40)).bytes ++ zeros 32 := rfl

theorem sponge_bytes_drop (rc : List Lane) (m : List Byte) : (sponge rc m).bytes.drop 32 = zeros 32 := by
  obtain ⟨st, chunk, h⟩ := exists_sponge_eq_absorb rc m
  rw [h, absorb_bytes]
  exact List.drop_left' (Block32.bytes_length _)

/-- Settles O33: a round by what it leaves, the sponge since it ends with a round. -/
theorem spongeSecondHalfIsZero : Obligations.SpongeSecondHalfIsZero := by
  unfold Obligations.SpongeSecondHalfIsZero
  exact ⟨absorb_bytes, sponge_bytes_drop⟩

/-! The chunks of a message that is put together. -/

theorem chunkAt_zero_of_length_le {b : List Byte} (hb : b.length ≤ 32) : chunkAt b 0 = padTo 32 b := by
  rw [chunkAt, Nat.mul_zero, List.drop_zero, List.take_of_length_le hb]

theorem chunkCount_of_length_le {b : List Byte} (hb : b.length ≤ 32) : chunkCount b = 1 := by
  rw [chunkCount]
  omega

section
variable {a : List Byte} {n : Nat} (ha : a.length = 32 * n)
include ha

/-- The chunks of a whole number of chunks stay what they are when more bytes follow. -/
theorem chunkAt_append_left (b : List Byte) {i : Nat} (hi : i < n) : chunkAt (a ++ b) i = chunkAt a i := by
  have hlen : 32 ≤ (a.drop (32 * i)).length := by rw [List.length_drop]; omega
  rw [chunkAt, chunkAt, List.drop_append_of_le_length (by omega), List.take_append_of_le_length hlen]

/-- The chunk after a whole number of chunks is the first of what follows. -/
theorem chunkAt_append_right (b : List Byte) : chunkAt (a ++ b) n = chunkAt b 0 := by
  rw [chunkAt, chunkAt, List.drop_left' ha, Nat.mul_zero, List.drop_zero]

theorem chunkCount_of_whole (hn : 0 < n) : chunkCount a = n := by
  rw [chunkCount]
  omega

theorem chunkCount_append {b : List Byte} (hb : b.length ≤ 32) (hpos : 0 < b.length) :
    chunkCount (a ++ b) = n + 1 := by
  rw [chunkCount, List.length_append]
  omega

end

/-- A message of at most one chunk is absorbed in one round. -/
theorem sponge_of_length_le (rc : List Lane) {b : List Byte} (hb : b.length ≤ 32) :
    sponge rc b = absorb rc (Block64.fill 0) (Block32.ofBytes (padTo 32 b)) := by
  rw [sponge_eq_spongeRounds, chunkCount_of_length_le hb, spongeRounds_succ, spongeRounds_zero,
    chunkAt_zero_of_length_le hb]

/-- One more chunk is one more round. -/
theorem sponge_append (rc : List Lane) {a b : List Byte} {n : Nat} (ha : a.length = 32 * n) (hn : 0 < n)
    (hb : b.length ≤ 32) (hpos : 0 < b.length) :
    sponge rc (a ++ b) = absorb rc (sponge rc a) (Block32.ofBytes (padTo 32 b)) := by
  rw [sponge_eq_spongeRounds, chunkCount_append ha hb hpos, spongeRounds_succ,
    spongeRounds_congr rc fun i hi => chunkAt_append_left ha b hi, chunkAt_append_right ha, chunkAt_zero_of_length_le hb,
    sponge_eq_spongeRounds rc a, chunkCount_of_whole ha hn]

/-- Settles O34: the zero-padded `b` is its one chunk, and behind whole chunks it is the chunk of one more round. -/
theorem spongeAbsorbsChunkByChunk : Obligations.SpongeAbsorbsChunkByChunk := by
  unfold Obligations.SpongeAbsorbsChunkByChunk
  intro rc a b hb
  refine ⟨sponge_of_length_le rc hb, fun hbne hane hmod => ?_⟩
  have hapos := List.length_pos_iff.mpr hane
  exact sponge_append rc (n := a.length / 32) (by omega) (by omega) hb (List.length_pos_iff.mpr hbne)

/-! Trailing zero bytes (R173). -/

/-- No chunk tells zero bytes at the end of the message from the padding. -/
theorem chunkAt_append_zeros (m : List Byte) (k i : Nat) : chunkAt (m ++ zeros k) i = chunkAt m i := by
  rw [chunkAt, chunkAt, List.drop_append, zeros_drop, padTo_take_append_zeros]

theorem sponge_append_zeros (rc : List Lane) {m : List Byte} {k : Nat}
    (h : chunkCount (m ++ zeros k) = chunkCount m) : sponge rc (m ++ zeros k) = sponge rc m := by
  rw [sponge_eq_spongeRounds, sponge_eq_spongeRounds, h]
  exact spongeRounds_congr rc fun i _ => chunkAt_append_zeros m k i

/-- Nor does the block of the mixer (43_clhash_mixer.md R182), for any number of them. -/
theorem msgBlock_append_zeros (m : List Byte) (k : Nat) : msgBlock (m ++ zeros k) = msgBlock m :=
  padTo_take_append_zeros 64 k m

theorem clmix_append_zeros (kEven kOdd : Word64) (m ps : List Byte) (k : Nat) :
    clmix kEven kOdd (m ++ zeros k) ps = clmix kEven kOdd m ps := by
  rw [clmix, clmix, msgBlock_append_zeros]

/-- The hash reads the message through the sponge and the mixer (45_finalizer_hash.md R204). -/
theorem hash_append_zeros (c : Config) {m : List Byte} {k : Nat} (h : chunkCount (m ++ zeros k) = chunkCount m) :
    hash c (m ++ zeros k) = hash c m := by
  rw [hash, hash, sponge_append_zeros c.rc h, clmix_append_zeros]

/-- Settles O35: the zero bytes need no further chunk. -/
theorem trailingZerosAreInvisible : Obligations.TrailingZerosAreInvisible := by
  unfold Obligations.TrailingZerosAreInvisible
  intro c m k h
  have hcount : chunkCount (m ++ zeros k) = chunkCount m := by
    obtain ⟨-, hceil⟩ | ⟨rfl, hk⟩ := h
    · rw [chunkCount, chunkCount, List.length_append, zeros_length, hceil]
    · rw [List.nil_append, chunkCount_of_length_le (by simpa using hk), chunkCount_of_length_le (by simp)]
  exact ⟨sponge_append_zeros c.rc hcount, hash_append_zeros c hcount⟩

end Sys2Proof.Machine
end

section
/-! SUPPORT. The command SPONGE (42_sponge.md R174). The lemmas on its issue and completion are stated for every command
of its kind. -/

namespace Sys2Proof.Machine

/-- A command that reads the message faults at issue where the message is too long, whatever else it checks. -/
theorem exec_message_faults {i : Instr} {s : State} (hm : i.readsMessage = true) (hidle : s.Idle)
    (hlen : s.cfg.msgMax < s.msgLen.toNat) : ∃ t, exec i s = .next t ∧ TookFault .msglenRange s t :=
  ⟨_, exec_idle_fault hidle (by simp [operandFault, hm, hlen]), tookFault_raiseFault _ _⟩

/-- A command that neither makes keys nor has a window is accepted where the message fits its buffer. -/
theorem exec_message_accepted {i : Instr} {s : State} (hk : i.makesKeys = false) (hw : i.windowEnd = 0)
    (hidle : s.Idle) (hlen : s.msgLen.toNat ≤ s.cfg.msgMax) : ∃ t, exec i s = .next t ∧ Accepted i s t :=
  ⟨_, exec_idle_accept hidle (by simp [operandFault, hk, hw, hlen]), accepted_acceptOf i s⟩

/-- The completion of a command whose effect is the write of bytes to a buffer. -/
theorem completion_puts {i : Instr} {s : State} {r : Region} {off : Nat} {bs : List Byte} (hrun : s.Running i)
    (hs : i ≠ .search) (hv : i ≠ .verify) (heffect : effectOf i s = s.put r off bs) :
    ∃ t, exec i s = .next t ∧ Finished s t ∧ SameRest s t ∧ t.Holds (r.base + off) bs ∧
      SameOutside s t i.writeRanges := by
  obtain ⟨t, ht, hfin, hrest, hmem, hout⟩ := completion_of_running hrun hs hv
  refine ⟨t, ht, hfin, hrest, fun k hk => ?_, hout⟩
  rw [hmem, heffect]
  exact holds_put s r off bs k hk

/-- Settles O36: the word by the encoder, the issue by the check of the message length, the completion by the write of
the sponge to `S`. -/
theorem spongeCommandWritesS : Obligations.SpongeCommandWritesS := by
  unfold Obligations.SpongeCommandWritesS
  refine ⟨decodeWord_encode (i := .sponge) rfl, fun s hidle => ⟨?accepted, ?fault⟩, fun s hrun => ?completion⟩
  case accepted => exact exec_message_accepted rfl rfl hidle
  case fault => exact exec_message_faults rfl hidle
  case completion =>
    exact completion_puts (r := .s) (off := 0) (bs := (sponge s.cfg.rc s.message).bytes) hrun (by simp) (by simp) rfl

end Sys2Proof.Machine
end

section
/-! SUPPORT. The carry-less multiplier (43_clhash_mixer.md R180, R181): each bit of the product is the parity of a count
of places, and the laws of the multiplier are those of the parity. -/

namespace Sys2Proof.Machine

/-! The parity of the number of places below `n` where `f` holds. -/

/-- The exclusive-or of `f 0` to `f (n - 1)`, as the parity of a count. -/
def parityBelow (n : Nat) (f : Nat → Bool) : Bool := decide (((List.range n).filter f).length % 2 = 1)

@[simp] theorem parityBelow_zero (f : Nat → Bool) : parityBelow 0 f = false := rfl

theorem parityBelow_succ (n : Nat) (f : Nat → Bool) : parityBelow (n + 1) f = (parityBelow n f ^^ f n) := by
  rw [parityBelow, parityBelow, List.range_succ, List.filter_append, List.length_append]
  cases hf : f n with
  | false => simp [hf]
  | true =>
    rcases Nat.mod_two_eq_zero_or_one ((List.range n).filter f).length with h | h <;> simp [hf, Nat.add_mod, h]

theorem parityBelow_congr {n : Nat} {f g : Nat → Bool} (h : ∀ i, i < n → f i = g i) :
    parityBelow n f = parityBelow n g := by
  rw [parityBelow, parityBelow, List.filter_congr fun i hi => h i (List.mem_range.mp hi)]

theorem parityBelow_xor (n : Nat) (f g : Nat → Bool) :
    parityBelow n (fun i => f i ^^ g i) = (parityBelow n f ^^ parityBelow n g) := by
  induction n with
  | zero => rfl
  | succ n ih => simp only [parityBelow_succ, ih, Bool.xor_assoc, Bool.xor_left_comm]

/-- Counting the places from the other end gives the same parity. -/
theorem parityBelow_reflect (k : Nat) (f : Nat → Bool) :
    parityBelow (k + 1) (fun i => f (k - i)) = parityBelow (k + 1) f := by
  have hrev : (List.range (k + 1)).reverse = (List.range (k + 1)).map (k - ·) := by
    simp [List.range_eq_range', List.reverse_range']
  have hcount : ((List.range (k + 1)).filter f).length = ((List.range (k + 1)).filter (f ∘ (k - ·))).length := by
    rw [← List.length_reverse, ← List.filter_reverse, hrev, List.filter_map, List.length_map]
  rw [parityBelow, parityBelow, hcount, Function.comp_def]

/-- Places where `f` does not hold do not count. -/
theorem parityBelow_eq_of_le {m n : Nat} {f : Nat → Bool} (h : n ≤ m) (hf : ∀ i, n ≤ i → f i = false) :
    parityBelow m f = parityBelow n f := by
  induction m, h using Nat.le_induction with
  | base => rfl
  | succ m hm ih => rw [parityBelow_succ, hf m hm, Bool.xor_false, ih]

theorem parityBelow_of_unique {f : Nat → Bool} {j : Nat} (hf : ∀ i, i ≠ j → f i = false) (n : Nat) :
    parityBelow n f = (decide (j < n) && f j) := by
  induction n with
  | zero => simp
  | succ n ih =>
    rw [parityBelow_succ, ih]
    rcases Nat.lt_trichotomy j n with h | rfl | h
    · simp [hf n h.ne', h, h.le]
    · simp
    · simp [hf n h.ne, h.not_gt, Nat.not_lt.mpr h]

/-! The product (R180). -/

/-- The sum of the first `n` shifted multiples of `a` (R180). -/
def clmulRounds (a b : Word64) (n : Nat) : Word64 :=
  (List.range n).foldl (fun r j => if b.getLsbD j then r ^^^ (a <<< j) else r) 0#64

theorem clmul64_eq_clmulRounds (a b : Word64) : clmul64 a b = clmulRounds a b 64 := rfl

theorem clmulRounds_zero (a b : Word64) : clmulRounds a b 0 = 0#64 := rfl

theorem clmulRounds_succ (a b : Word64) (n : Nat) :
    clmulRounds a b (n + 1) = if b.getLsbD n then clmulRounds a b n ^^^ (a <<< n) else clmulRounds a b n := by
  rw [clmulRounds, List.range_succ, List.foldl_append, List.foldl_cons, List.foldl_nil, clmulRounds]

/-- Multiple j puts bit `k - j` of `a` at bit k. -/
theorem clmulRounds_getLsbD (a b : Word64) (n : Nat) {k : Nat} (hk : k < 64) :
    (clmulRounds a b n).getLsbD k =
      parityBelow n (fun j => decide (j ≤ k) && (b.getLsbD j && a.getLsbD (k - j))) := by
  induction n with
  | zero => rw [clmulRounds_zero, parityBelow_zero, BitVec.getLsbD_zero]
  | succ n ih =>
    rw [clmulRounds_succ, parityBelow_succ, ← ih]
    cases b.getLsbD n with
    | false => simp
    | true =>
      simp only [if_true, BitVec.getLsbD_xor, BitVec.getLsbD_shiftLeft, hk, ← decide_not, Nat.not_lt, decide_true,
        Bool.true_and]

/-- The multiples shifted past bit k do not reach it. -/
theorem clmul64_getLsbD (a b : Word64) {k : Nat} (hk : k < 64) :
    (clmul64 a b).getLsbD k = parityBelow (k + 1) (fun i => b.getLsbD i && a.getLsbD (k - i)) := by
  rw [clmul64_eq_clmulRounds, clmulRounds_getLsbD a b 64 hk, parityBelow_eq_of_le (n := k + 1) (by omega)]
  · exact parityBelow_congr fun i hi => by simp [Nat.le_of_lt_succ hi]
  · intro i hi
    simp [Nat.not_le.mpr hi]

/-- The sum over i + j = k read from the other end exchanges the factors. -/
theorem clmul64_comm (a b : Word64) : clmul64 a b = clmul64 b a := by
  refine BitVec.eq_of_getLsbD_eq fun k hk => ?_
  rw [clmul64_getLsbD a b hk, clmul64_getLsbD b a hk, ← parityBelow_reflect]
  refine parityBelow_congr fun i hi => ?_
  rw [Nat.sub_sub_self (Nat.le_of_lt_succ hi), Bool.and_comm]

/-- Settles O37: the parity, with the factors exchanged. -/
theorem clmulBitsAreGf2Coefficients : Obligations.ClmulBitsAreGf2Coefficients := by
  unfold Obligations.ClmulBitsAreGf2Coefficients
  intro a b k hk
  rw [clmul64_comm, clmul64_getLsbD b a hk, parityBelow]

/-! The laws (R181). -/

theorem clmul64_xor_right (a b b' : Word64) : clmul64 a (b ^^^ b') = clmul64 a b ^^^ clmul64 a b' := by
  refine BitVec.eq_of_getLsbD_eq fun k hk => ?_
  rw [BitVec.getLsbD_xor, clmul64_getLsbD a _ hk, clmul64_getLsbD a b hk, clmul64_getLsbD a b' hk, ← parityBelow_xor]
  refine parityBelow_congr fun i _ => ?_
  rw [BitVec.getLsbD_xor, Bool.and_xor_distrib_right]

theorem clmul64_xor_left (a a' b : Word64) : clmul64 (a ^^^ a') b = clmul64 a b ^^^ clmul64 a' b := by
  rw [clmul64_comm, clmul64_xor_right, clmul64_comm b a, clmul64_comm b a']

@[simp] theorem clmul64_zero (a : Word64) : clmul64 a 0#64 = 0#64 := by
  simpa using clmul64_xor_right a 0#64 0#64

/-- Of a power of two only the one bit counts. -/
theorem clmul64_twoPow (a : Word64) {j : Nat} (hj : j < 64) : clmul64 a (1#64 <<< j) = a <<< j := by
  have hbit (i : Nat) : (1#64 <<< j).getLsbD i = decide (i = j) := by
    rw [← BitVec.twoPow_eq, BitVec.getLsbD_twoPow]
    simp [hj, eq_comm]
  refine BitVec.eq_of_getLsbD_eq fun k hk => ?_
  simp only [clmul64_getLsbD a _ hk, hbit]
  rw [parityBelow_of_unique (j := j) fun i hi => by simp [hi], BitVec.getLsbD_shiftLeft]
  simp only [hk, ← decide_not, Nat.not_lt, Nat.lt_succ_iff, decide_true, Bool.true_and]

theorem clmul64_one (a : Word64) : clmul64 a 1#64 = a := by
  simpa using clmul64_twoPow a (j := 0) (by decide)

/-- Settles O38: each law by its lemma, the worked values by evaluation. -/
theorem clmulLaws : Obligations.ClmulLaws := by
  unfold Obligations.ClmulLaws
  exact ⟨clmul64_comm, clmul64_zero, clmul64_one, fun a _ hj => clmul64_twoPow a hj, clmul64_xor_left,
    clmul64_xor_right, by decide +kernel, by decide +kernel, by decide +kernel, by decide +kernel⟩

end Sys2Proof.Machine
end

section
/-! SUPPORT. The mixer (43_clhash_mixer.md R182 to R184): its lanes where the state or the message is zero. -/

namespace Sys2Proof.Machine

theorem leNat_zeros (n : Nat) : leNat (zeros n) = 0 := by
  induction n with
  | zero => rfl
  | succ n ih => rw [zeros, List.replicate_succ, leNat, ← zeros, ih]; rfl

/-- Every lane of a zero array is 0. -/
theorem lane64_zeros (n i : Nat) : lane64 (zeros n) i = 0#64 := by
  rw [lane64, zeros_drop, zeros_take, le64, leNat_zeros]

/-- A lane behind the first `8j` bytes is a lane of what follows them. -/
theorem lane64_drop (bs : List Byte) (j i : Nat) : lane64 (bs.drop (8 * j)) i = lane64 bs (j + i) := by
  rw [lane64, lane64, List.drop_drop, Nat.mul_add]

/-- The upper four lanes of a sponge are 0 (42_sponge.md R172). -/
theorem lane64_sponge_upper (rc : List Lane) (m : List Byte) (i : Nat) : lane64 (sponge rc m).bytes (4 + i) = 0#64 := by
  rw [← lane64_drop, sponge_bytes_drop, lane64_zeros]

/-- The last four lanes of the mixer, after the first four (R183). -/
theorem clmix_eq_lower_xor_upper (kEven kOdd : Word64) (m ps : List Byte) :
    clmix kEven kOdd m ps =
      (List.range 4).foldl (fun acc i => acc ^^^
        clmul64 (laneKey kEven kOdd i ^^^ lane64 ps i) (lane64 (msgBlock m) i)) 0#64
      ^^^ clmul64 (kEven ^^^ lane64 ps 4) (lane64 (msgBlock m) 4)
      ^^^ clmul64 (kOdd ^^^ lane64 ps 5) (lane64 (msgBlock m) 5)
      ^^^ clmul64 (kEven ^^^ lane64 ps 6) (lane64 (msgBlock m) 6)
      ^^^ clmul64 (kOdd ^^^ lane64 ps 7) (lane64 (msgBlock m) 7) := rfl

/-- A message whose first 64 bytes are zero has a zero block (R182). -/
theorem lane64_msgBlock_of_zero {m : List Byte} (h : ∀ b ∈ m.take 64, b = 0#8) (i : Nat) :
    lane64 (msgBlock m) i = 0#64 := by
  have hzeros : m.take 64 = zeros (m.take 64).length := List.eq_replicate_of_mem h
  rw [msgBlock, hzeros, padTo, zeros_append_zeros, lane64_zeros]

/-- The message enters through its first 64 bytes (R182). -/
theorem clmix_congr (kEven kOdd : Word64) {m m' : List Byte} (ps : List Byte) (h : m.take 64 = m'.take 64) :
    clmix kEven kOdd m ps = clmix kEven kOdd m' ps := by
  rw [clmix, clmix, msgBlock, msgBlock, h]

/-- Settles O39: the upper lanes of a sponge are 0, a product with a zero lane of the message is 0, and nothing else of
the message enters. -/
theorem clmixConsequences : Obligations.ClmixConsequences := by
  unfold Obligations.ClmixConsequences
  refine ⟨fun kEven kOdd m rc m' => ?sponge, fun kEven kOdd m ps h => ?zero,
    fun kEven kOdd m m' ps h => clmix_congr kEven kOdd ps h⟩
  case sponge =>
    have hupper := lane64_sponge_upper rc m'
    rw [clmix_eq_lower_xor_upper, hupper 0, hupper 1, hupper 2, hupper 3]
    simp only [BitVec.xor_zero]
  case zero =>
    simp only [clmix, lane64_msgBlock_of_zero h, clmul64_zero, BitVec.xor_zero, List.foldl_fixed]

end Sys2Proof.Machine
end

section
/-! SUPPORT. The command CLMIX (43_clhash_mixer.md R185). -/

namespace Sys2Proof.Machine

/-- The eight bytes of a 64-bit quantity read as that quantity (00_scope.md R11). -/
theorem le64_bytesAt_of_holds {s : State} {a : Nat} {v : Word64} (h : s.Holds a (le64Bytes v)) :
    le64 (s.bytesAt a 8) = v := by
  rw [← le64Bytes_length v, bytesAt_of_holds h, le64_le64Bytes]

/-- Settles O40: the word by the encoder, the issue by the check of the message length, the completion by the write of
the mix to `MIX`, where it is then read back. -/
theorem clmixCommandWritesMix : Obligations.ClmixCommandWritesMix := by
  unfold Obligations.ClmixCommandWritesMix
  refine ⟨decodeWord_encode (i := .clmix) rfl, fun s hidle => ⟨?accepted, ?fault⟩, fun s hrun => ?completion⟩
  case accepted => exact exec_message_accepted rfl rfl hidle
  case fault => exact exec_message_faults rfl hidle
  case completion =>
    obtain ⟨t, ht, hfin, hrest, hholds, hout⟩ :=
      completion_puts (r := .mix) (off := 0)
        (bs := le64Bytes (clmix s.cfg.kEven s.cfg.kOdd s.message (s.spongeS 64))) hrun (by simp) (by simp) rfl
    exact ⟨t, ht, hfin, hrest, le64_bytesAt_of_holds hholds, hholds, hout⟩

end Sys2Proof.Machine
end

section
/-! SUPPORT. The key stream (44_keystream.md R190): block k of the chain is the (k+1)-fold Haraka-256 of the seed, and
the stream is the blocks one after another. -/

namespace Sys2Proof.Machine

/-- Block k of the chain. -/
theorem keyChain_getElem? (rc : List Lane) {n k : Nat} (hk : k < n) (x : Block32) :
    (keyChain rc n x)[k]? = some ((fun b => haraka256 b (rc20 rc))^[k + 1] x) := by
  induction n generalizing k x with
  | zero => exact absurd hk (Nat.not_lt_zero k)
  | succ n ih =>
    cases k with
    | zero => rfl
    | succ k => rw [keyChain, List.getElem?_cons_succ, ih (Nat.lt_of_succ_lt_succ hk), ← Function.iterate_succ_apply]

/-- Where every element stands for `m` entries, entry `mk + j` is entry j of element k. -/
theorem flatMap_getElem?_of_length {α β : Type} {f : α → List β} {m : Nat} (hf : ∀ a, (f a).length = m)
    (l : List α) (k : Nat) {j : Nat} (hj : j < m) : (l.flatMap f)[m * k + j]? = l[k]?.bind fun a => (f a)[j]? := by
  induction l generalizing k with
  | nil => rfl
  | cons a l ih =>
    rw [List.flatMap_cons, List.getElem?_append, hf]
    cases k with
    | zero => simp [hj]
    | succ k =>
      have hindex : m * (k + 1) + j = m * k + j + m := by rw [Nat.mul_succ, Nat.add_right_comm]
      rw [hindex, if_neg (Nat.not_lt.mpr (Nat.le_add_left m _)), Nat.add_sub_cancel, ih, List.getElem?_cons_succ]

/-- Settles O41: the length of the stream, and its bytes as those of the blocks, of which `n` bytes' worth are
computed. -/
theorem keyStreamIsTheHarakaChain : Obligations.KeyStreamIsTheHarakaChain := by
  unfold Obligations.KeyStreamIsTheHarakaChain
  refine fun rc seed n => ⟨expandKey_length rc seed n, fun k j hj hn => ?_⟩
  have hblock : k < (n + 31) / 32 := by omega
  rw [expandKey, List.getElem?_take_of_lt hn, flatMap_getElem?_of_length Block32.bytes_length _ k hj,
    keyChain_getElem? rc hblock, Option.bind_some, rc20]

end Sys2Proof.Machine
end

section
/-! SUPPORT. The command KEYGEN (44_keystream.md R194). The lemmas on its issue are stated for every command of its
kind. -/

namespace Sys2Proof.Machine

/-- A command that makes keys and does not read the message faults at issue where the key buffer is too short
(60_exceptions.md R253). -/
theorem exec_keyBuf_faults {i : Instr} {s : State} (hm : i.readsMessage = false) (hk : i.makesKeys = true)
    (hidle : s.Idle) (hlen : s.cfg.keyBufLen < 8832) : ∃ t, exec i s = .next t ∧ TookFault .keybufTooSmall s t :=
  ⟨_, exec_idle_fault hidle (by simp [operandFault, hm, hk, hlen]), tookFault_raiseFault _ _⟩

/-- A command that neither reads the message nor has a window is accepted where the key buffer is whole. -/
theorem exec_keyBuf_accepted {i : Instr} {s : State} (hm : i.readsMessage = false) (hw : i.windowEnd = 0)
    (hidle : s.Idle) (hlen : 8832 ≤ s.cfg.keyBufLen) : ∃ t, exec i s = .next t ∧ Accepted i s t :=
  ⟨_, exec_idle_accept hidle (by simp [operandFault, hm, hw, hlen]), accepted_acceptOf i s⟩

/-- Settles O42: the word by the encoder, the issue by the check of the key buffer, the completion by the write of the
key stream to `KB`. -/
theorem keygenCommandFillsKB : Obligations.KeygenCommandFillsKB := by
  unfold Obligations.KeygenCommandFillsKB
  refine ⟨decodeWord_encode (i := .keygen) rfl, fun s hidle => ⟨?accepted, ?fault⟩, fun s hrun => ?completion⟩
  case accepted => exact exec_keyBuf_accepted rfl rfl hidle
  case fault => exact exec_keyBuf_faults rfl rfl hidle
  case completion =>
    exact completion_puts (r := .kb) (off := 0)
      (bs := expandKey s.cfg.rc (Block32.ofBytes (s.spongeS 32)) 8832) hrun (by simp) (by simp) rfl

end Sys2Proof.Machine
end

section
/-! SUPPORT. The finalizer (45_finalizer_hash.md R200 to R203): where its window lies, and that only the first 32 bytes
of the sponge enter. -/

namespace Sys2Proof

/-- A 32-byte block reads only the first 32 bytes. -/
theorem Block32.ofBytes_take (bs : List Byte) : Block32.ofBytes bs = Block32.ofBytes (bs.take 32) := by
  rw [Block32.ofBytes, Block32.ofBytes, Lane.ofBytes_take bs, Lane.ofBytes_take (bs.drop 16),
    Lane.ofBytes_take (bs.take 32), Lane.ofBytes_take ((bs.take 32).drop 16), List.take_take, List.drop_take,
    List.take_take]
  rfl

end Sys2Proof

namespace Sys2Proof.Machine

theorem windowIndex_eq_mod (mix : Word64) : windowIndex mix = mix.toNat % 512 := by
  rw [windowIndex, BitVec.toNat_and]
  exact Nat.and_two_pow_sub_one_eq_mod mix.toNat 9

/-- Settles O43: an index below 512, and the window's length. -/
theorem finalizerWindowStaysInside : Obligations.FinalizerWindowStaysInside := by
  unfold Obligations.FinalizerWindowStaysInside
  intro mix
  have hlt := windowIndex_lt mix
  exact ⟨windowIndex_eq_mod mix, by omega, by omega, by omega⟩

theorem finalState_take (ps : List Byte) (mix : Word64) : finalState (ps.take 32) mix = finalState ps mix := by
  rw [finalState, finalState, List.take_take, Nat.min_self]

theorem finalState_of_length {ps : List Byte} (h : ps.length = 32) (mix : Word64) :
    finalState ps mix = ps ++ le64Bytes mix ++ zeros 24 := by
  rw [finalState, List.take_of_length_le (Nat.le_of_eq h)]

theorem finalDigest_take (kb ps : List Byte) (mix : Word64) :
    finalDigest kb (ps.take 32) mix = finalDigest kb ps mix := by
  rw [finalDigest, finalDigest, finalState_take]

/-- The digest with its window as R201 counts it. -/
theorem finalDigest_eq (kb ps : List Byte) (mix : Word64) :
    finalDigest kb ps mix =
      haraka512 (Block64.ofBytes (finalState ps mix)) (window kb (mix.toNat % 512) 40) := by
  rw [finalDigest, windowIndex_eq_mod]

end Sys2Proof.Machine
end

section
/-! SUPPORT. The command FINAL (45_finalizer_hash.md R207), and the finalizer by hand (R203). -/

namespace Sys2Proof.Machine

theorem State.Holds.of_mem_eq {s t : State} {a : Nat} {bs : List Byte} (h : s.Holds a bs) (hmem : t.mem = s.mem) :
    t.Holds a bs :=
  fun k hk => hmem ▸ h k hk

theorem bytesAt_eq_of_holds {s : State} {a n : Nat} {bs : List Byte} (h : s.Holds a bs) (hn : bs.length = n) :
    s.bytesAt a n = bs :=
  hn ▸ bytesAt_of_holds h

/-- Bytes still stand after a write elsewhere. -/
theorem State.Holds.put {s : State} {a : Nat} {bs : List Byte} (h : s.Holds a bs) (r : Region) (off : Nat)
    (cs : List Byte) (hd : a + bs.length ≤ r.base + off ∨ r.base + off + cs.length ≤ a) :
    (s.put r off cs).Holds a bs :=
  h.of_sameOutside (sameOutside_put s r off cs) (by simpa using hd)

/-- The writes of FINAL, those of `KB` and then of `DIGEST`. -/
def State.putFinal (s : State) (kb : List Byte) (d : Block32) : State := (s.putKB kb).putDigest d

theorem effectOf_final (s : State) :
    effectOf .final s =
      s.putFinal (expandKey s.cfg.rc (Block32.ofBytes (s.spongeS 32)) 8832)
        (finalDigest (expandKey s.cfg.rc (Block32.ofBytes (s.spongeS 32)) 8832) (s.spongeS 32) s.mix) := rfl

theorem holds_kb_putFinal (s : State) (kb : List Byte) (d : Block32) : (s.putFinal kb d).Holds 0x1000 kb :=
  (holds_put s .kb 0 kb).put .digest 0 d.bytes (.inr (by simp [Region.base]))

theorem holds_digest_putFinal (s : State) (kb : List Byte) (d : Block32) :
    (s.putFinal kb d).Holds 0x0140 d.bytes :=
  holds_put (s.putKB kb) .digest 0 d.bytes

/-- Bytes below `DIGEST` still stand after the writes of FINAL. -/
theorem State.Holds.putFinal {s : State} {a : Nat} {bs : List Byte} (h : s.Holds a bs) (kb : List Byte) (d : Block32)
    (hd : a + bs.length ≤ 0x0140) : (s.putFinal kb d).Holds a bs :=
  (h.put .kb 0 kb (.inl (Nat.le_trans hd (by decide)))).put .digest 0 d.bytes (.inl hd)

/-- Settles O44: the word by the encoder, the issue by the check of the key buffer, the completion by the writes of
FINAL, the state having 32 bytes. -/
theorem finalCommandWritesKBAndDigest : Obligations.FinalCommandWritesKBAndDigest := by
  unfold Obligations.FinalCommandWritesKBAndDigest
  refine ⟨decodeWord_encode (i := .final) rfl, fun s hidle => ⟨?accepted, ?fault⟩, ?completion⟩
  case accepted => exact exec_keyBuf_accepted rfl rfl hidle
  case fault => exact exec_keyBuf_faults rfl rfl hidle
  case completion =>
    rintro s kb hrun rfl
    obtain ⟨t, ht, hfin, hrest, hmem, hout⟩ := completion_of_running hrun (by simp) (by simp)
    rw [effectOf_final] at hmem
    refine ⟨t, ht, hfin, hrest, (holds_kb_putFinal s _ _).of_mem_eq hmem, ?digest, hout⟩
    rw [← finalState_of_length (bytesAt_length s _ _), ← finalDigest_eq]
    exact (holds_digest_putFinal s _ _).of_mem_eq hmem

/-- Settles O45: both digests are the keyed Haraka-512 of the same state with the same window. -/
theorem finalizerByHandGivesTheDigest : Obligations.FinalizerByHandGivesTheDigest := by
  unfold Obligations.FinalizerByHandGivesTheDigest
  intro s s' t t' ps mix hps hrun hS hmix hrun' hcfg hKB hP ht ht' k hk
  obtain ⟨-, -, hfinal⟩ := finalCommandWritesKBAndDigest
  obtain ⟨-, -, -, hh512k, -⟩ := harakaCommandsWriteTheirResult
  have hSRead : s.bytesAt 0x0100 32 = ps := bytesAt_eq_of_holds hS hps
  have hmixRead : s.mix = mix := le64_bytesAt_of_holds hmix
  have hKBRead := bytesAt_eq_of_holds hKB (expandKey_length _ _ _)
  have hPRead := bytesAt_eq_of_holds (n := 64) hP (by simp [hps])
  obtain ⟨u, hu, -, -, -, hdigest, -⟩ := hfinal s _ hrun rfl
  obtain ⟨u', hu', -, -, hy, -⟩ := hh512k s' _ hrun' (by omega)
  obtain rfl : u = t := Host.Outcome.next.inj (hu.symm.trans ht)
  obtain rfl : u' = t' := Host.Outcome.next.inj (hu'.symm.trans ht')
  rw [hSRead, hmixRead] at hdigest
  rw [hPRead, hKBRead] at hy
  rw [hdigest k hk, hy k hk]

end Sys2Proof.Machine
end

section
/-! SUPPORT. The command HASH (45_finalizer_hash.md R204, R208). -/

namespace Sys2Proof.Machine

/-- The writes of HASH: those of `S`, of `MIX` and of FINAL. -/
theorem putHash_eq (s : State) (h : HashParts) :
    s.putHash h = ((s.putS h.sponge).putMix h.mix).putFinal h.kb h.digest := rfl

theorem effectOf_hash (s : State) : effectOf .hash s = s.putHash (hashParts s.cfg s.message) := rfl

theorem holds_putS_putMix (s : State) (ps : List Byte) (mix : Word64) :
    ((s.putS ps).putMix mix).Holds 0x0100 ps ∧ ((s.putS ps).putMix mix).Holds 0x0010 (le64Bytes mix) :=
  ⟨(holds_put s .s 0 ps).put .mix 0 (le64Bytes mix) (.inr (by simp [Region.base])),
    holds_put (s.putS ps) .mix 0 (le64Bytes mix)⟩

/-- After HASH its four values stand in their buffers. -/
theorem holds_putHash (s : State) (h : HashParts) (hps : h.sponge.length = 64) :
    (s.putHash h).Holds 0x0100 h.sponge ∧ (s.putHash h).Holds 0x0010 (le64Bytes h.mix) ∧
      (s.putHash h).Holds 0x1000 h.kb ∧ (s.putHash h).Holds 0x0140 h.digest.bytes := by
  obtain ⟨hS, hmix⟩ := holds_putS_putMix s h.sponge h.mix
  rw [putHash_eq]
  exact ⟨hS.putFinal _ _ (by simp [hps]), hmix.putFinal _ _ (by simp), holds_kb_putFinal _ _ _,
    holds_digest_putFinal _ _ _⟩

/-- Settles O46: the completion leaves the four writes, of which the last is the hash of the message as R204
defines it. -/
theorem hashCommandWritesItsFourBuffers : Obligations.HashCommandWritesItsFourBuffers := by
  unfold Obligations.HashCommandWritesItsFourBuffers
  rintro s m ps kb mix hrun rfl rfl rfl rfl
  obtain ⟨t, ht, hfin, hrest, hmem, hout⟩ := completion_of_running hrun (by simp) (by simp)
  rw [effectOf_hash] at hmem
  obtain ⟨hS, hmix, hKB, hdigest⟩ := holds_putHash s (hashParts s.cfg s.message) (by simp)
  have hD : t.Holds 0x0140 (hash s.cfg s.message).bytes := hdigest.of_mem_eq hmem
  refine ⟨t, ht, hfin, hrest, hS.of_mem_eq hmem, hmix.of_mem_eq hmem, hKB.of_mem_eq hmem, ?_, hD, hout⟩
  rw [← finalDigest_eq]
  exact hD

end Sys2Proof.Machine
end

section
/-! SUPPORT. HASH ends in the state that SPONGE, CLMIX and FINAL end in (45_finalizer_hash.md R208): each command is run
from its issue to its completion, and the memory left is the same list of cells. -/

namespace Sys2Proof.Machine

/-! A command from its issue to its completion. -/

/-- The state a command ends in, issued in `s` and completed in the next step. -/
def State.afterCommand (s : State) (i : Instr) : State := completeCommand (effectOf i (acceptOf i s))

/-- Idle, with a message that fits its buffer and a whole key buffer: every operand check of R252 passes but that of a
host-chosen window. -/
def State.ReadyToHash (s : State) : Prop :=
  s.Idle ∧ 8832 ≤ s.cfg.keyBufLen ∧ s.msgLen.toNat ≤ s.cfg.msgMax

section
variable {s : State} {i : Instr}

theorem State.ReadyToHash.operandFault_eq_none (h : s.ReadyToHash) (hw : i.windowEnd = 0) :
    operandFault i s = none := by
  obtain ⟨-, hkey, hmsg⟩ := h
  simp [operandFault, hw, Nat.not_lt.mpr hkey, Nat.not_lt.mpr hmsg]

theorem State.ReadyToHash.issue_and_completion (h : s.ReadyToHash) (hw : i.windowEnd = 0) (hs : i ≠ .search) :
    exec i s = .next (acceptOf i s) ∧ exec i (acceptOf i s) = .next (s.afterCommand i) := by
  have hrun : (acceptOf i s).Running i := ⟨by rw [acceptOf_status, Status.issued], acceptOf_pending i s⟩
  exact ⟨exec_idle_accept h.1 (h.operandFault_eq_none hw), exec_running hrun hs⟩

/-! Everything but memory after a command. -/

@[simp] theorem afterCommand_pending : (s.afterCommand i).pending = none := rfl

@[simp] theorem afterCommand_cfg : (s.afterCommand i).cfg = s.cfg := by
  obtain ⟨-, hcfg, -⟩ := effectOf_rest i (acceptOf i s)
  exact hcfg.trans (acceptOf_cfg i s)

@[simp] theorem afterCommand_msgLen (hs : i ≠ .search) : (s.afterCommand i).msgLen = s.msgLen := by
  obtain ⟨hlen, -⟩ := effectOf_rest i (acceptOf i s)
  rw [acceptOf_msgLen, if_neg hs] at hlen
  exact hlen

@[simp] theorem afterCommand_status (hv : i ≠ .verify) : (s.afterCommand i).status = s.status.issued.completed := by
  obtain ⟨-, -, -, -, -, b, hstatus, hb⟩ := effectOf_rest i (acceptOf i s)
  rw [hb hv, acceptOf_status] at hstatus
  exact congrArg Status.completed hstatus

@[simp] theorem issued_completed_issued (t : Status) : t.issued.completed.issued = t.issued := rfl

theorem State.ReadyToHash.afterCommand (h : s.ReadyToHash) (hs : i ≠ .search) (hv : i ≠ .verify) :
    (s.afterCommand i).ReadyToHash := by
  obtain ⟨⟨-, hfault⟩, hkey, hmsg⟩ := h
  rw [State.ReadyToHash, State.Idle, afterCommand_status hv, afterCommand_msgLen hs, afterCommand_cfg]
  exact ⟨⟨rfl, hfault⟩, hkey, hmsg⟩

end

/-! The memory after SPONGE, CLMIX and FINAL. -/

section
variable {s : State}

theorem afterCommand_sponge_mem : (s.afterCommand .sponge).mem = (s.putS (sponge s.cfg.rc s.message).bytes).mem := rfl

theorem afterCommand_clmix_mem :
    (s.afterCommand .clmix).mem = (s.putMix (clmix s.cfg.kEven s.cfg.kOdd s.message (s.spongeS 64))).mem := rfl

/-- FINAL reads the first half of a sponge that stands in `S`, and a mix that stands in `MIX`. -/
theorem afterCommand_final_mem {ps kb : List Byte} {mix : Word64} (hS : s.Holds 0x0100 ps) (hps : ps.length = 64)
    (hmix : s.Holds 0x0010 (le64Bytes mix)) (hkb : kb = expandKey s.cfg.rc (Block32.ofBytes ps) 8832) :
    (s.afterCommand .final).mem = finalCells s.mem kb (finalDigest kb ps mix) := by
  have hread : s.spongeS 32 = ps.take 32 := by
    rw [← bytesAt_eq_of_holds hS hps, bytesAt_take _ _ _ _ (by decide)]
    rfl
  have hmixRead : s.mix = mix := le64_bytesAt_of_holds hmix
  rw [← finalDigest_take, hkb, Block32.ofBytes_take, ← hread, ← hmixRead]
  rfl

theorem afterCommand_hash_mem : (s.afterCommand .hash).mem = (s.putHash (hashParts s.cfg s.message)).mem := rfl

variable (hw : s.Written 0x4000 s.msgLen.toNat)
include hw

/-- SPONGE leaves a written message. -/
theorem afterCommand_sponge_message : (s.afterCommand .sponge).message = s.message := by
  refine bytesAt_congr hw fun k _ => ?_
  rw [afterCommand_sponge_mem]
  exact readCell_writeCells_outside _ _ _ _ (by simp [Region.base]; omega)

theorem afterCommand_sponge_clmix_mem : ((s.afterCommand .sponge).afterCommand .clmix).mem =
    ((s.putS (hashParts s.cfg s.message).sponge).putMix (hashParts s.cfg s.message).mix).mem := by
  have hS : (s.afterCommand .sponge).spongeS 64 = (hashParts s.cfg s.message).sponge :=
    bytesAt_eq_of_holds ((holds_put s .s 0 _).of_mem_eq afterCommand_sponge_mem) (by simp)
  rw [afterCommand_clmix_mem, afterCommand_sponge_message hw, hS]
  rfl

theorem afterCommand_sponge_clmix_final_mem : (((s.afterCommand .sponge).afterCommand .clmix).afterCommand .final).mem =
    (s.putHash (hashParts s.cfg s.message)).mem := by
  have hmem := afterCommand_sponge_clmix_mem hw
  obtain ⟨hS, hmix⟩ := holds_putS_putMix s (hashParts s.cfg s.message).sponge (hashParts s.cfg s.message).mix
  rw [afterCommand_final_mem (hS.of_mem_eq hmem) (by simp) (hmix.of_mem_eq hmem) rfl, hmem]
  rfl

end

/-- Settles O47: three commands and one, each from its issue to its completion; the memories are one list of cells. -/
theorem hashEqualsSpongeClmixFinal : Obligations.HashEqualsSpongeClmixFinal := by
  unfold Obligations.HashEqualsSpongeClmixFinal
  intro s hidle hkey hmsg hw
  have hready : s.ReadyToHash := ⟨hidle, hkey, hmsg⟩
  have hready1 := hready.afterCommand (i := .sponge) (by simp) (by simp)
  have hready2 := hready1.afterCommand (i := .clmix) (by simp) (by simp)
  obtain ⟨hsponge, hsponge'⟩ := hready.issue_and_completion (i := .sponge) rfl (by simp)
  obtain ⟨hclmix, hclmix'⟩ := hready1.issue_and_completion (i := .clmix) rfl (by simp)
  obtain ⟨hfinal, hfinal'⟩ := hready2.issue_and_completion (i := .final) rfl (by simp)
  obtain ⟨hhash, hhash'⟩ := hready.issue_and_completion (i := .hash) rfl (by simp)
  refine ⟨_, _, _, _, _, _, _, _, hsponge, hsponge', hclmix, hclmix', hfinal, hfinal', hhash, hhash', fun a => ?_,
    by simp, by simp, by simp, by simp⟩
  rw [afterCommand_sponge_clmix_final_mem hw, afterCommand_hash_mem]

end Sys2Proof.Machine
end

section
/-! SUPPORT. Byte arrays as numbers (00_scope.md R11): the two readings are each other's on the reversed array, and the
number of an array put together. -/

namespace Sys2Proof

/-- The big-endian number of the reversed bytes is their little-endian number. -/
theorem beNat_reverse (bs : List Byte) : beNat bs.reverse = leNat bs := by
  induction bs with
  | nil => rfl
  | cons b bs ih =>
    have hsnoc : beNat (bs.reverse ++ [b]) = 256 * beNat bs.reverse + b.toNat := by simp [beNat]
    rw [List.reverse_cons, hsnoc, ih, leNat, Nat.add_comm]

theorem beNat_eq_leNat_reverse (bs : List Byte) : beNat bs = leNat bs.reverse := by
  rw [← beNat_reverse, List.reverse_reverse]

theorem leNat_append (as bs : List Byte) : leNat (as ++ bs) = leNat as + 256 ^ as.length * leNat bs := by
  induction as with
  | nil => simp [leNat]
  | cons a as ih => simp only [List.cons_append, leNat, ih, List.length_cons, Nat.pow_succ]; ring

theorem leNat_lt (bs : List Byte) : leNat bs < 256 ^ bs.length := by
  induction bs with
  | nil => exact Nat.one_pos
  | cons b bs ih =>
    have hb := b.isLt
    rw [leNat, List.length_cons, Nat.pow_succ]
    omega

theorem beNat_lt (bs : List Byte) : beNat bs < 256 ^ bs.length := by
  rw [beNat_eq_leNat_reverse, ← List.length_reverse]
  exact leNat_lt _

theorem beNat_append (as bs : List Byte) : beNat (as ++ bs) = beNat bs + 256 ^ bs.length * beNat as := by
  simp only [beNat_eq_leNat_reverse, List.reverse_append, leNat_append, List.length_reverse]

theorem beNat_cons (b : Byte) (bs : List Byte) : beNat (b :: bs) = beNat bs + 256 ^ bs.length * b.toNat := by
  rw [← List.singleton_append, beNat_append]
  simp [beNat]

theorem beNat_zeros (n : Nat) : beNat (zeros n) = 0 := by
  rw [beNat_eq_leNat_reverse, zeros, List.reverse_replicate, ← zeros, Machine.leNat_zeros]

/-- All ones is the largest number of its length. -/
theorem beNat_allOnes (n : Nat) : beNat (List.replicate n 0xFF#8) + 1 = 256 ^ n := by
  induction n with
  | zero => rfl
  | succ n ih =>
    rw [List.replicate_succ, beNat_cons, List.length_replicate, Nat.pow_succ, ← ih]
    simp only [BitVec.toNat_ofNat]
    omega

/-- Only zero bytes make the number 0. -/
theorem eq_zeros_of_leNat_eq_zero {bs : List Byte} (h : leNat bs = 0) : bs = zeros bs.length := by
  induction bs with
  | nil => rfl
  | cons b bs ih =>
    rw [leNat] at h
    have hb : b = 0#8 := BitVec.eq_of_toNat_eq (show b.toNat = 0 by omega)
    rw [List.length_cons, zeros, List.replicate_succ, ← zeros, ← ih (by omega), hb]

end Sys2Proof
end

section
/-! SUPPORT. The target codec (46_target_verify_search.md R215, R216) and the command TARGET (R222). -/

namespace Sys2Proof.Machine

/-! The two shifts. -/

/-- The bits that leave one byte at the bottom enter the next at the top. -/
theorem allOnes_shifted_with_carry : ∀ r < 8, 0xFF#8 >>> r ||| 0xFF#8 <<< (8 - r) = 0xFF#8 := by decide

/-- All ones shifted right by bits: the first byte loses its top bits, no other byte changes. -/
theorem map_shiftedByte_allOnes {r : Nat} (hr : r < 8) (n : Nat) :
    (List.range (n + 1)).map (shiftedByte (List.replicate (n + 1) 0xFF#8) r) =
      (0xFF#8 >>> r) :: List.replicate n 0xFF#8 := by
  have hfirst : shiftedByte (List.replicate (n + 1) 0xFF#8) r 0 = 0xFF#8 >>> r := by simp [shiftedByte]
  have hrest : ∀ i ∈ List.range n, (shiftedByte (List.replicate (n + 1) 0xFF#8) r ∘ Nat.succ) i = 0xFF#8 := by
    intro i hi
    have hi := List.mem_range.mp hi
    have hget : ∀ j < n + 1, (List.replicate (n + 1) 0xFF#8).getD j 0 = 0xFF#8 := by
      intro j hj
      rw [List.getD_eq_getElem?_getD, List.getElem?_replicate_of_lt hj, Option.getD_some]
    rw [Function.comp_apply, shiftedByte, if_neg (Nat.succ_ne_zero i), Nat.succ_sub_one, hget i (by omega),
      hget (i + 1) (by omega), allOnes_shifted_with_carry r hr]
  rw [List.range_succ_eq_map, List.map_cons, List.map_map, hfirst]
  rw [List.map_congr_left hrest, List.map_const', List.length_range]

/-- A byte array shifted right by `q` bytes. -/
theorem map_shift_bytes (u : List Byte) {q : Nat} (hq : q ≤ u.length) :
    (List.range u.length).map (fun i => if i < q then 0#8 else u.getD (i - q) 0) = zeros q ++ u.take (u.length - q) := by
  apply List.ext_getElem (by simp; omega)
  intro i hi _
  simp only [List.length_map, List.length_range] at hi
  rw [List.getElem_map, List.getElem_range]
  by_cases h : i < q
  · simp [h, zeros]
  · have hlt : i - q < u.length := by omega
    rw [if_neg h, List.getElem_append_right (by simpa using h), List.getElem_take,
      List.getD_eq_getElem?_getD, List.getElem?_eq_getElem hlt, Option.getD_some]
    simp

/-- Below 256 the target is zero bytes, then the byte the bit shift cut, then bytes of ones. -/
theorem difficultyToTarget_of_lt {d : Word64} (h : d.toNat < 256) :
    difficultyToTarget d =
      zeros (d.toNat / 8) ++ (0xFF#8 >>> (d.toNat % 8)) :: List.replicate (31 - d.toNat / 8) 0xFF#8 := by
  have hshift := map_shift_bytes ((0xFF#8 >>> (d.toNat % 8)) :: List.replicate 31 0xFF#8) (q := d.toNat / 8)
    (by simp; omega)
  simp only [List.length_cons, List.length_replicate, Nat.reduceAdd] at hshift
  have htake : 32 - d.toNat / 8 = 31 - d.toNat / 8 + 1 := by omega
  simp only [difficultyToTarget, if_neg (Nat.not_le.mpr h), map_shiftedByte_allOnes (Nat.mod_lt _ (by decide)) 31]
  rw [hshift, htake, List.take_succ_cons, List.take_replicate, Nat.min_eq_left (by omega)]

theorem difficultyToTarget_of_le {d : Word64} (h : 256 ≤ d.toNat) : difficultyToTarget d = zeros 32 := if_pos h

/-! The target as a number. -/

theorem allOnes_shiftRight_toNat : ∀ r < 8, (0xFF#8 >>> r).toNat + 1 = 2 ^ (8 - r) := by decide

/-- The closed form of R216. -/
theorem beNat_difficultyToTarget_of_lt {d : Word64} (h : d.toNat < 256) :
    beNat (difficultyToTarget d) + 1 = 2 ^ (256 - d.toNat) := by
  have hones := beNat_allOnes (31 - d.toNat / 8)
  have hcut := allOnes_shiftRight_toNat (d.toNat % 8) (Nat.mod_lt _ (by decide))
  have hexp : 256 - d.toNat = 8 * (31 - d.toNat / 8) + (8 - d.toNat % 8) := by omega
  calc beNat (difficultyToTarget d) + 1
      = beNat (List.replicate (31 - d.toNat / 8) 0xFF#8) + 1
          + 256 ^ (31 - d.toNat / 8) * (0xFF#8 >>> (d.toNat % 8)).toNat := by
        rw [difficultyToTarget_of_lt h, beNat_append, beNat_zeros, Nat.mul_zero, Nat.add_zero, beNat_cons,
          List.length_replicate, Nat.add_right_comm]
    _ = 256 ^ (31 - d.toNat / 8) * ((0xFF#8 >>> (d.toNat % 8)).toNat + 1) := by rw [hones]; ring
    _ = 2 ^ (256 - d.toNat) := by rw [hcut, hexp, Nat.pow_add, Nat.pow_mul]

theorem beNat_difficultyToTarget (d : Word64) :
    beNat (difficultyToTarget d) = if d.toNat < 256 then 2 ^ (256 - d.toNat) - 1 else 0 := by
  split
  case isTrue h => exact Nat.eq_sub_of_add_eq (beNat_difficultyToTarget_of_lt h)
  case isFalse h => rw [difficultyToTarget_of_le (Nat.le_of_not_lt h), beNat_zeros]

theorem beNat_difficultyToTarget_antitone {d d' : Word64} (h : d.toNat ≤ d'.toNat) :
    beNat (difficultyToTarget d') ≤ beNat (difficultyToTarget d) := by
  by_cases h' : d'.toNat < 256
  · have hpow : 2 ^ (256 - d'.toNat) ≤ 2 ^ (256 - d.toNat) := Nat.pow_le_pow_right (by decide) (by omega)
    rw [← beNat_difficultyToTarget_of_lt h', ← beNat_difficultyToTarget_of_lt (Nat.lt_of_le_of_lt h h')] at hpow
    exact Nat.le_of_succ_le_succ hpow
  · rw [beNat_difficultyToTarget d', if_neg h']
    exact Nat.zero_le _

/-- Settles O49: the number of the shifted ones, which is a power of 2 less 1, and the shape of the shifted bytes. -/
theorem targetIsTheShiftedAllOnes : Obligations.TargetIsTheShiftedAllOnes := by
  unfold Obligations.TargetIsTheShiftedAllOnes
  exact ⟨beNat_difficultyToTarget, fun _ _ => beNat_difficultyToTarget_antitone,
    difficultyToTarget_of_lt (d := 0#64) (by decide), difficultyToTarget_of_lt (d := 8#64) (by decide),
    difficultyToTarget_of_lt (d := 255#64) (by decide), fun _ => difficultyToTarget_of_le,
    difficultyToTarget_of_le (by decide)⟩

/-! The command. -/

/-- Settles O50: the word by the encoder, the issue by the operand checks, of which TARGET has none, the completion by
the write of the target to `TARGET`. -/
theorem targetCommandWritesTarget : Obligations.TargetCommandWritesTarget := by
  unfold Obligations.TargetCommandWritesTarget
  refine ⟨decodeWord_encode (i := .target) rfl, fun s hidle => ?issue, fun s hrun => ?completion⟩
  case issue =>
    exact ⟨_, exec_idle_accept hidle (operandFault_none _ _ rfl rfl rfl), accepted_acceptOf _ s⟩
  case completion =>
    exact completion_puts (r := .target) (off := 0) (bs := difficultyToTarget s.diff) hrun (by simp) (by simp) rfl

end Sys2Proof.Machine
end

section
/-! SUPPORT. The verification predicate (46_target_verify_search.md R217 to R219): the lexicographic order of byte arrays
of one length is that of their big-endian numbers. -/

namespace Sys2Proof.Machine

/-- The first byte that differs decides: what follows weighs less than one unit of it. -/
theorem lexAtMost_iff_beNat_le {as bs : List Byte} (h : as.length = bs.length) :
    lexAtMost as bs = true ↔ beNat as ≤ beNat bs := by
  induction as generalizing bs with
  | nil => simp [lexAtMost, beNat]
  | cons a as ih =>
    obtain ⟨b, bs, rfl, hlen⟩ := exists_cons_of_length h.symm
    have has := beNat_lt as
    have hbs := beNat_lt bs
    rw [hlen] at hbs
    rw [lexAtMost, beNat_cons, beNat_cons, hlen]
    split
    case isTrue hab => rw [hab, ih hlen.symm, Nat.add_le_add_iff_right]
    case isFalse hab =>
      have hne : a.toNat ≠ b.toNat := fun he => hab (BitVec.eq_of_toNat_eq he)
      rw [decide_eq_true_iff, BitVec.lt_def]
      constructor
      · intro hlt
        have hunit := Nat.mul_le_mul_left (256 ^ as.length) (Nat.succ_le_of_lt hlt)
        rw [Nat.mul_succ] at hunit
        omega
      · intro hle
        by_contra hge
        have hunit := Nat.mul_le_mul_left (256 ^ as.length) (show b.toNat + 1 ≤ a.toNat by omega)
        rw [Nat.mul_succ] at hunit
        omega

theorem meets_iff_beNat_le {dg tgt : List Byte} (h : dg.length = tgt.length) :
    meets dg tgt = true ↔ beNat dg.reverse ≤ beNat tgt :=
  lexAtMost_iff_beNat_le (by rw [List.length_reverse, h])

theorem meets_iff_leNat_le {dg tgt : List Byte} (h : dg.length = tgt.length) :
    meets dg tgt = true ↔ leNat dg ≤ beNat tgt := by
  rw [meets_iff_beNat_le h, beNat_reverse]

/-- Settles O51: the order of the bytes is that of the numbers. -/
theorem meetsComparesBigEndianNumbers : Obligations.MeetsComparesBigEndianNumbers := by
  unfold Obligations.MeetsComparesBigEndianNumbers
  intro dg tgt hdg htgt
  have hlen := hdg.trans htgt.symm
  exact ⟨meets_iff_beNat_le hlen, meets_iff_leNat_le hlen⟩

/-- The largest target accepts everything. -/
theorem meets_allOnes (dg : List Byte) : meets dg (List.replicate dg.length 0xFF#8) = true := by
  rw [meets_iff_leNat_le (by simp)]
  have hlt := leNat_lt dg
  rw [← beNat_allOnes] at hlt
  exact Nat.le_of_lt_succ hlt

/-- The reversed digest is the smallest target that the digest meets. -/
theorem meets_reverse (dg : List Byte) : meets dg dg.reverse = true :=
  (meets_iff_beNat_le (by simp)).mpr (Nat.le_refl _)

/-- The target 0 accepts the digest 0 alone. -/
theorem eq_zeros_of_meets_zeros {dg : List Byte} (h : meets dg (zeros dg.length) = true) : dg = zeros dg.length := by
  rw [meets_iff_leNat_le (by simp), beNat_zeros] at h
  exact eq_zeros_of_leNat_eq_zero (Nat.eq_zero_of_le_zero h)

/-- Settles O52: `verify` is `meets` of the hash, which has 32 bytes. -/
theorem verifyProperties : Obligations.VerifyProperties := by
  unfold Obligations.VerifyProperties
  intro c m
  have hlen := Block32.bytes_length (hash c m)
  refine ⟨meets_allOnes _, fun hne => ?zero, fun tgt htgt => meets_iff_beNat_le (hlen.trans htgt.symm)⟩
  case zero => exact Bool.eq_false_iff.mpr fun h => hne (eq_zeros_of_meets_zeros h)

end Sys2Proof.Machine
end

section
/-! SUPPORT. The command VERIFY (46_target_verify_search.md R223). -/

namespace Sys2Proof.Machine

/-- `S`, `MIX`, `KB` and `DIGEST` hold the four values of a hash (45_finalizer_hash.md R208). -/
def State.HoldsHash (s : State) (h : HashParts) : Prop :=
  s.Holds 0x0100 h.sponge ∧ s.Holds 0x0010 (le64Bytes h.mix) ∧ s.Holds 0x1000 h.kb ∧ s.Holds 0x0140 h.digest.bytes

theorem State.HoldsHash.of_mem_eq {s t : State} {h : HashParts} (hs : s.HoldsHash h) (hmem : t.mem = s.mem) :
    t.HoldsHash h := by
  obtain ⟨hS, hmix, hKB, hdigest⟩ := hs
  exact ⟨hS.of_mem_eq hmem, hmix.of_mem_eq hmem, hKB.of_mem_eq hmem, hdigest.of_mem_eq hmem⟩

theorem holdsHash_putHash (s : State) (c : Config) (m : List Byte) :
    (s.putHash (hashParts c m)).HoldsHash (hashParts c m) :=
  holds_putHash s _ (hashParts_sponge_length c m)

/-- VERIFY has the operand checks of HASH (60_exceptions.md R252). -/
theorem operandFault_verify (s : State) : operandFault .verify s = operandFault .hash s := rfl

/-- A running VERIFY makes the writes of HASH and ends with the verdict on its digest. -/
theorem exec_verify_running {s : State} (h : s.Running .verify) :
    ∃ t, exec .verify s = .next t ∧ t.pending = none ∧ SameRest s t ∧ t.HoldsHash (hashParts s.cfg s.message) ∧
      SameOutside s t (Instr.verify).writeRanges ∧
      t.status =
        { s.status with
          busy := false, done := true, result := meets (hash s.cfg s.message).bytes s.targetBytes } :=
  ⟨_, exec_running h (by simp), rfl, ⟨rfl, rfl, rfl, rfl⟩, (holdsHash_putHash s s.cfg s.message).of_mem_eq rfl,
    effectOf_sameOutside .verify s (by simp), rfl⟩

/-- Settles O53: the word by the encoder, the issue by the operand checks of HASH, the completion by its writes and the
verdict, which both named targets give. -/
theorem verifyCommandSetsResult : Obligations.VerifyCommandSetsResult := by
  unfold Obligations.VerifyCommandSetsResult
  refine ⟨decodeWord_encode (i := .verify) rfl, fun s hidle hmsg hkey => ?accepted, fun s f hidle hf => ?fault,
    ?completion⟩
  case accepted =>
    have hready : s.ReadyToHash := ⟨hidle, hkey, hmsg⟩
    exact ⟨_, exec_idle_accept hidle (hready.operandFault_eq_none rfl), accepted_acceptOf .verify s, rfl, rfl⟩
  case fault =>
    exact ⟨_, exec_idle_fault hidle ((operandFault_verify s).trans hf), tookFault_raiseFault f s⟩
  case completion =>
    rintro s m tgt ps kb mix hrun rfl rfl rfl rfl rfl
    obtain ⟨t, ht, hpending, hrest, ⟨hS, hmix, hKB, hdigest⟩, hout, hstatus⟩ := exec_verify_running hrun
    refine ⟨t, ht, hpending, hrest, hS, hmix, hKB, hdigest, hout, hstatus, fun htgt => ?ones, fun htgt => ?reversed⟩
    case ones =>
      have htgt : s.targetBytes = List.replicate 32 0xFF#8 := htgt
      rw [hstatus, htgt]
      exact meets_allOnes _
    case reversed =>
      have htgt : s.targetBytes = (hash s.cfg s.message).bytes.reverse := htgt
      rw [hstatus, htgt]
      exact meets_reverse _

end Sys2Proof.Machine
end

section
/-! SUPPORT. The command SEARCH: its issue (46_target_verify_search.md R224) and one iteration (R225, R228). -/

namespace Sys2Proof.Machine

/-- Settles O54: the word by the encoder, the issue by the check of the key buffer, which is SEARCH's only one. -/
theorem searchIssueSetsMessageLength : Obligations.SearchIssueSetsMessageLength := by
  unfold Obligations.SearchIssueSetsMessageLength
  refine ⟨decodeWord_encode (i := .search) rfl, fun s hidle => ⟨fun hkey => ?accepted, ?fault⟩⟩
  case accepted =>
    obtain ⟨t, ht, hpending, hstatus, hlen, hrest⟩ := exec_keyBuf_accepted (i := .search) rfl rfl hidle hkey
    exact ⟨t, ht, hlen, hpending, hstatus, hrest⟩
  case fault => exact exec_keyBuf_faults rfl rfl hidle

/-! What stands in memory after an iteration. -/

/-- The writes of HASH change nothing outside its four buffers (45_finalizer_hash.md R208). -/
theorem sameOutside_putHash (s : State) (c : Config) (m : List Byte) :
    SameOutside s (s.putHash (hashParts c m)) (Instr.hash).writeRanges :=
  sameOutside_of_mem rfl (readCell_hashCells s.mem _ (hashParts_sponge_length c m) (hashParts_kb_length c m))

/-- The four values still stand after a write of `NONCE`. -/
theorem State.HoldsHash.putNonce {s : State} {h : HashParts} (hs : s.HoldsHash h) (v : Word64) :
    (s.putNonce v).HoldsHash h := by
  obtain ⟨hS, hmix, hKB, hdigest⟩ := hs
  exact ⟨hS.put .nonce 0 _ (.inr (by simp [Region.base])), hmix.put .nonce 0 _ (.inl (by simp [Region.base])),
    hKB.put .nonce 0 _ (.inr (by simp [Region.base])), hdigest.put .nonce 0 _ (.inr (by simp [Region.base]))⟩

/-- The message of the candidate that the next iteration tests. -/
def State.candidate (s : State) : List Byte := s.bytesAt 0x4000 56 ++ le64Bytes s.nonce

/-- The writes of an iteration: the candidate's nonce, those of HASH on its message, then `NONCE`. -/
def State.putIteration (s : State) (v : Word64) : State :=
  ((s.put .msg 56 (le64Bytes s.nonce)).putHash (hashParts s.cfg s.candidate)).putNonce v

theorem iterationCells_eq (s : State) (v : Word64) : iterationCells s v = (s.putIteration v).mem := by
  rw [iterationCells, candidateParts_eq]
  rfl

/-- After the writes of an iteration each value stands in its buffer. -/
theorem holds_putIteration (s : State) (v : Word64) :
    (s.putIteration v).Holds 0x4038 (le64Bytes s.nonce) ∧
      (s.putIteration v).HoldsHash (hashParts s.cfg s.candidate) ∧ (s.putIteration v).Holds 0x0020 (le64Bytes v) := by
  have hmsg : (s.put .msg 56 (le64Bytes s.nonce)).Holds 0x4038 (le64Bytes s.nonce) := holds_put s .msg 56 _
  refine ⟨State.Holds.put (hmsg.of_sameOutside (sameOutside_putHash _ s.cfg s.candidate) ?_) .nonce 0 _ ?_,
    (holdsHash_putHash _ _ _).putNonce v, holds_put _ .nonce 0 _⟩
  · simp [Instr.writeRanges]
  · simp [Region.base]

/-- One iteration of a running SEARCH: the candidate and the values of its hash stand in memory, and the search ends
found, ends exhausted, or goes on. -/
theorem exec_search_iteration {s : State} (h : s.Running .search) :
    ∃ t v, exec .search s = .next t ∧ SameRest s t ∧ SameOutside s t (Instr.search).writeRanges ∧
      t.mem = (s.putIteration v).mem ∧
      (meets (hash s.cfg s.candidate).bytes s.targetBytes = true →
        v = s.nonce ∧ t.pending = none ∧ t.status = { s.status with busy := false, done := true, result := true }) ∧
      (meets (hash s.cfg s.candidate).bytes s.targetBytes = false → s.nonce = BitVec.allOnes 64 →
        v = s.nonce ∧ t.pending = none ∧
          t.status = { s.status with busy := false, done := true, result := false, exh := true }) ∧
      (meets (hash s.cfg s.candidate).bytes s.targetBytes = false → s.nonce ≠ BitVec.allOnes 64 →
        v = s.nonce + 1#64 ∧ t.pending = some .search ∧ t.status = s.status) := by
  have hcases := searchIteration_cases s
  rw [candidateParts_eq, hashParts_digest, ← State.candidate] at hcases
  have hrest := searchIteration_rest s
  have hout := searchIteration_sameOutside s
  rcases hcases with ⟨hm, he⟩ | ⟨hm, hn, he⟩ | ⟨hm, hn, he⟩ <;> rw [he] at hrest hout
  case inl => -- found
    refine ⟨_, s.nonce, (exec_search_running h).trans (congrArg _ he), hrest, hout, iterationCells_eq s _,
      fun _ => ⟨rfl, rfl, rfl⟩, by simp [hm], by simp [hm]⟩
  case inr.inl => -- exhausted
    refine ⟨_, s.nonce, (exec_search_running h).trans (congrArg _ he), hrest, hout, iterationCells_eq s _,
      by simp [hm], fun _ _ => ⟨rfl, rfl, rfl⟩, fun _ hne => absurd hn hne⟩
  case inr.inr => -- on to the next candidate
    refine ⟨_, s.nonce + 1#64, (exec_search_running h).trans (congrArg _ he), hrest, hout, iterationCells_eq s _,
      by simp [hm], fun _ heq => absurd heq hn, fun _ _ => ⟨rfl, h.2, rfl⟩⟩

/-- Settles O55: what the writes of an iteration leave in each buffer, and its three ways on. -/
theorem searchIterationTestsOneNonce : Obligations.SearchIterationTestsOneNonce := by
  unfold Obligations.SearchIterationTestsOneNonce
  rintro s n m hrun rfl rfl
  obtain ⟨t, v, ht, hrest, hout, hmem, hfound, hexhausted, hnext⟩ := exec_search_iteration hrun
  obtain ⟨hmsg, hhash, hnonce⟩ := holds_putIteration s v
  obtain ⟨hS, hmix, hKB, hdigest⟩ := hhash.of_mem_eq hmem
  have hnonce := hnonce.of_mem_eq hmem
  refine ⟨t, ht, hrest, hmsg.of_mem_eq hmem, hS, hmix, hKB, hdigest, hout, fun hm => ?found, fun hm hn => ?exhausted,
    fun hm hn => ?next⟩
  case found =>
    obtain ⟨rfl, hpending, hstatus⟩ := hfound hm
    exact ⟨hpending, hstatus, hnonce⟩
  case exhausted =>
    obtain ⟨rfl, hpending, hstatus⟩ := hexhausted hm hn
    exact ⟨hpending, hstatus, hnonce⟩
  case next =>
    obtain ⟨rfl, hpending, hstatus⟩ := hnext hm hn
    exact ⟨hpending, hstatus, hnonce⟩

end Sys2Proof.Machine
end

section
/-! SUPPORT. A search left alone (46_target_verify_search.md R220, R226): each step is an iteration, which either ends at a
candidate that passes or leads to a search from the next one. -/

namespace Sys2Proof.Machine

/-- A well-formed configuration is one the model gives a machine for. -/
theorem admitted_of_wellFormed {c : Config} (h : c.wellFormed = true) : c.admitted = true ∧ c.keyBufLen = 8832 := by
  simp only [Config.wellFormed, Config.admitted, Bool.and_eq_true, decide_eq_true_eq] at h ⊢
  exact ⟨⟨Nat.le_of_eq h.1, h.2⟩, h.1⟩

theorem runSteps_succ_of_step {s u : State} (h : step s = .next u) (k : Nat) : runSteps (k + 1) s = runSteps k u := by
  rw [runSteps, h]

/-- A running command that is left alone runs at the next step (60_exceptions.md R251; log 7). -/
theorem step_of_running_alone {s : State} {i : Instr} (hc : s.cfg.admitted = true) (hrun : s.Running i)
    (hturns : s.turns = []) : step s = exec i s := by
  obtain ⟨hbusy, hpending⟩ := hrun
  exact step_of_run (by simp [nextAct, sequencerAct, hc, hturns, hbusy, hpending])

/-- A SEARCH runs and is left alone, with the first 56 bytes of the message, the target and the next nonce written. -/
structure State.SearchesFrom (s : State) (pre tgt : List Byte) (n : Word64) : Prop where
  running  : s.Running .search
  admitted : s.cfg.admitted = true
  alone    : s.turns = []
  pre      : s.Holds 0x4000 pre
  target   : s.Holds 0x0160 tgt
  nonce    : s.Holds 0x0020 (le64Bytes n)

/-- The search that ran in `s` has ended in `t`, found at the nonce `n` after the bytes `pre`. -/
structure FoundAt (s t : State) (pre : List Byte) (n : Word64) : Prop where
  pending   : t.pending = none
  status    : t.status = { s.status with busy := false, done := true, result := true }
  rest      : SameRest s t
  nonce     : t.Holds 0x0020 (le64Bytes n)
  candidate : t.Holds 0x4038 (le64Bytes n)
  hash      : t.HoldsHash (hashParts s.cfg (pre ++ le64Bytes n))
  outside   : SameOutside s t (Instr.search).writeRanges

/-- Two changes inside the same ranges. -/
theorem SameOutside.trans_same {s t u : State} {R : List (Nat × Nat)} (h : SameOutside s t R) (h' : SameOutside t u R) :
    SameOutside s u R :=
  fun a ha => (h' a ha).trans (h a ha)

/-- What a search leaves untouched on its way does not matter to its end. -/
theorem FoundAt.of_next {s u t : State} {pre : List Byte} {n : Word64} (h : FoundAt u t pre n) (hrest : SameRest s u)
    (hstatus : u.status = s.status) (hout : SameOutside s u (Instr.search).writeRanges) : FoundAt s t pre n := by
  obtain ⟨hlen, hcfg, hturns, hbus⟩ := hrest
  obtain ⟨hlen', hcfg', hturns', hbus'⟩ := h.rest
  exact ⟨h.pending, hstatus ▸ h.status, ⟨hlen'.trans hlen, hcfg'.trans hcfg, hturns'.trans hturns, hbus'.trans hbus⟩,
    h.nonce, h.candidate, hcfg ▸ h.hash, hout.trans_same h.outside⟩

section
variable {s : State} {pre tgt : List Byte} (hpre : pre.length = 56) (htgt : tgt.length = 32)
include hpre htgt

/-- The candidate a search tests is `pre` with the nonce after it, and the verdict is `verify`'s. -/
theorem State.SearchesFrom.reads {n : Word64} (h : s.SearchesFrom pre tgt n) :
    s.nonce = n ∧ s.candidate = pre ++ le64Bytes n ∧
      meets (hash s.cfg s.candidate).bytes s.targetBytes = verify s.cfg (pre ++ le64Bytes n) tgt := by
  have hnonce : s.nonce = n := le64_bytesAt_of_holds h.nonce
  have hcandidate : s.candidate = pre ++ le64Bytes n := by
    rw [State.candidate, hnonce, bytesAt_eq_of_holds h.pre hpre]
  have htarget : s.targetBytes = tgt := bytesAt_eq_of_holds h.target htgt
  exact ⟨hnonce, hcandidate, by rw [hcandidate, htarget, verify]⟩

/-- A candidate that passes ends the search. -/
theorem State.SearchesFrom.step_found {n : Word64} (h : s.SearchesFrom pre tgt n)
    (hv : verify s.cfg (pre ++ le64Bytes n) tgt = true) : ∃ t, step s = .next t ∧ FoundAt s t pre n := by
  obtain ⟨hnonce, hcandidate, hverdict⟩ := h.reads hpre htgt
  obtain ⟨t, v, ht, hrest, hout, hmem, hfound, -, -⟩ := exec_search_iteration h.running
  obtain ⟨rfl, hpending, hstatus⟩ := hfound (hverdict.trans hv)
  obtain ⟨hmsg, hhash, hn⟩ := holds_putIteration s s.nonce
  have hend : FoundAt s t pre n :=
    { pending := hpending
      status := hstatus
      rest := hrest
      nonce := hnonce ▸ hn.of_mem_eq hmem
      candidate := hnonce ▸ hmsg.of_mem_eq hmem
      hash := hcandidate ▸ hhash.of_mem_eq hmem
      outside := hout }
  exact ⟨t, (step_of_running_alone h.admitted h.running h.alone).trans ht, hend⟩

/-- A candidate that fails and is not the last leads to a search from the next one. -/
theorem State.SearchesFrom.step_next {n : Word64} (h : s.SearchesFrom pre tgt n)
    (hv : verify s.cfg (pre ++ le64Bytes n) tgt = false) (hlast : n ≠ BitVec.allOnes 64) :
    ∃ u, step s = .next u ∧ u.SearchesFrom pre tgt (n + 1#64) ∧ SameRest s u ∧ u.status = s.status ∧
      SameOutside s u (Instr.search).writeRanges := by
  obtain ⟨hnonce, -, hverdict⟩ := h.reads hpre htgt
  obtain ⟨u, v, hu, hrest, hout, hmem, -, -, hnext⟩ := exec_search_iteration h.running
  obtain ⟨rfl, hpending, hstatus⟩ := hnext (hverdict.trans hv) (hnonce ▸ hlast)
  obtain ⟨-, -, hn⟩ := holds_putIteration s (s.nonce + 1#64)
  have ⟨_, hcfg, hturns, _⟩ := hrest
  have hsearches : u.SearchesFrom pre tgt (n + 1#64) :=
    { running := ⟨hstatus ▸ h.running.1, hpending⟩
      admitted := hcfg ▸ h.admitted
      alone := hturns.trans h.alone
      pre := h.pre.of_sameOutside hout (by simp [Instr.writeRanges, hpre])
      target := h.target.of_sameOutside hout (by simp [Instr.writeRanges, htgt])
      nonce := hnonce ▸ hn.of_mem_eq hmem }
  exact ⟨u, (step_of_running_alone h.admitted h.running h.alone).trans hu, hsearches, hrest, hstatus, hout⟩

/-- A search left alone ends at its first candidate that passes, one step a candidate. -/
theorem State.SearchesFrom.runSteps_found {start k : Nat} (h : s.SearchesFrom pre tgt (BitVec.ofNat 64 start))
    (hbound : start + k < 2 ^ 64)
    (hfail : ∀ j, j < k → verify s.cfg (pre ++ le64Bytes (BitVec.ofNat 64 (start + j))) tgt = false)
    (hpass : verify s.cfg (pre ++ le64Bytes (BitVec.ofNat 64 (start + k))) tgt = true) :
    ∃ t, runSteps (k + 1) s = .next t ∧ FoundAt s t pre (BitVec.ofNat 64 (start + k)) := by
  induction k generalizing s start with
  | zero =>
    obtain ⟨t, ht, hfound⟩ := h.step_found hpre htgt hpass
    exact ⟨t, runSteps_succ_of_step ht 0, hfound⟩
  | succ k ih =>
    have hlast : BitVec.ofNat 64 start ≠ BitVec.allOnes 64 := fun he => by
      have htoNat := congrArg BitVec.toNat he
      simp only [BitVec.toNat_ofNat, BitVec.toNat_allOnes] at htoNat
      omega
    obtain ⟨u, hu, hsearches, hrest, hstatus, hout⟩ := h.step_next hpre htgt (hfail 0 (Nat.succ_pos k)) hlast
    have hshift (j : Nat) : start + 1 + j = start + (j + 1) := by omega
    have ⟨_, hcfg, _⟩ := hrest
    obtain ⟨t, ht, hfound⟩ := ih (s := u) (start := start + 1) (BitVec.ofNat_add start 1 ▸ hsearches) (by omega)
      (fun j hj => by rw [hcfg, hshift]; exact hfail (j + 1) (Nat.succ_lt_succ hj)) (by rw [hcfg, hshift]; exact hpass)
    rw [hshift] at hfound
    exact ⟨t, (runSteps_succ_of_step hu _).trans ht, hfound.of_next hrest hstatus hout⟩

end

/-- Settles O56: the accepted SEARCH, its turns taken away, searches from the start value, and the search ends at the first
candidate that passes. -/
theorem searchFindsTheLeastPassingNonce : Obligations.SearchFindsTheLeastPassingNonce := by
  unfold Obligations.SearchFindsTheLeastPassingNonce
  intro s pre tgt start k hcfg hidle hpre htgt hbound hholdsPre hholdsTgt hholdsNonce hfail hpass
  obtain ⟨hadmitted, hkey⟩ := admitted_of_wellFormed hcfg
  have hcheck : operandFault .search s = none := by
    simp [operandFault, Instr.readsMessage, Instr.windowEnd, hkey]
  have hsearches : { acceptSearch s with turns := [] }.SearchesFrom pre tgt (BitVec.ofNat 64 start) :=
    ⟨⟨rfl, rfl⟩, hadmitted, rfl, hholdsPre, hholdsTgt, hholdsNonce⟩
  obtain ⟨t, ht, hfound⟩ := hsearches.runSteps_found hpre htgt hbound hfail hpass
  obtain ⟨hS, hmix, hKB, hdigest⟩ := hfound.hash
  obtain ⟨hlen, -⟩ := hfound.rest
  exact ⟨acceptSearch s, t, exec_idle_accept hidle hcheck, ht, hfound.status, hfound.pending, hlen, hfound.nonce,
    hfound.candidate, hdigest, hS, hmix, hKB, hfound.outside⟩

end Sys2Proof.Machine
end

section
/-! SUPPORT. The system commands NOP and ABORT (47_system_commands.md R240, R241). -/

namespace Sys2Proof.Machine

/-- In the fault state every command is ignored (30_encoding.md R91 step 1). -/
theorem exec_faulted {s : State} (hf : s.status.fault = true) (hb : s.status.busy = false) (i : Instr) :
    exec i s = .next s := by
  have hrun (j : Instr) : ¬ s.Running j := fun h => Bool.false_ne_true (hb.symm.trans h.1)
  have hfault : ¬ s.status.fault = false := by simp [hf]
  obtain ⟨t, ht⟩ := exec_next i s
  rcases exec_cases ht with ⟨hr, -⟩ | ⟨hr, -⟩ | ⟨-, -, rfl⟩ | ⟨-, -, hnf, -⟩ | ⟨-, hnf, -⟩ |
    ⟨-, hidle, -⟩ | ⟨hidle, -⟩
  · exact absurd hr (hrun i)
  · exact absurd hr (hrun i)
  · exact ht
  · exact absurd hnf hfault
  · exact absurd hnf hfault
  · exact absurd hidle.2 hfault
  · exact absurd hidle.2 hfault

/-- The completion of a command without an effect of its own leaves memory as it is. -/
theorem completion_without_effect {i : Instr} {s : State} (hrun : s.Running i) (hs : i ≠ .search) (hv : i ≠ .verify)
    (heffect : effectOf i s = s) : ∃ t, exec i s = .next t ∧ Finished s t ∧ SameRest s t ∧ t.mem = s.mem := by
  obtain ⟨t, ht, hfin, hrest, hmem, -⟩ := completion_of_running hrun hs hv
  exact ⟨t, ht, hfin, hrest, hmem.trans (congrArg State.mem heffect)⟩

/-- Settles O57: the word by the encoder, the issue by the operand checks, of which NOP has none, the fault state as for
any command, the completion by the effect, of which NOP has none either. -/
theorem nopWritesNoBuffer : Obligations.NopWritesNoBuffer := by
  unfold Obligations.NopWritesNoBuffer
  refine ⟨decodeWord_encode (i := .nop) rfl, fun s hidle => ?issue, fun s hf hb => ?faulted,
    fun s hrun => ?completion⟩
  case issue => exact ⟨_, exec_idle_accept hidle (operandFault_none _ _ rfl rfl rfl), accepted_acceptOf _ s⟩
  case faulted => exact exec_faulted hf hb .nop
  case completion => exact completion_without_effect hrun (by simp) (by simp) rfl

/-- Settles O58: ABORT as the machine finds it: in the fault state, while SEARCH, another command or an ABORT runs,
in the idle state, and as the running command itself. -/
theorem abortEndsOnlyASearch : Obligations.AbortEndsOnlyASearch := by
  unfold Obligations.AbortEndsOnlyASearch
  refine ⟨decodeWord_encode (i := .abort) rfl, fun s hf hb => ?faulted, fun s hf hrun => ?search,
    fun s i hf hrun hs ha => ?other, fun s rest hc hf hrun ht => ?pendingAbort, fun s hidle => ?issue,
    fun s hrun => ?completion⟩
  case faulted => exact exec_faulted hf hb .abort
  case search => exact ⟨_, exec_abort_ends_search hf hrun, rfl, rfl, rfl, ⟨rfl, rfl, rfl, rfl⟩⟩
  case other =>
    obtain ⟨hbusy, hpending⟩ := hrun
    exact exec_abort_ignored hf hbusy (by simp [hpending, hs]) (by simp [hpending, ha])
  case pendingAbort =>
    obtain ⟨hbusy, hpending⟩ := hrun
    obtain ⟨-, -, -, hother, -⟩ := commandWriteIssues s _ _ rest hc ht rfl rfl
    exact hother hf hbusy (by decide) (by simp [hpending])
  case issue => exact ⟨_, exec_idle_accept hidle (operandFault_none _ _ rfl rfl rfl), accepted_acceptOf _ s⟩
  case completion => exact completion_without_effect hrun (by simp) (by simp) rfl

end Sys2Proof.Machine
end

section
/-! SUPPORT. The end of a run (47_system_commands.md R246): once the host has made its last move, the sequencer runs the
pending command, and without one nothing happens any more. -/

namespace Sys2Proof.Machine

theorem ended_eq_not_busy {s : State} (hd : s.hostDone = true) : s.ended = !s.status.busy := by
  simp [State.ended, hd]

/-- The invariant gives a busy CORE a command to run (10_state.md R39). -/
theorem State.Inv.exists_running {s : State} (h : s.Inv) (hb : s.status.busy = true) : ∃ i, s.Running i := by
  obtain ⟨i, hi⟩ := Option.isSome_iff_exists.mp (h.busyPending.symm.trans hb)
  exact ⟨i, hb, hi⟩

/-- The running command other than SEARCH completes without a fault (60_exceptions.md R251). -/
theorem exec_running_status {i : Instr} {s t : State} (hrun : s.Running i) (hs : i ≠ .search)
    (ht : exec i s = .next t) :
    t.status.busy = false ∧ t.status.done = true ∧ t.pending = none ∧ t.status.fault = s.status.fault := by
  obtain ⟨-, -, -, -, -, b, hstatus, -⟩ := effectOf_rest i s
  obtain rfl := Host.Outcome.next.inj ((exec_running hrun hs).symm.trans ht)
  exact ⟨rfl, rfl, rfl, by simp [hstatus]⟩

section
variable {s : State} (hd : s.hostDone = true)
include hd

theorem hostDone_of_turns_tail {t : State} (ht : t.turns = s.turns.tail) : t.hostDone = true := by
  rw [hostDone_iff] at hd ⊢
  exact fun a ha => hd a (List.mem_of_mem_tail (ht ▸ ha))

theorem step_of_hostDone_running {i : Instr} (hc : s.cfg.admitted = true) (hrun : s.Running i) :
    step s = exec i { s with turns := s.turns.tail } := by
  obtain ⟨hbusy, hpending⟩ := hrun
  exact step_of_run ((nextAct_hostDone hc hd).trans (by simp [sequencerAct, hbusy, hpending]))

theorem step_of_hostDone_not_busy (hc : s.cfg.admitted = true) (hb : s.status.busy = false) :
    step s = .next { s with turns := s.turns.tail } :=
  step_of_settle ((nextAct_hostDone hc hd).trans (by simp [sequencerAct, hb]))

end

/-- Settles O9: a busy state steps by its pending command, which takes no turn and raises nothing; a state that is not
busy has ended, and its step only takes the turn off. -/
theorem busyIsNeverStuck : Obligations.BusyIsNeverStuck := by
  unfold Obligations.BusyIsNeverStuck
  refine ⟨fun s hinv hc hturns hb => ?busy, fun s hc hturns hb => ?ended, fun s hend => ?fault⟩
  case busy =>
    have hd := (hostDone_iff s).mpr hturns
    obtain ⟨i, hrun⟩ := hinv.exists_running hb
    obtain ⟨-, hfault, -⟩ := hinv.busyFlags hb
    obtain ⟨t, ht⟩ := exec_next i { s with turns := s.turns.tail }
    obtain ⟨-, -, htail, -⟩ := commandsWriteOnlyTheirBuffers _ _ _ ht
    have hdone : t.hostDone = true := hostDone_of_turns_tail hd htail
    refine ⟨by simp [ended_eq_not_busy hd, hb], i, t, hrun.2, (step_of_hostDone_running hd hc hrun).trans ht, hdone,
      fun hs => ?_⟩
    obtain ⟨hbusy', hdone', hpending', hfault'⟩ :=
      exec_running_status (s := { s with turns := s.turns.tail }) hrun hs ht
    exact ⟨hbusy', hdone', hpending',
      by simp [State.endedWell, ended_eq_not_busy hdone, hbusy', hdone', hfault'.trans hfault]⟩
  case ended =>
    have hd := (hostDone_iff s).mpr hturns
    have hended : s.ended = true := by simp [ended_eq_not_busy hd, hb]
    have hd' : { s with turns := s.turns.tail }.hostDone = true := hostDone_of_turns_tail hd rfl
    have hended' : { s with turns := s.turns.tail }.ended = true := by simp [ended_eq_not_busy hd', hb]
    exact ⟨hended, by simp [State.endedWell, hended], by simp [State.endedInFault, hended], _,
      step_of_hostDone_not_busy hd hc hb, hended', rfl, rfl, rfl, rfl, rfl⟩
  case fault =>
    obtain ⟨-, hf⟩ := Bool.and_eq_true_iff.mp hend
    simp [State.endedWell, hf]

end Sys2Proof.Machine
end

section
/-! SUPPORT. The sequencer's step (60_exceptions.md R251) and what it raises: a completion nothing (R251, R254, R258),
an issue KEYBUF_TOO_SMALL only where the key buffer is too short (R253). -/

namespace Sys2Proof.Machine

/-- The sequencer's step of a running command is the command (60_exceptions.md R251). -/
theorem sequencerAct_of_running {s : State} {i : Instr} (h : s.Running i) : sequencerAct s = .run i s := by
  obtain ⟨hbusy, hpending⟩ := h
  simp [sequencerAct, hbusy, hpending]

/-- Settles O7: both the empty list of turns and the sequencer's turn make the next move the sequencer's. -/
theorem sequencerStepRunsThePendingCommand : Obligations.SequencerStepRunsThePendingCommand := by
  unfold Obligations.SequencerStepRunsThePendingCommand
  refine fun s i hc hrun => ⟨step_of_running_alone hc hrun, fun rest ht => step_of_run ?_⟩
  have hnext : nextAct s = sequencerAct { s with turns := rest } := by simp [nextAct, hc, ht]
  exact hnext.trans (sequencerAct_of_running hrun)

/-- The running command, SEARCH or not, leaves the fault and its code as they are. -/
theorem exec_running_keeps_fault {i : Instr} {s t : State} (hrun : s.Running i) (h : exec i s = .next t) :
    t.status.fault = s.status.fault ∧ t.status.fcode = s.status.fcode := by
  by_cases hs : i = .search
  · subst hs
    obtain rfl := Host.Outcome.next.inj ((exec_search_running hrun).symm.trans h)
    rcases searchIteration_cases s with ⟨-, he⟩ | ⟨-, -, he⟩ | ⟨-, -, he⟩ <;> rw [he] <;> exact ⟨rfl, rfl⟩
  · obtain ⟨-, -, -, -, -, b, hstatus, -⟩ := effectOf_rest i s
    obtain rfl := Host.Outcome.next.inj ((exec_running hrun hs).symm.trans h)
    simp [hstatus]

/-- Settles O19: the fault fields by the effect of the command or of the iteration, the end of the command by its
completion. -/
theorem completionRaisesNothing : Obligations.CompletionRaisesNothing := by
  unfold Obligations.CompletionRaisesNothing
  intro i s t hrun h
  obtain ⟨hfault, hfcode⟩ := exec_running_keeps_fault hrun h
  refine ⟨hfault, hfcode, fun hs => ?_⟩
  obtain ⟨hbusy, hdone, hpending, -⟩ := exec_running_status hrun hs h
  exact ⟨hpending, hbusy, hdone⟩

/-! KEYBUF_TOO_SMALL. -/

theorem CoreFault.code_eq_one_iff (f : CoreFault) : f.code = 1#8 ↔ f = .keybufTooSmall := by cases f <;> decide

/-- A short key buffer is the first cause to fail where the message fits (60_exceptions.md R260). -/
theorem operandFault_keybufTooSmall {i : Instr} {s : State} (hk : i.makesKeys = true) (hlen : s.cfg.keyBufLen < 8832)
    (hm : i.readsMessage = true → s.msgLen.toNat ≤ s.cfg.msgMax) : operandFault i s = some .keybufTooSmall := by
  have hmsg : ¬ (i.readsMessage = true ∧ s.cfg.msgMax < s.msgLen.toNat) :=
    fun ⟨hr, hlt⟩ => Nat.not_lt.mpr (hm hr) hlt
  rw [operandFault, if_neg hmsg, if_pos ⟨hk, hlen⟩]

/-- With a whole key buffer no operand check fails for its length. -/
theorem operandFault_ne_keybufTooSmall {i : Instr} {s : State} (hlen : s.cfg.keyBufLen = 8832) :
    operandFault i s ≠ some .keybufTooSmall := by
  rw [operandFault, if_neg (c := i.makesKeys = true ∧ _) (by simp [hlen])]
  split
  · simp
  · split <;> simp

/-- Taking another fault leaves another code. -/
theorem raiseFault_fcode_ne_one {f : CoreFault} {s : State} (hf : f ≠ .keybufTooSmall) (hs : s.status.fcode ≠ 1#8) :
    (raiseFault f s).status.fcode ≠ 1#8 := by
  by_cases hc : s.status.fcode = 0#8
  · simpa [hc] using fun h => hf (f.code_eq_one_iff.mp h)
  · simpa [hc] using hs

/-- With a whole key buffer no command, at issue or running, takes KEYBUF_TOO_SMALL. -/
theorem exec_fcode_ne_one {i : Instr} {s t : State} (hlen : s.cfg.keyBufLen = 8832) (hs : s.status.fcode ≠ 1#8)
    (h : exec i s = .next t) : t.status.fcode ≠ 1#8 := by
  by_cases hrun : s.Running i
  · rwa [(exec_running_keeps_fault hrun h).2]
  · rcases exec_cases h with ⟨hr, -⟩ | ⟨hr, -⟩ | ⟨-, -, rfl⟩ | ⟨-, -, -, -, rfl⟩ | ⟨-, -, -, rfl⟩ |
      ⟨f, -, hf, rfl⟩ | ⟨-, -, rfl⟩
    · exact absurd hr hrun
    · exact absurd hr hrun
    · exact hs
    · exact raiseFault_fcode_ne_one (by simp) hs
    · exact hs
    · exact raiseFault_fcode_ne_one (fun he => operandFault_ne_keybufTooSmall hlen (he ▸ hf)) hs
    · simpa using hs

/-- Settles O18: on a short key buffer the operand check that fails first, on a whole one each way a step can go on. -/
theorem keyBufferTooSmallDependsOnConfigurationOnly : Obligations.KeyBufferTooSmallDependsOnConfigurationOnly := by
  unfold Obligations.KeyBufferTooSmallDependsOnConfigurationOnly
  refine ⟨fun i s hi hidle hlen hm => ?short, fun s t _ hlen hs h => ?whole⟩
  case short =>
    have hk : ∀ j ∈ [Instr.keygen, .final, .hash, .verify, .search], j.makesKeys = true := by decide
    exact ⟨_, exec_idle_fault hidle (operandFault_keybufTooSmall (hk i hi) hlen hm), tookFault_raiseFault _ _⟩
  case whole =>
    obtain ⟨-, rest, u, hu, -, hmoves⟩ := step_moves h
    have hlen : u.cfg.keyBufLen = 8832 := by rw [hu]; exact hlen
    have hs : u.status.fcode ≠ 1#8 := by rw [hu]; exact hs
    rcases hmoves with ⟨i, -, he⟩ | ⟨i, w, -, -, he⟩ | ⟨-, -, -, he⟩ | rfl | ⟨bs, rfl⟩ | ⟨bs, f, -, rfl, hf⟩ |
      ⟨f, -, rfl, hf⟩ | ⟨r, addr, v, -, -, -, rfl⟩ | ⟨-, rfl⟩
    · exact exec_fcode_ne_one hlen hs he
    · exact exec_fcode_ne_one hlen hs he
    · exact exec_fcode_ne_one hlen hs he
    · exact hs
    · exact hs
    · exact raiseFault_fcode_ne_one (by rintro rfl; simp at hf) hs
    · exact raiseFault_fcode_ne_one (by rintro rfl; simp at hf) hs
    · rwa [storePort_status]
    · simp [Status.cleared]

end Sys2Proof.Machine
end

section
/-! SUPPORT. The fault state and the one way out of it, reset (60_exceptions.md R260, R261; 70_reset_and_hazards.md
R290). -/

namespace Sys2Proof.Machine

/-- Nothing of the CORE differs: only the turns, the bytes last read and the read counter may, which are the model's
own. -/
structure SameCore (s t : State) : Prop where
  status  : t.status = s.status
  mem     : t.mem = s.mem
  msgLen  : t.msgLen = s.msgLen
  pending : t.pending = s.pending
  cfg     : t.cfg = s.cfg

theorem SameCore.refl (s : State) : SameCore s s := ⟨rfl, rfl, rfl, rfl, rfl⟩

theorem SameCore.trans {s t u : State} (h : SameCore s t) (h' : SameCore t u) : SameCore s u :=
  ⟨h'.status.trans h.status, h'.mem.trans h.mem, h'.msgLen.trans h.msgLen, h'.pending.trans h.pending,
    h'.cfg.trans h.cfg⟩

theorem SameCore.inv {s t : State} (h : SameCore s t) (hinv : s.Inv) : t.Inv :=
  hinv.congr h.mem h.status h.pending h.msgLen h.cfg

/-- In the fault state no command runs (10_state.md R38). -/
theorem State.Inv.not_busy_of_fault {s : State} (h : s.Inv) (hf : s.status.fault = true) : s.status.busy = false := by
  cases hb : s.status.busy with
  | false => rfl
  | true =>
    obtain ⟨-, hnofault, -⟩ := h.busyFlags hb
    exact absurd (hf.symm.trans hnofault) (by decide)

/-- In the fault state a step other than reset only takes a turn off or hands bytes to the host, and no host move is
added. -/
theorem step_of_faulted {s t : State} (hinv : s.Inv) (hf : s.status.fault = true)
    (hreset : s.turns.head? ≠ some (.host .reset)) (h : step s = .next t) :
    SameCore s t ∧ ∀ m, Turn.host m ∈ t.turns → Turn.host m ∈ s.turns := by
  have hb := hinv.not_busy_of_fault hf
  obtain ⟨-, rest, u, hu, hturns, hmoves⟩ := step_moves h
  have hbu : u.status.busy = false := by rw [hu]; exact hb
  have hnf : ¬ u.status.fault = false := by rw [hu]; simp [hf]
  subst hu
  rcases hmoves with ⟨i, hrun, -⟩ | ⟨i, w, hidle, -⟩ | ⟨hf', -⟩ | rfl | ⟨bs, rfl⟩ | ⟨bs, f, hf', -⟩ |
    ⟨f, hf', -⟩ | ⟨r, addr, v, hidle, -⟩ | ⟨hr, -⟩
  · exact absurd (hbu.symm.trans hrun.1) Bool.false_ne_true
  · exact absurd hidle.2 hnf
  · exact absurd hf' hnf
  · exact ⟨⟨rfl, rfl, rfl, rfl, rfl⟩, hturns⟩
  · exact ⟨⟨rfl, rfl, rfl, rfl, rfl⟩, hturns⟩
  · exact absurd hf' hnf
  · exact absurd hf' hnf
  · exact absurd hidle.2 hnf
  · exact absurd hr hreset

theorem runSteps_succ_eq_next {k : Nat} {s t : State} (h : runSteps (k + 1) s = .next t) :
    ∃ u, step s = .next u ∧ runSteps k u = .next t := by
  rw [runSteps] at h
  split at h
  case h_1 u hu => exact ⟨u, hu, h⟩
  all_goals cases h

/-- The fault state lasts for any number of steps without reset. -/
theorem sameCore_runSteps_of_faulted {k : Nat} {s t : State} (hinv : s.Inv) (hf : s.status.fault = true)
    (hreset : Turn.host .reset ∉ s.turns) (h : runSteps k s = .next t) : SameCore s t := by
  induction k generalizing s with
  | zero => exact Host.Outcome.next.inj h ▸ SameCore.refl s
  | succ k ih =>
    obtain ⟨u, hu, hrun⟩ := runSteps_succ_eq_next h
    obtain ⟨hsame, hturns⟩ := step_of_faulted hinv hf (fun hh => hreset (List.mem_of_mem_head? hh)) hu
    exact hsame.trans (ih (hsame.inv hinv) (hsame.status ▸ hf) (fun hm => hreset (hturns _ hm)) hrun)

/-- Settles O20: by induction on the number of steps. -/
theorem faultStateIsTerminal : Obligations.FaultStateIsTerminal := by
  unfold Obligations.FaultStateIsTerminal
  intro k s t hinv hf hreset h
  obtain ⟨hstatus, hmem, hlen, hpending, hcfg⟩ := sameCore_runSteps_of_faulted hinv hf hreset h
  exact ⟨hstatus, hmem, hlen, hpending, hcfg⟩

/-- Settles O11: the turn of reset makes the step `resetCore`, and any other turn leaves the fault state as it is. -/
theorem resetClearsStatusPendingAndBuffers : Obligations.ResetClearsStatusPendingAndBuffers := by
  unfold Obligations.ResetClearsStatusPendingAndBuffers
  refine ⟨fun s rest hc ht => ?reset, fun s t hinv hf hreset h => ?other⟩
  case reset => exact ⟨_, step_of_settle (nextAct_host hc ht), rfl, rfl, rfl, fun _ => rfl, rfl, rfl⟩
  case other => exact (step_of_faulted hinv hf hreset h).1.status ▸ hf

end Sys2Proof.Machine
end

section
/-! SUPPORT. What HASH, VERIFY and SEARCH depend on and what they leave alone (70_reset_and_hazards.md R292, R296). -/

namespace Sys2Proof.Machine

theorem State.Holds.readCell_eq {s t : State} {a : Nat} {bs : List Byte} (hs : s.Holds a bs) (ht : t.Holds a bs)
    {k : Nat} (hk : k < bs.length) : readCell t.mem (a + k) = readCell s.mem (a + k) :=
  (ht k hk).trans (hs k hk).symm

/-- Two states that hold the hash of one message agree in its four buffers. -/
theorem State.HoldsHash.readCell_eq {s t : State} {c : Config} {m : List Byte} (hs : s.HoldsHash (hashParts c m))
    (ht : t.HoldsHash (hashParts c m)) :
    ∀ r ∈ [(0x0100, 64), (0x0010, 8), (0x1000, 8832), (0x0140, 32)], ∀ k, k < r.2 →
      readCell t.mem (r.1 + k) = readCell s.mem (r.1 + k) := by
  obtain ⟨hS, hmix, hKB, hdigest⟩ := hs
  obtain ⟨hS', hmix', hKB', hdigest'⟩ := ht
  simp only [List.forall_mem_cons]
  exact ⟨fun k hk => hS.readCell_eq hS' (by rwa [hashParts_sponge_length]), fun k hk => hmix.readCell_eq hmix' hk,
    fun k hk => hKB.readCell_eq hKB' (by rwa [hashParts_kb_length]), fun k hk => hdigest.readCell_eq hdigest' hk,
    by simp⟩

/-- A running HASH or VERIFY leaves the hash of its message (45_finalizer_hash.md R208). -/
theorem holdsHash_of_exec {i : Instr} {s t : State} (hi : i = .hash ∨ i = .verify) (hrun : s.Running i)
    (h : exec i s = .next t) : t.HoldsHash (hashParts s.cfg s.message) := by
  have hs : i ≠ .search := by rcases hi with rfl | rfl <;> simp
  obtain rfl := Host.Outcome.next.inj ((exec_running hrun hs).symm.trans h)
  have hmem : (effectOf i s).mem = (s.putHash (hashParts s.cfg s.message)).mem := by rcases hi with rfl | rfl <;> rfl
  exact (holdsHash_putHash s s.cfg s.message).of_mem_eq hmem

theorem exec_verify_result {s t : State} (hrun : s.Running .verify) (h : exec .verify s = .next t) :
    t.status.result = meets (hash s.cfg s.message).bytes s.targetBytes := by
  obtain ⟨u, hu, -, -, -, -, hstatus⟩ := exec_verify_running hrun
  obtain rfl := Host.Outcome.next.inj (hu.symm.trans h)
  rw [hstatus]

/-- Settles O48: the same written message is read the same in both states, and so is the target, which only the verdict
needs. -/
theorem hashForgetsWhatRanBefore : Obligations.HashForgetsWhatRanBefore := by
  unfold Obligations.HashForgetsWhatRanBefore
  intro i s s' t t' hi hrun hrun' hcfg hlen hmsg htgt hmsgEq htgtEq h h'
  have hmessage : s'.message = s.message := by
    rw [State.message, hlen]
    exact bytesAt_congr hmsg hmsgEq
  refine ⟨?buffers, fun hv => ?result⟩
  case buffers =>
    have hhash' := holdsHash_of_exec hi hrun' h'
    rw [hcfg, hmessage] at hhash'
    exact (holdsHash_of_exec hi hrun h).readCell_eq hhash'
  case result =>
    have htarget : s'.targetBytes = s.targetBytes := bytesAt_congr (htgt hv) (htgtEq hv)
    subst hv
    rw [exec_verify_result hrun h, exec_verify_result hrun' h', hcfg, hmessage, htarget]

/-- The operands of R296 lie outside what HASH, VERIFY and SEARCH write (10_state.md R45). -/
theorem operands_apart_from_writeRanges :
    ∀ i ∈ [Instr.hash, .verify, .search],
      ∀ r ∈ [(0x0080, 64), (0x0040, 16), (0x00C0, 32), (0x0160, 32), (0x0018, 8), (0x4000, 56)],
        ∀ w ∈ i.writeRanges, r.1 + r.2 ≤ w.1 ∨ w.1 + w.2 ≤ r.1 := by
  decide

/-- Settles O60: the frame of the three commands leaves out the operands. -/
theorem operandsSurviveHashVerifySearch : Obligations.OperandsSurviveHashVerifySearch := by
  unfold Obligations.OperandsSurviveHashVerifySearch
  intro i s t hi h r hr k hk
  obtain ⟨hout, -⟩ := commandsWriteOnlyTheirBuffers i s t h
  refine hout _ fun w hw => ?_
  have hapart := operands_apart_from_writeRanges i (by simpa using hi) r hr w hw
  omega

end Sys2Proof.Machine
end
